-- ==== Sys2Proof/Word.lean ====
section
/-! DEFINITION. The words of the machine: a byte and a byte sequence (spec 00_scope.md R11, R12). Every other number of
the spec is an unbounded natural (R11, R27), held as `Nat`. -/

namespace Sys2Proof

/-- A `Byte`, a natural below 256 (R11). -/
abbrev Byte := BitVec 8

/-- `Bytes`, a finite sequence of bytes (R12). -/
abbrev Bytes := List Byte

end Sys2Proof
end

