-- ==== Sys2Proof/Config.lean ====
section
/-! DEFINITION. What an implementation fixes: the configuration record `CFG` (spec 00_scope.md R8) as plain data, and the
constants without a body that stand for what the spec leaves open. -/

namespace Sys2Proof

/-- Which checksum function a block is configured with (R8 `ein_ck`, `mbus_crc`). The spec makes these OPEN function
parameters; as State is plain data the configuration names the function. `sum8` and `crc16` are the two of `CFG_REF`
(R10, 93_implementation_defined.md G1); `pinned n` is "pinned configuration data", any function at all. DESIGN CHOICE
(log entry 10), safe. -/
inductive CkAlg where
  | sum8
  | crc16
  | pinned (id : Nat)
  deriving DecidableEq, Repr

/-- The five options of M3PY section 6 the block only passes through (10_state.md R41); no rule reads them. -/
structure Options where
  serialPath : String
  i2cAddressMask : Nat
  ackAll : Bool
  generateMessages : Bool
  replayFile : String
  deriving DecidableEq, Repr

/-- The configuration record `CFG` (R8), fixed when the block is constructed (20_memory.md R78). `gov`, a function from
channels to rails in the spec, is its three values. -/
structure Cfg where
  iceVersion : String
  tShort : Nat
  tLong : Nat
  tGap : Nat
  tStart : Nat
  tStop : Nat
  tolShort : Nat
  tolLong : Nat
  tolGap : Nat
  tolStart : Nat
  tolStop : Nat
  gocMaxBits : Nat
  einMaxPayload : Nat
  einCkLen : Nat
  einCkAlg : CkAlg
  mbusMaxChunk : Nat
  mbusMaxFrags : Nat
  mbusBcast : Byte
  mbusCrcLen : Nat
  mbusCrcAlg : CkAlg
  preGoc : Byte
  preEin : Byte
  preMbus : Byte
  nrails : Nat
  govGoc : Nat
  govEin : Nat
  govMbus : Nat
  softRail : Nat
  settleTicks : Nat
  respTimeout : Nat
  reasmTimeout : Nat
  tick : Nat
  options : Options
  deriving DecidableEq, Repr

/-- FREE VALUE. The pinned checksum functions of real boards, which the source forbids inventing (R4, 41_ein_framer.md
R151): nothing constrains them but that they are functions of their argument. Log entry 10. -/
opaque Config.pinnedCheck : Nat → Bytes → Bytes

/-- FREE VALUE. What the recorder answers to the n-th request of a snoop operation (45_command_surface.md R275: the
operation "returns what the recorder returns"). Log entry 9. -/
opaque Config.recorderAnswer : Nat → Bytes

end Sys2Proof
end

