-- ==== Sys2Proof/Machine/ByteOrder.lean ====
section
/-! DEFINITION. Byte and bit order (spec 20_memory.md R64, R65; 00_scope.md R11): every multi-byte number is most
significant byte first. -/

namespace Sys2Proof.Machine

/-- Bits `8k+7` to `8k` of `n`. -/
def byteAt (n k : Nat) : Byte := BitVec.ofNat 8 (n / 256 ^ k)

/-- `be16` (R11). -/
def be16 (n : Nat) : Bytes := [byteAt n 1, byteAt n 0]

/-- `be24` (R11). -/
def be24 (n : Nat) : Bytes := [byteAt n 2, byteAt n 1, byteAt n 0]

/-- Four bytes, most significant first: how the one 32-bit word of the opcode table is stored (R64, log entry 16). -/
def be32 (n : Nat) : Bytes := [byteAt n 3, byteAt n 2, byteAt n 1, byteAt n 0]

/-- The natural that bytes spell, most significant first (R64). -/
def ofBe (bs : Bytes) : Nat := bs.foldl (fun a b => a * 256 + b.toNat) 0

/-- The bits of one byte, bit 7 first (R65). -/
def bitsOfByte (b : Byte) : List Bool :=
  [b.getLsbD 7, b.getLsbD 6, b.getLsbD 5, b.getLsbD 4, b.getLsbD 3, b.getLsbD 2, b.getLsbD 1, b.getLsbD 0]

/-- `bits_of` (R65): a helper for clients that no operation calls. -/
def bitsOf (bs : Bytes) : List Bool := bs.flatMap bitsOfByte

/-- The byte eight bits spell, the first the most significant. -/
def byteOfBits (bits : List Bool) : Byte := BitVec.ofNat 8 (bits.foldl (fun a b => a * 2 + b.toNat) 0)

/-- `bytes_of` (R65): the inverse of `bitsOf` on lists whose length is a multiple of 8; bits of an unfinished last byte
are not a byte and are dropped. -/
def bytesOf : List Bool → Bytes
  | b7 :: b6 :: b5 :: b4 :: b3 :: b2 :: b1 :: b0 :: rest => byteOfBits [b7, b6, b5, b4, b3, b2, b1, b0] :: bytesOf rest
  | _ => []

end Sys2Proof.Machine
end

