-- ==== Sys2Proof/Machine/Checksum.lean ====
section
/-! DEFINITION. The checksum and CRC functions of a configuration (spec 00_scope.md R8, R10; 41_ein_framer.md R151;
42_mbus_framer.md R171; 93_implementation_defined.md G1). -/

namespace Sys2Proof.Machine

/-- The sum of all bytes modulo 256 (R10; R162: carries out of bit 7 are discarded). -/
def sumBytes (bs : Bytes) : Byte := bs.foldl (fun a b => a + b) 0

/-- One of the eight shifts of G1: shift left in 16 bits, and XOR 0x1021 when bit 15 was 1. -/
def crcShift (c : BitVec 16) : BitVec 16 := if c.getLsbD 15 then (c <<< 1) ^^^ 0x1021 else c <<< 1

/-- One byte of G1: the byte into the high half, then eight shifts. -/
def crcByte (c : BitVec 16) (b : Byte) : BitVec 16 :=
  crcShift (crcShift (crcShift (crcShift (crcShift (crcShift (crcShift (crcShift (c ^^^ (b.zeroExtend 16 <<< 8)))))))))

/-- The CRC-16 of G1: polynomial 0x1021, initial value 0xFFFF, no reflection, no final XOR. -/
def crc16 (bs : Bytes) : BitVec 16 := bs.foldl crcByte 0xFFFF

/-- Exactly `n` bytes: cut, or filled with zero bytes. A function that already returns `n` bytes is left as it is. -/
def fitBytes (n : Nat) (bs : Bytes) : Bytes := bs.take n ++ List.replicate (n - bs.length) 0

/-- The bytes an algorithm gives. -/
def CkAlg.apply : CkAlg → Bytes → Bytes
  | .sum8, bs => [sumBytes bs]
  | .crc16, bs => be16 (crc16 bs).toNat
  | .pinned id, bs => Config.pinnedCheck id bs

/-- `CFG.ein_ck` (R8): total, `ein_ck_len` bytes. -/
def einCk (c : Cfg) (bs : Bytes) : Bytes := fitBytes c.einCkLen (CkAlg.apply c.einCkAlg bs)

/-- `CFG.mbus_crc` (R8): total, `mbus_crc_len` bytes. -/
def mbusCrc (c : Cfg) (bs : Bytes) : Bytes := fitBytes c.mbusCrcLen (CkAlg.apply c.mbusCrcAlg bs)

end Sys2Proof.Machine
end

