-- ==== Sys2Proof/Machine/RefConfig.lean ====
section
/-! DEFINITION. The reference configuration `CFG_REF` (spec 00_scope.md R10), the spec's own instance of `CFG`. -/

namespace Sys2Proof.Machine

/-- The pass-through options, all empty or off (10_state.md R41 gives no value). DESIGN CHOICE, log entry 19. -/
def refOptions : Options :=
  { serialPath := "", i2cAddressMask := 0, ackAll := false, generateMessages := false, replayFile := "" }

/-- `CFG_REF` (R10). It is no real board's configuration. `tick` and `ice_version`, which R10 does not give and no rule
reads, are 0 and empty. -/
def cfgRef : Cfg :=
  { iceVersion := "", tShort := 10, tLong := 30, tGap := 10, tStart := 60, tStop := 90,
    tolShort := 4, tolLong := 4, tolGap := 4, tolStart := 4, tolStop := 4,
    gocMaxBits := 8190, einMaxPayload := 255, einCkLen := 1, einCkAlg := .sum8,
    mbusMaxChunk := 4, mbusMaxFrags := 255, mbusBcast := 0x00, mbusCrcLen := 2, mbusCrcAlg := .crc16,
    preGoc := 0x47, preEin := 0x45, preMbus := 0x4D,
    nrails := 3, govGoc := 0, govEin := 0, govMbus := 1, softRail := 0,
    settleTicks := 5, respTimeout := 50, reasmTimeout := 20, tick := 0, options := refOptions }

end Sys2Proof.Machine
end

