-- ==== Sys2Proof/Syntax.lean ====
section
/-! DEFINITION. The operand types (spec 00_scope.md R12, 30_encoding.md R110 to R112) and `Instr`, one constructor per
row of spec/opcode_table.json. -/

namespace Sys2Proof

/-- A GOC bit (R12); `true` is 1. -/
abbrev Bit := Bool

/-- `Edge` (R12, R92): RISE begins a pulse, FALL a gap. -/
inductive Edge where
  | rise
  | fall
  deriving DecidableEq, Repr

/-- `PulseEvent` (R12, R92): time, edge and duration, in ticks. -/
structure PulseEvent where
  t : Nat
  edge : Edge
  dur : Nat
  deriving DecidableEq, Repr

/-- `Channel` (R12). -/
inductive Channel where
  | goc
  | ein
  | mbus
  deriving DecidableEq, Repr

/-- `RailState` (R12, R110). -/
inductive RailState where
  | off
  | low
  | mid
  | high
  deriving DecidableEq, Repr

/-- The kind of a `RESET` (R111). -/
inductive ResetKind where
  | soft
  | hard
  deriving DecidableEq, Repr

/-- The wire formats of R90 that the transport peer's bytes are made of. -/
inductive WireFormat where
  | record
  | pulseWord
  | einBody
  | mbusBody
  deriving DecidableEq, Repr

/-- One entry of the schedule: whose step is next (R14). `client` takes the next call on the command port, `resume` the
oldest held `EIN_SEND` (45_command_surface.md R266), `peer f` the next wire unit the transport peer sends. The schedule is
the model's own (log entry 3). -/
inductive Turn where
  | client
  | resume
  | peer (f : WireFormat)
  | reader
  | dispatcher
  | clock
  | recorder
  deriving DecidableEq, Repr

/-- The rows of spec/opcode_table.json, in the table's order: the 21 operations of 30_encoding.md R120, the four steps
without an op code, and the four wire formats. The `crc` of a message operand is ignored (R174, R186) and so is no
operand. -/
inductive Instr where
  | gocEncode (bits : List Bit)
  | gocDecode (events : List PulseEvent)
  | gocSer (events : List PulseEvent)
  | gocDeser (body : Bytes)
  | einBuild (dest opcode : Byte) (payload : Bytes)
  | einParse (body : Bytes)
  | mbusBuild (src dst msgId fragIndex fragCount : Byte) (chunk : Bytes)
  | mbusParse (body : Bytes)
  | mbusFragment (src dst msgId : Byte) (payload : Bytes)
  | mbusReassemble (src dst msgId fragIndex fragCount : Byte) (chunk : Bytes)
  | muxSend (chan : Channel) (body : Bytes)
  | muxReceive
  | setRail (rail : Nat) (st : RailState)
  | reset (kind : ResetKind)
  | gocSend (bits : List Bit)
  | einSend (addr opcode : Byte) (payload : Bytes)
  | mbusSend (src dst : Byte) (payload : Bytes)
  | cancel
  | snoopStart
  | snoopStop
  | snoopExport
  | rxByte (b : Byte)
  | dispatch
  | tick
  | recFail
  | record (pre : Byte) (body : Bytes)
  | pulseWord (edge : Edge) (dur : Nat)
  | einBody (dest opcode : Byte) (payload checksum : Bytes)
  | mbusBody (src dst msgId fragIndex fragCount : Byte) (chunk crc : Bytes)
  deriving DecidableEq, Repr

/-- Whose step an instruction is, and for a wire unit which format the peer sends (R14, R120). -/
def Instr.turn : Instr → Turn
  | .rxByte _ => .reader
  | .dispatch => .dispatcher
  | .tick => .clock
  | .recFail => .recorder
  | .record _ _ => .peer .record
  | .pulseWord _ _ => .peer .pulseWord
  | .einBody _ _ _ _ => .peer .einBody
  | .mbusBody _ _ _ _ _ _ _ => .peer .mbusBody
  | .gocEncode _ | .gocDecode _ | .gocSer _ | .gocDeser _ | .einBuild _ _ _ | .einParse _ | .mbusBuild _ _ _ _ _ _
  | .mbusParse _ | .mbusFragment _ _ _ _ | .mbusReassemble _ _ _ _ _ _ | .muxSend _ _ | .muxReceive | .setRail _ _
  | .reset _ | .gocSend _ | .einSend _ _ _ | .mbusSend _ _ _ | .cancel | .snoopStart | .snoopStop | .snoopExport => .client

end Sys2Proof
end

