-- ==== Sys2Proof/WellFormed.lean ====
section
/-! DEFINITION. Well-formed configurations (spec 00_scope.md R9) and well-formed instructions (the operand ranges of
30_encoding.md). -/

namespace Sys2Proof

/-- `CFG.gov` (R8): the governing rail of a channel. -/
def Cfg.gov (c : Cfg) : Channel → Nat
  | .goc => c.govGoc
  | .ein => c.govEin
  | .mbus => c.govMbus

/-- Clause (a) for one duration: nominal and window end below 2^24, tolerance at most the nominal (R9). -/
def durationOk (t tol : Nat) : Bool := decide (t < 2 ^ 24) && decide (t + tol < 2 ^ 24) && decide (tol ≤ t)

/-- Two closed windows share no duration. -/
def windowsApart (t1 tol1 t2 tol2 : Nat) : Bool := decide (t1 + tol1 < t2 - tol2) || decide (t2 + tol2 < t1 - tol1)

/-- Clause (a) of `CFG_WF` (R9). -/
def Cfg.durationsOk (c : Cfg) : Bool :=
  durationOk c.tShort c.tolShort && durationOk c.tLong c.tolLong && durationOk c.tGap c.tolGap
    && durationOk c.tStart c.tolStart && durationOk c.tStop c.tolStop

/-- Clause (b) of `CFG_WF` (R9): the four pulse windows are pairwise disjoint. -/
def Cfg.windowsDisjoint (c : Cfg) : Bool :=
  windowsApart c.tShort c.tolShort c.tLong c.tolLong && windowsApart c.tShort c.tolShort c.tStart c.tolStart
    && windowsApart c.tShort c.tolShort c.tStop c.tolStop && windowsApart c.tLong c.tolLong c.tStart c.tolStart
    && windowsApart c.tLong c.tolLong c.tStop c.tolStop && windowsApart c.tStart c.tolStart c.tStop c.tolStop

/-- Clause (c) of `CFG_WF` (R9): the preambles are pairwise distinct. -/
def Cfg.preamblesDistinct (c : Cfg) : Bool :=
  decide (c.preGoc ≠ c.preEin) && decide (c.preGoc ≠ c.preMbus) && decide (c.preEin ≠ c.preMbus)

/-- Clause (d) of `CFG_WF` (R9). -/
def Cfg.sizesOk (c : Cfg) : Bool :=
  decide (c.einMaxPayload ≤ 255) && decide (1 ≤ c.mbusMaxChunk) && decide (c.mbusMaxChunk ≤ 255)
    && decide (1 ≤ c.mbusMaxFrags) && decide (c.mbusMaxFrags ≤ 255) && decide (c.gocMaxBits ≤ 8190)

/-- Clause (e) of `CFG_WF` (R9). -/
def Cfg.railsOk (c : Cfg) : Bool :=
  decide (c.govGoc < c.nrails) && decide (c.govEin < c.nrails) && decide (c.govMbus < c.nrails)
    && decide (c.softRail < c.nrails) && decide (2 ≤ c.nrails)

/-- Clause (f) of `CFG_WF` (R9) with the lengths of R8; that the checksum functions are total and return exactly that
many bytes holds of every configuration (`einCk_length`, `mbusCrc_length`). -/
def Cfg.checksOk (c : Cfg) : Bool := decide (1 ≤ c.einCkLen) && decide (1 ≤ c.mbusCrcLen)

/-- All of `CFG_WF` but clause (b): what a block may be constructed from, the violation of clause (b) alone having a
defined behaviour (R9, 93_implementation_defined.md U6). -/
def Cfg.wfButWindows (c : Cfg) : Bool :=
  c.durationsOk && c.preamblesDistinct && c.sizesOk && c.railsOk && c.checksOk

/-- `CFG_WF` (R9). -/
def Cfg.wf (c : Cfg) : Bool := c.wfButWindows && c.windowsDisjoint

/-- Whether a byte is one of the three preambles (30_encoding.md R100, R101). -/
def Cfg.isPreamble (c : Cfg) (b : Byte) : Bool := decide (b = c.preGoc) || decide (b = c.preEin) || decide (b = c.preMbus)

/-- Whether the six bits of the table's rail place are too few for the rails of a configuration, whose number 00_scope.md
R8 does not bound (R42; log entry 6). -/
def Cfg.wideRails (c : Cfg) : Bool := decide (64 < c.nrails)

/-- The operand ranges the encodings admit: six bits of rail index where they are enough, the preamble and the 16-bit length of a record
(R100), the 24-bit duration (R96), the one-byte lengths (R102, R104) and the checksum lengths of the configuration. Lists,
times and durations on the command port have no bound (R11, 40_goc_codec.md R142), nor has a rail index where the
configuration has rails beyond 63 (R42; log entry 6). -/
def Instr.wf (c : Cfg) : Instr → Bool
  | .gocEncode _ => true
  | .gocDecode _ => true
  | .gocSer _ => true
  | .gocDeser _ => true
  | .einBuild _ _ _ => true
  | .einParse _ => true
  | .mbusBuild _ _ _ _ _ _ => true
  | .mbusParse _ => true
  | .mbusFragment _ _ _ _ => true
  | .mbusReassemble _ _ _ _ _ _ => true
  | .muxSend _ _ => true
  | .muxReceive => true
  | .setRail rail _ => c.wideRails || decide (rail < 64)
  | .reset _ => true
  | .gocSend _ => true
  | .einSend _ _ _ => true
  | .mbusSend _ _ _ => true
  | .cancel => true
  | .snoopStart => true
  | .snoopStop => true
  | .snoopExport => true
  | .rxByte _ => true
  | .dispatch => true
  | .tick => true
  | .recFail => true
  | .record pre body => c.isPreamble pre && decide (body.length < 65536)
  | .pulseWord _ dur => decide (dur < 2 ^ 24)
  | .einBody _ _ payload checksum => decide (payload.length ≤ 255) && decide (checksum.length = c.einCkLen)
  | .mbusBody _ _ _ _ _ chunk crc => decide (chunk.length ≤ 255) && decide (crc.length = c.mbusCrcLen)

end Sys2Proof
end

