-- ==== Sys2Proof/Decode.lean ====
section
/-! DEFINITION. The decoder, total on any bytes and rejecting by name, and the encoder (spec 30_encoding.md R96, R100,
R102, R104, R120, R121). The command port's serial form of a list, which R121 leaves open, is a count, then the elements;
counts, times, durations and rail indices are naturals without a bound (R11, R42, 40_goc_codec.md R142) in groups of seven
bits (log entry 6). -/

namespace Sys2Proof

open Machine (be16 be24 be32 ofBe)

/-- Why bytes are not an instruction. R115's last row and 93_implementation_defined.md U1 give the reserved codes; that a
turn whose bytes end too soon is refused rather than left waiting is the model's choice (log entry 21). -/
inductive DecodeError where
  /-- The bytes end before the operands do. The spec does not list this case: DESIGN CHOICE, log entry 21. -/
  | truncated
  /-- An op code not in R120. -/
  | reservedOpcode (b : Byte)
  /-- Channel code 3 (R112), or a spare bit of the channel byte set (log entry 6). -/
  | reservedChannel (b : Byte)
  /-- A spare bit of the reset-kind byte set (R111, R121; log entry 6). -/
  | reservedKind (b : Byte)
  /-- A bit that is neither 0 nor 1 (R12; log entry 6). -/
  | badBit (b : Byte)
  /-- An edge byte above 0x01 (R96, R112). -/
  | badEdge (b : Byte)
  /-- A record whose first byte is no preamble (R101). -/
  | badPreamble (b : Byte)
  /-- A turn that takes no encoded input. -/
  | notAnEncodedTurn
  deriving DecidableEq, Repr

/-- A decoder of one value: the value and the bytes after it, or why there is none. -/
abbrev Reader (α : Type) := Bytes → Except DecodeError (α × Bytes)

/-- The next byte. -/
def readByte : Reader Byte
  | [] => .error .truncated
  | b :: rest => .ok (b, rest)

/-- The next `n` bytes. -/
def readBytes (n : Nat) : Reader Bytes := fun bs =>
  if n ≤ bs.length then .ok (bs.take n, bs.drop n) else .error .truncated

/-- A number of `n` bytes, most significant first (R64). -/
def readBe (n : Nat) : Reader Nat := fun bs =>
  match readBytes n bs with
  | .error e => .error e
  | .ok (v, rest) => .ok (ofBe v, rest)

/-- The rest of a number whose groups so far spell `acc - 1`: a byte below 128 is its last group, any other byte is a
group with more to come. -/
def readNatFrom (acc : Nat) : Reader Nat
  | [] => .error .truncated
  | b :: rest =>
    if b.toNat < 128 then .ok (acc * 128 + b.toNat, rest) else readNatFrom (acc * 128 + (b.toNat - 128) + 1) rest

/-- A natural of any size, most significant group first; each natural has one form and each form is a natural (log entry
6). -/
def readNat : Reader Nat := readNatFrom 0

/-- A length-prefixed byte list (R121, log entry 6). -/
def readByteList : Reader Bytes := fun bs =>
  match readNat bs with
  | .error e => .error e
  | .ok (n, rest) => readBytes n rest

/-- One bit, as a byte 0x00 or 0x01 (log entry 6). -/
def readBit : Reader Bit := fun bs =>
  match readByte bs with
  | .error e => .error e
  | .ok (b, rest) => if b = 0 then .ok (false, rest) else if b = 1 then .ok (true, rest) else .error (.badBit b)

/-- An edge byte: FALL 0x00, RISE 0x01 (R112). -/
def readEdge : Reader Edge := fun bs =>
  match readByte bs with
  | .error e => .error e
  | .ok (b, rest) => if b = 0 then .ok (.fall, rest) else if b = 1 then .ok (.rise, rest) else .error (.badEdge b)

/-- One event: time, edge byte, duration (log entry 6). -/
def readEvent : Reader PulseEvent := fun bs =>
  match readNat bs with
  | .error e => .error e
  | .ok (t, r1) =>
    match readEdge r1 with
    | .error e => .error e
    | .ok (edge, r2) =>
      match readNat r2 with
      | .error e => .error e
      | .ok (dur, r3) => .ok (⟨t, edge, dur⟩, r3)

/-- `n` values one after the other. -/
def readMany {α : Type} (p : Reader α) : Nat → Reader (List α)
  | 0 => fun bs => .ok ([], bs)
  | n + 1 => fun bs =>
    match p bs with
    | .error e => .error e
    | .ok (v, rest) =>
      match readMany p n rest with
      | .error e => .error e
      | .ok (vs, rest') => .ok (v :: vs, rest')

/-- A length-prefixed list (R121, log entry 6). -/
def readList {α : Type} (p : Reader α) : Reader (List α) := fun bs =>
  match readNat bs with
  | .error e => .error e
  | .ok (n, rest) => readMany p n rest

/-- Channel codes of the command port: GOC 0, EIN 1, MBUS 2; 3 is reserved (R112, R121). -/
def channelOfCode (b : Byte) : Except DecodeError Channel :=
  if b = 0 then .ok .goc else if b = 1 then .ok .ein else if b = 2 then .ok .mbus else .error (.reservedChannel b)

/-- Rail state codes: OFF 0, LOW 1, MID 2, HIGH 3 (R110); only the two low bits are read. -/
def railStateOfCode (n : Nat) : RailState :=
  if n % 4 = 0 then .off else if n % 4 = 1 then .low else if n % 4 = 2 then .mid else .high

/-- Reset kinds: SOFT 0, HARD 1 (R111). -/
def kindOfCode (b : Byte) : Except DecodeError ResetKind :=
  if b = 0 then .ok .soft else if b = 1 then .ok .hard else .error (.reservedKind b)

/-- Apply a constructor to a value just read. -/
def mapRead {α β : Type} (f : α → β) (r : Except DecodeError (α × Bytes)) : Except DecodeError (β × Bytes) :=
  match r with
  | .error e => .error e
  | .ok (v, rest) => .ok (f v, rest)

/-- The rest of a rail index, over 64, after the byte with its six low bits and the state. R121 calls its places labels
for the table and fixes no serial form, and a rail index is any natural below `nrails`, which nothing bounds (R42,
44_power_rail.md R236). DESIGN CHOICE, log entry 6: where the configuration has rails beyond 63 a number follows the byte,
and elsewhere nothing does, as in the vectors of 95_test_vectors.md. -/
def readRailHigh (c : Cfg) : Reader Nat := fun bs => if c.wideRails then readNat bs else .ok (0, bs)

/-- The operands of a call, after its op code, at the places R121 gives them (the table's "source_fields"); what follows a
place, the rest of a rail index included, is the model's choice (log entry 6). -/
def decodeOperands (c : Cfg) (op : Byte) (bs : Bytes) : Except DecodeError (Instr × Bytes) :=
  match op.toNat with
  | 0x01 => mapRead .gocEncode (readList readBit bs)
  | 0x02 => mapRead .gocDecode (readList readEvent bs)
  | 0x03 => mapRead .gocSer (readList readEvent bs)
  | 0x04 => mapRead .gocDeser (readByteList bs)
  | 0x05 =>
    match bs with
    | dest :: opcode :: rest => mapRead (.einBuild dest opcode) (readByteList rest)
    | _ => .error .truncated
  | 0x06 => mapRead .einParse (readByteList bs)
  | 0x07 =>
    match bs with
    | src :: dst :: mid :: idx :: cnt :: rest => mapRead (.mbusBuild src dst mid idx cnt) (readByteList rest)
    | _ => .error .truncated
  | 0x08 => mapRead .mbusParse (readByteList bs)
  | 0x09 =>
    match bs with
    | src :: dst :: mid :: rest => mapRead (.mbusFragment src dst mid) (readByteList rest)
    | _ => .error .truncated
  | 0x0A =>
    match bs with
    | src :: dst :: mid :: idx :: cnt :: rest => mapRead (.mbusReassemble src dst mid idx cnt) (readByteList rest)
    | _ => .error .truncated
  | 0x10 =>
    match bs with
    | code :: rest =>
      match channelOfCode code with
      | .error e => .error e
      | .ok ch => mapRead (.muxSend ch) (readByteList rest)
    | _ => .error .truncated
  | 0x11 => .ok (.muxReceive, bs)
  | 0x20 =>
    match bs with
    | b :: rest =>
      mapRead (fun high => .setRail (high * 64 + b.toNat / 4) (railStateOfCode b.toNat)) (readRailHigh c rest)
    | _ => .error .truncated
  | 0x21 =>
    match bs with
    | b :: rest =>
      match kindOfCode b with
      | .error e => .error e
      | .ok k => .ok (.reset k, rest)
    | _ => .error .truncated
  | 0x30 => mapRead .gocSend (readList readBit bs)
  | 0x31 =>
    match bs with
    | addr :: opcode :: rest => mapRead (.einSend addr opcode) (readByteList rest)
    | _ => .error .truncated
  | 0x32 =>
    match bs with
    | src :: dst :: rest => mapRead (.mbusSend src dst) (readByteList rest)
    | _ => .error .truncated
  | 0x33 => .ok (.cancel, bs)
  | 0x34 => .ok (.snoopStart, bs)
  | 0x35 => .ok (.snoopStop, bs)
  | 0x36 => .ok (.snoopExport, bs)
  | _ => .error (.reservedOpcode op)

/-- A call on the command port: op code, then operands (R120, R121). -/
def decodeCall (c : Cfg) : Bytes → Except DecodeError (Instr × Bytes)
  | [] => .error .truncated
  | op :: rest => decodeOperands c op rest

/-- A record: preamble, `be16` body length, body (R100); any other first byte begins no record (R101). -/
def decodeRecord (c : Cfg) : Bytes → Except DecodeError (Instr × Bytes)
  | pre :: rest =>
    if c.isPreamble pre then
      match readBe 2 rest with
      | .error e => .error e
      | .ok (n, r) => mapRead (.record pre) (readBytes n r)
    else .error (.badPreamble pre)
  | _ => .error .truncated

/-- A pulse word: edge byte, `be24` duration (R96). -/
def decodePulseWord (bs : Bytes) : Except DecodeError (Instr × Bytes) :=
  match readEdge bs with
  | .error e => .error e
  | .ok (edge, r) => mapRead (.pulseWord edge) (readBe 3 r)

/-- An EIN body: dest, opcode, len, payload, checksum (R102). -/
def decodeEinBody (c : Cfg) : Bytes → Except DecodeError (Instr × Bytes)
  | dest :: opcode :: len :: rest =>
    match readBytes len.toNat rest with
    | .error e => .error e
    | .ok (payload, r) => mapRead (.einBody dest opcode payload) (readBytes c.einCkLen r)
  | _ => .error .truncated

/-- An MBus body: the six header bytes, chunk, crc (R104). -/
def decodeMbusBody (c : Cfg) : Bytes → Except DecodeError (Instr × Bytes)
  | src :: dst :: mid :: idx :: cnt :: len :: rest =>
    match readBytes len.toNat rest with
    | .error e => .error e
    | .ok (chunk, r) => mapRead (.mbusBody src dst mid idx cnt chunk) (readBytes c.mbusCrcLen r)
  | _ => .error .truncated

/-- What the agent whose turn it is takes from its input (R14, R120), and the bytes left. The steps without an op code
take nothing but the byte the Reader reads. -/
def decode (c : Cfg) (t : Turn) (bs : Bytes) : Except DecodeError (Instr × Bytes) :=
  match t with
  | .client => decodeCall c bs
  | .resume => .error .notAnEncodedTurn
  | .peer .record => decodeRecord c bs
  | .peer .pulseWord => decodePulseWord bs
  | .peer .einBody => decodeEinBody c bs
  | .peer .mbusBody => decodeMbusBody c bs
  | .reader => mapRead .rxByte (readByte bs)
  | .dispatcher => .ok (.dispatch, bs)
  | .clock => .ok (.tick, bs)
  | .recorder => .ok (.recFail, bs)

/-- The groups before the last of a number, where they spell `n`; `fuel` is any number above `n`. -/
def encodeHigh : Nat → Nat → Bytes
  | 0, _ => []
  | fuel + 1, n =>
    if n < 128 then [BitVec.ofNat 8 (128 + n)] else encodeHigh fuel (n / 128 - 1) ++ [BitVec.ofNat 8 (128 + n % 128)]

/-- A natural of any size. -/
def encodeNat (n : Nat) : Bytes :=
  if n < 128 then [BitVec.ofNat 8 n] else encodeHigh n (n / 128 - 1) ++ [BitVec.ofNat 8 (n % 128)]

/-- A length-prefixed byte list. -/
def encodeByteList (bs : Bytes) : Bytes := encodeNat bs.length ++ bs

/-- One bit. -/
def encodeBit (b : Bit) : Bytes := [if b then 1 else 0]

/-- An edge byte (R112). -/
def encodeEdge : Edge → Byte
  | .fall => 0x00
  | .rise => 0x01

/-- One event. -/
def encodeEvent (e : PulseEvent) : Bytes := encodeNat e.t ++ encodeEdge e.edge :: encodeNat e.dur

/-- A length-prefixed list. -/
def encodeList {α : Type} (f : α → Bytes) (l : List α) : Bytes := encodeNat l.length ++ l.flatMap f

/-- Channel codes of the command port (R112). -/
def codeOfChannel : Channel → Byte
  | .goc => 0
  | .ein => 1
  | .mbus => 2

/-- Rail state codes (R110). -/
def codeOfRailState : RailState → Nat
  | .off => 0
  | .low => 1
  | .mid => 2
  | .high => 3

/-- Reset kinds (R111). -/
def codeOfKind : ResetKind → Byte
  | .soft => 0
  | .hard => 1

/-- The rest of a rail index, over 64, where the configuration has rails beyond 63 (log entry 6). -/
def encodeRailHigh (c : Cfg) (rail : Nat) : Bytes := if c.wideRails then encodeNat (rail / 64) else []

/-- The bytes of an instruction, on its agent's input (R120, R121, R96, R100, R102, R104). -/
def encode (c : Cfg) : Instr → Bytes
  | .gocEncode bits => 0x01 :: encodeList encodeBit bits
  | .gocDecode events => 0x02 :: encodeList encodeEvent events
  | .gocSer events => 0x03 :: encodeList encodeEvent events
  | .gocDeser body => 0x04 :: encodeByteList body
  | .einBuild dest opcode payload => 0x05 :: dest :: opcode :: encodeByteList payload
  | .einParse body => 0x06 :: encodeByteList body
  | .mbusBuild src dst mid idx cnt chunk => 0x07 :: src :: dst :: mid :: idx :: cnt :: encodeByteList chunk
  | .mbusParse body => 0x08 :: encodeByteList body
  | .mbusFragment src dst mid payload => 0x09 :: src :: dst :: mid :: encodeByteList payload
  | .mbusReassemble src dst mid idx cnt chunk => 0x0A :: src :: dst :: mid :: idx :: cnt :: encodeByteList chunk
  | .muxSend chan body => 0x10 :: codeOfChannel chan :: encodeByteList body
  | .muxReceive => [0x11]
  | .setRail rail st => 0x20 :: BitVec.ofNat 8 (rail % 64 * 4 + codeOfRailState st) :: encodeRailHigh c rail
  | .reset kind => [0x21, codeOfKind kind]
  | .gocSend bits => 0x30 :: encodeList encodeBit bits
  | .einSend addr opcode payload => 0x31 :: addr :: opcode :: encodeByteList payload
  | .mbusSend src dst payload => 0x32 :: src :: dst :: encodeByteList payload
  | .cancel => [0x33]
  | .snoopStart => [0x34]
  | .snoopStop => [0x35]
  | .snoopExport => [0x36]
  | .rxByte b => [b]
  | .dispatch => []
  | .tick => []
  | .recFail => []
  | .record pre body => pre :: be16 body.length ++ body
  | .pulseWord edge dur => encodeEdge edge :: be24 dur
  | .einBody dest opcode payload checksum => dest :: opcode :: BitVec.ofNat 8 payload.length :: payload ++ checksum
  | .mbusBody src dst mid idx cnt chunk crc =>
    src :: dst :: mid :: idx :: cnt :: BitVec.ofNat 8 chunk.length :: chunk ++ crc

/-- The first `k` bytes of a table word, bit 0 the least significant bit of the first byte. -/
def tableBytes : Nat → Nat → Bytes
  | 0, _ => []
  | k + 1, w => BitVec.ofNat 8 w :: tableBytes k (w / 256)

/-- Zero bytes for the operands a table word has no bits for: no client operation with empty lists is longer. -/
def zeroOperands : Bytes := List.replicate 16 0

/-- The turn that takes a table word: the one 32-bit row is PULSE_WORD, every other row with bits is an op code. -/
def tableTurn (nbits : Nat) : Turn := if nbits = 32 then .peer .pulseWord else .client

/-- A table word as the bytes of its turn: the op codes' rows are sequences of bytes; PULSE_WORD is one 32-bit word that
the wire carries most significant byte first (R96; log entry 16). -/
def tableInput (nbits w : Nat) : Bytes :=
  if nbits = 32 then be32 w else tableBytes (nbits / 8) w ++ zeroOperands

/-- The instruction the decoder reads from a word of spec/opcode_table.json. The configuration is that of
reset; a call reads it for a rail index alone, whose high part is 0 in a table word, and a pulse word does not read it. -/
def decodeTableWord (nbits w : Nat) : Option Instr :=
  match decode Machine.cfgRef (tableTurn nbits) (tableInput nbits w) with
  | .ok (i, _) => some i
  | .error _ => none

end Sys2Proof
end

