-- ==== Sys2Proof/Machine/State.lean ====
section
/-! DEFINITION. The architectural state (spec 10_state.md R20 to R51), the errors and results (60_exceptions.md R320,
R321), the faults and refusals, and the state after block reset (70_reset_and_hazards.md R360 to R362). -/

namespace Sys2Proof.Machine

/-- `EinFrame` (00_scope.md R12). -/
structure EinFrame where
  dest : Byte
  opcode : Byte
  payload : Bytes
  checksum : Bytes
  deriving DecidableEq, Repr

/-- `MBusMessage` (R12). The `crc` of a message that `MBUS_FRAGMENT` returns is not filled yet (R180) and is empty
(DEDUCED, log entry 12). -/
structure MBusMessage where
  src : Byte
  dst : Byte
  msgId : Byte
  fragIndex : Byte
  fragCount : Byte
  chunk : Bytes
  crc : Bytes
  deriving DecidableEq, Repr

/-- `MBusLogical` (R12). -/
structure MBusLogical where
  src : Byte
  dst : Byte
  msgId : Byte
  payload : Bytes
  deriving DecidableEq, Repr

/-- `Key` (R12): the reassembly key. -/
structure Key where
  src : Byte
  dst : Byte
  msgId : Byte
  deriving DecidableEq, Repr

/-- `Dir` (R12): TX is block to transport, RX transport to block (called IN in 90_conflicts.md C9; log entry 20). -/
inductive Dir where
  | tx
  | rx
  deriving DecidableEq, Repr

/-- `Tag` (R12). -/
inductive Tag where
  | chan (c : Channel)
  | unrec
  deriving DecidableEq, Repr

/-- The kinds of a `TimingViolation` (R135, R320). -/
inductive TimingKind where
  | outOfBand
  | ambiguous
  | malformed
  | unexpectedSymbol
  | trailing
  | truncated
  deriving DecidableEq, Repr

/-- The error taxonomy with the info each error records (R320), complete. `unrecognizedTraffic` and
`recorderWriteFailure` are never returned or put on EVT (R320). -/
inductive Err where
  | timingViolation (kind : TimingKind) (index : Nat)
  | frameChecksum (channel : Channel)
  | frameLength (channel : Channel) (declared : Option Nat) (actual : Nat)
  | reassemblyTimeout (key : Key) (held count : Nat)
  | broadcastTooLarge (len max : Nat)
  | railNotEnergized (channel : Channel) (rail : Nat)
  | resetInProgress
  | responseTimeout (addr : Byte)
  | unrecognizedTraffic (bytes : Bytes)
  | recorderWriteFailure
  deriving DecidableEq, Repr

/-- What an operation returns in the step that runs it (10_state.md R39, 45_command_surface.md R278, 60_exceptions.md
R321): a structured result or a typed error. -/
inductive Result where
  | ok
  | err (e : Err)
  | events (es : List PulseEvent)
  | bits (bs : List Bit)
  | bytes (bs : Bytes)
  | notGoc
  | einFrame (f : EinFrame)
  | mbusMessage (m : MBusMessage)
  | fragments (ms : List MBusMessage)
  | incomplete
  | complete (x : MBusLogical)
  | empty
  | unit (chan : Channel) (body : Bytes)
  | sent (msgId : Byte) (fragments : Nat)
  | fromRecorder (answer : Bytes)
  deriving DecidableEq, Repr

/-- How a pending `EIN_SEND` ends (45_command_surface.md R265). -/
inductive EinOutcome where
  | frame (f : EinFrame)
  | err (e : Err)
  | cancelled
  deriving DecidableEq, Repr

/-- A late result on `RES` (10_state.md R39). -/
inductive LateResult where
  | einSend (r : EinOutcome)
  | reset
  deriving DecidableEq, Repr

/-- An event on `EVT` (10_state.md R38). -/
inductive Event where
  | gocBits (bs : List Bit)
  | einFrame (f : EinFrame)
  | mbusMessage (x : MBusLogical)
  | error (e : Err)
  deriving DecidableEq, Repr

/-- One observation on `REC` (43_transport_mux.md R212). -/
structure Observation where
  dir : Dir
  tag : Tag
  bytes : Bytes
  deriving DecidableEq, Repr

/-- A snoop request forwarded to the recorder (45_command_surface.md R275). -/
inductive SnoopRequest where
  | start
  | stop
  | exportTrace
  deriving DecidableEq, Repr

/-- The phase of the receive parser (10_state.md R29). -/
inductive RxPhase where
  | idle
  | lenHi
  | lenLo
  | body
  deriving DecidableEq, Repr

/-- `S.rx` (10_state.md R29). -/
structure RxParser where
  phase : RxPhase
  chan : Channel
  len : Nat
  buf : Bytes
  raw : Bytes
  poisoned : Bool
  deriving DecidableEq, Repr

/-- `S.rst` (10_state.md R25); `targets` ascending, `restore` the state each target had. -/
structure ResetSeq where
  busy : Bool
  deadline : Nat
  targets : List Nat
  restore : List (Nat × RailState)
  deriving DecidableEq, Repr

/-- An entry of `S.reasm` (10_state.md R33); the chunks by index, indices strictly rising. -/
structure ReasmEntry where
  count : Nat
  chunks : List (Nat × Bytes)
  deadline : Nat
  deriving DecidableEq, Repr

/-- `S.wait` when it is not NONE (10_state.md R36). -/
structure Wait where
  addr : Byte
  deadline : Nat
  deriving DecidableEq, Repr

/-- A held `EIN_SEND` (45_command_surface.md R266). -/
structure HeldCall where
  addr : Byte
  opcode : Byte
  payload : Bytes
  deriving DecidableEq, Repr

/-- No fault stops the block (60_exceptions.md R322): no constructor, so nobody raises one. Safe: errors are results
(`Err`), and an input without a meaning is a `Refusal`. -/
inductive Fault where
  deriving DecidableEq, Repr

/-- Why a step has no meaning: the spec's `refuse` (93_implementation_defined.md U1 to U6). Every one is safe: the model
stops where the spec gives no meaning (log entry 11). -/
inductive Refusal where
  /-- An instruction the model gives no meaning yet; raised by `exec` alone. Safe. -/
  | notModelled (mnemonic : String)
  /-- The bytes at a port are not an operation (U1) or a wire unit (log entry 7), or end before their operands do (log
  entry 21); raised by `fetch`. Safe. -/
  | notAnOperation (e : DecodeError)
  /-- U1: `SET_RAIL` of a rail at or above `nrails` (R236). Safe. -/
  | railOutOfRange (rail : Nat)
  /-- U2: `GOC_ENCODE` or `GOC_SEND` of more than `goc_max_bits` bits (R132). Safe. -/
  | gocTooManyBits
  /-- U3: `GOC_SER` of a duration of 2^24 or more (R137); a PULSE_WORD has no such duration either (R96). Safe. -/
  | durationTooLong
  /-- U4: `EIN_BUILD` or `EIN_SEND` of a payload longer than `ein_max_payload` (R152); an EIN_BODY of more than 255
  payload bytes (R102). Safe. -/
  | einPayloadTooLong
  /-- U5: `MBUS_BUILD` of a chunk longer than 255 (R174); an MBUS_BODY likewise (R104). Safe. -/
  | mbusChunkTooLong
  /-- U5: `MBUS_FRAGMENT` or `MBUS_SEND` needing more than `mbus_max_frags` fragments (R180). Safe. -/
  | tooManyFragments
  /-- U5: a record body longer than 65535 bytes (R202, R100). Safe. -/
  | bodyTooLong
  /-- U6: constructing a block from a configuration that is not `CFG_WF` (R9); raised by `construct` alone. Safe. -/
  | badConfig
  deriving DecidableEq, Repr

/-- The whole state `S` of R20, the port logs of R38 to R40, the `RX` stream of 20_memory.md R60, and the model's own
fields (INVENTORY.md, State). Plain data. -/
structure State where
  /-- `CFG` (R41). -/
  cfg : Cfg
  /-- `S.rail` (R22). -/
  rail : List RailState
  /-- `S.rst` (R25). -/
  rst : ResetSeq
  /-- `S.now` (R27). -/
  now : Nat
  /-- `S.rx` (R29). -/
  rx : RxParser
  /-- `S.rxq` (R31). -/
  rxq : List (Channel × Bytes)
  /-- `S.reasm` (R33), keys strictly rising. -/
  reasm : List (Key × ReasmEntry)
  /-- `S.mbus_next_id` (R35). -/
  mbusNextId : Byte
  /-- `S.wait` (R36); none is NONE. -/
  wait : Option Wait
  /-- `S.rec_fail` (R37). -/
  recFail : Bool
  /-- `TX` (R40). -/
  tx : Bytes
  /-- `REC` (R40). -/
  recLog : List Observation
  /-- `EVT` (R38). -/
  evt : List Event
  /-- `RES` (R39). -/
  res : List LateResult
  /-- The results returned in the step that runs an operation (R39); the model's own log (log entry 8). -/
  ret : List Result
  /-- The requests forwarded to the recorder (R275); the model's own log (log entry 9). -/
  snoop : List SnoopRequest
  /-- The unread bytes of `RX` (R60, R63). -/
  rxIn : Bytes
  /-- The bytes of `RX` already given to `RX_BYTE` (43_transport_mux.md R221; log entry 18). -/
  rxDone : Bytes
  /-- The held `EIN_SEND` calls, oldest first (R266; log entry 5). -/
  held : List HeldCall
  /-- The schedule (R14; log entry 3). -/
  turns : List Turn
  /-- The encoded calls and wire units the scheduled turns will take (R121; log entry 6). -/
  inp : Bytes
  /-- How many free values have been drawn (log entry 9). -/
  freeCount : Nat
  deriving DecidableEq, Repr

/-- The parser after block reset (R30); `chan` and `len` are unspecified there: DESIGN CHOICE, log entry 2. -/
def RxParser.reset : RxParser := { phase := .idle, chan := .goc, len := 0, buf := [], raw := [], poisoned := false }

/-- The reset sequencer after block reset (R26); all but `busy` is unspecified there: DESIGN CHOICE, log entry 2. -/
def ResetSeq.reset : ResetSeq := { busy := false, deadline := 0, targets := [], restore := [] }

/-- Block reset: the state of a block just constructed for a configuration (R360 to R362). -/
def State.construct (c : Cfg) : State :=
  { cfg := c, rail := List.replicate c.nrails .off, rst := .reset, now := 0, rx := .reset, rxq := [], reasm := [],
    mbusNextId := 0, wait := none, recFail := false, tx := [], recLog := [], evt := [], res := [], ret := [],
    snoop := [], rxIn := [], rxDone := [], held := [], turns := [], inp := [], freeCount := 0 }

/-- Construction refuses a configuration that is not well formed, the violation of clause (b) alone excepted (R9, U6). -/
def State.constructChecked (c : Cfg) : Except Refusal State :=
  if c.wfButWindows then .ok (State.construct c) else .error .badConfig

/-- The machine right after reset, constructed for `CFG_REF` (R361; log entry 1). -/
def State.reset : State := State.construct cfgRef

end Sys2Proof.Machine
end

