-- ==== Sys2Proof/Machine/Updates.lean ====
section
/-! DEFINITION. One named update per field of State; every meaning writes State through these. The lemmas that say what
each leaves alone are in Sys2Proof/Laws/State.lean. -/

namespace Sys2Proof.Machine

/-- `S.rail` as a whole (R22). -/
def State.setRail (s : State) (v : List RailState) : State := { s with rail := v }

/-- `S.rst` (R25). -/
def State.setRst (s : State) (v : ResetSeq) : State := { s with rst := v }

/-- `S.now` (R27). -/
def State.setNow (s : State) (v : Nat) : State := { s with now := v }

/-- `S.rx` (R29). -/
def State.setRx (s : State) (v : RxParser) : State := { s with rx := v }

/-- `S.rxq` (R31). -/
def State.setRxq (s : State) (v : List (Channel × Bytes)) : State := { s with rxq := v }

/-- `S.reasm` (R33). -/
def State.setReasm (s : State) (v : List (Key × ReasmEntry)) : State := { s with reasm := v }

/-- `S.mbus_next_id` (R35). -/
def State.setNextId (s : State) (v : Byte) : State := { s with mbusNextId := v }

/-- `S.wait` (R36). -/
def State.setWait (s : State) (v : Option Wait) : State := { s with wait := v }

/-- `S.rec_fail` (R37). -/
def State.setRecFail (s : State) (v : Bool) : State := { s with recFail := v }

/-- `TxWrite` (20_memory.md R62): append to `TX`, in order, in one step. -/
def State.pushTx (s : State) (v : Bytes) : State := { s with tx := s.tx ++ v }

/-- Observations on `REC` (43_transport_mux.md R212). -/
def State.pushRec (s : State) (v : List Observation) : State := { s with recLog := s.recLog ++ v }

/-- Events on `EVT` (R38). -/
def State.pushEvt (s : State) (v : List Event) : State := { s with evt := s.evt ++ v }

/-- Late results on `RES` (R39). -/
def State.pushRes (s : State) (v : List LateResult) : State := { s with res := s.res ++ v }

/-- Results returned in this step (R39). -/
def State.pushRet (s : State) (v : List Result) : State := { s with ret := s.ret ++ v }

/-- Requests forwarded to the recorder (R275). -/
def State.pushSnoop (s : State) (v : List SnoopRequest) : State := { s with snoop := s.snoop ++ v }

/-- The unread bytes of `RX` (R60). -/
def State.setRxIn (s : State) (v : Bytes) : State := { s with rxIn := v }

/-- Bytes given to `RX_BYTE` (R221). -/
def State.pushRxDone (s : State) (v : Bytes) : State := { s with rxDone := s.rxDone ++ v }

/-- The held calls (R266). -/
def State.setHeld (s : State) (v : List HeldCall) : State := { s with held := v }

/-- The schedule (R14). -/
def State.setTurns (s : State) (v : List Turn) : State := { s with turns := v }

/-- The encoded input (R121). -/
def State.setInp (s : State) (v : Bytes) : State := { s with inp := v }

/-- The free-value counter. -/
def State.setFreeCount (s : State) (v : Nat) : State := { s with freeCount := v }

end Sys2Proof.Machine
end

