-- ==== Sys2Proof/Machine/Flags.lean ====
section
/-! DEFINITION. The block's three status flags (spec 10_state.md R37) and who sets and clears each. It has no condition
codes. -/

namespace Sys2Proof.Machine

/-- `S.rec_fail` set: sticky until block reset (R37, 60_exceptions.md R328). -/
def setRecFailFlag (s : State) : State := s.setRecFail true

/-- `S.rst.busy` set, by an accepted RESET (R37, 44_power_rail.md R240). -/
def startReset (s : State) (deadline : Nat) (targets : List Nat) (restore : List (Nat × RailState)) : State :=
  s.setRst { busy := true, deadline := deadline, targets := targets, restore := restore }

/-- `S.rst.busy` cleared, by reset completion (R37, R243). -/
def clearBusy (s : State) : State := s.setRst { s.rst with busy := false }

/-- `S.rx.poisoned` set by a power-down of channel `c` with a record of that channel in the parser (R37, R234). -/
def poisonRx (s : State) (c : Channel) : State :=
  if s.rx.phase ≠ .idle ∧ s.rx.chan = c then s.setRx { s.rx with poisoned := true } else s

end Sys2Proof.Machine
end

