-- ==== Sys2Proof/Machine/Operands.lean ====
section
/-! DEFINITION. The operand forms of the block: channels and their preambles (spec 30_encoding.md R101), the record
envelope (R100), rail numbers as sets (44_power_rail.md R240), reassembly keys (00_scope.md R12). -/

namespace Sys2Proof.Machine

/-- `preamble(chan)` (R101, 43_transport_mux.md R202). -/
def preamble (c : Cfg) : Channel → Byte
  | .goc => c.preGoc
  | .ein => c.preEin
  | .mbus => c.preMbus

/-- The channel a preamble byte selects; any other byte selects nothing (R101). -/
def channelOfPreamble (c : Cfg) (b : Byte) : Option Channel :=
  if b = c.preGoc then some .goc else if b = c.preEin then some .ein else if b = c.preMbus then some .mbus else none

/-- A record: preamble, `be16` body length, body (R100). -/
def recordBytes (pre : Byte) (body : Bytes) : Bytes := pre :: be16 body.length ++ body

/-- The rails a reset cycles, ascending (R240). -/
def resetTargets (c : Cfg) : ResetKind → List Nat
  | .soft => [c.softRail]
  | .hard => List.range c.nrails

/-- A key's place in the lexicographic order (R12). -/
def Key.ord (k : Key) : Nat := k.src.toNat * 65536 + k.dst.toNat * 256 + k.msgId.toNat

/-- The key of a message (R186). -/
def MBusMessage.key (m : MBusMessage) : Key := ⟨m.src, m.dst, m.msgId⟩

/-- A message operand; its `crc` is not an operand (R174, R186). -/
def messageOf (src dst msgId fragIndex fragCount : Byte) (chunk : Bytes) : MBusMessage :=
  ⟨src, dst, msgId, fragIndex, fragCount, chunk, []⟩

/-- The one-byte code of an error (60_exceptions.md R320, R113). -/
def Err.code : Err → Byte
  | .timingViolation _ _ => 1
  | .frameChecksum _ => 2
  | .frameLength _ _ _ => 3
  | .reassemblyTimeout _ _ _ => 4
  | .broadcastTooLarge _ _ => 5
  | .railNotEnergized _ _ => 6
  | .resetInProgress => 7
  | .responseTimeout _ => 8
  | .unrecognizedTraffic _ => 9
  | .recorderWriteFailure => 10

/-- The code of a result that is `OK` or an error (R320: 0 is OK and is not an error); other results have none. -/
def Result.code : Result → Option Byte
  | .ok => some 0
  | .err e => some e.code
  | _ => none

/-- The code of how an `EIN_SEND` ended: an error's, or 11 for `Cancelled` (R321); a frame has none. -/
def EinOutcome.code : EinOutcome → Option Byte
  | .frame _ => none
  | .err e => some e.code
  | .cancelled => some 11

end Sys2Proof.Machine
end

