-- ==== Sys2Proof/Machine/Ops.lean ====
section
/-! DEFINITION. The named operations the meanings share: results and errors (spec 60_exceptions.md R330), rails and the
gate (44_power_rail.md R233), the ports (20_memory.md R62, 43_transport_mux.md R212). -/

namespace Sys2Proof.Machine

/-- The outcome type of the machine. -/
abbrev Out := Host.Outcome State Fault Refusal

/-- How an operation ends early: `raise E(info)`, or `refuse` (00_scope.md R13). -/
inductive Stop where
  | raised (e : Err)
  | outside (r : Refusal)
  deriving DecidableEq, Repr

/-- The operation returns `r` in the step that runs it (10_state.md R39). -/
def reply (r : Result) (s : State) : Out := .next (s.pushRet [r])

/-- RAISING AN ERROR, the block's counterpart of taking an exception (R330): the error with its info is the operation's
result, and nothing else changes. There is no saved context, no mode change and no vector, and so no return from one
(60_exceptions.md R335). -/
def raise (e : Err) (s : State) : Out := reply (.err e) s

/-- End an operation early (R13, R330). -/
def stopWith (st : Stop) (s : State) : Out :=
  match st with
  | .raised e => raise e s
  | .outside r => .refused r

/-- A pure operation's end: its result, or its early stop; no other state is written (00_scope.md R14). -/
def answer (r : Except Stop Result) (s : State) : Out :=
  match r with
  | .ok v => reply v s
  | .error st => stopWith st s

/-- A parser's end: its result, or its error. -/
def answerErr (r : Except Err Result) (s : State) : Out :=
  match r with
  | .ok v => reply v s
  | .error e => raise e s

/-- `rail[r]` (00_scope.md R13). -/
def railAt (s : State) (r : Nat) : RailState := s.rail.getD r .off

/-- `rail[r] <- st` (R13). -/
def writeRail (s : State) (r : Nat) (st : RailState) : State := s.setRail (s.rail.set r st)

/-- `Decodable(c)` (R233): the channel's governing rail is not OFF. -/
def decodable (s : State) (c : Channel) : Bool := decide (railAt s (s.cfg.gov c) ≠ .off)

/-- `RailNotEnergized(c, rail = CFG.gov(c))` (R202, R234). -/
def notEnergized (s : State) (c : Channel) : Err := .railNotEnergized c (s.cfg.gov c)

/-- `Rec(dir, tag, bytes)` (R212): unconditional, never fails. -/
def observe (s : State) (d : Dir) (t : Tag) (bs : Bytes) : State := s.pushRec [⟨d, t, bs⟩]

/-- `Res(EIN_SEND, r); S.wait <- NONE` (R217, R234, R267, R268). -/
def endWait (s : State) (r : EinOutcome) : State := (s.pushRes [.einSend r]).setWait none

/-- The body of `MUX_SEND` (R202): the gate, the size, then one write and one observation. -/
def muxWrite (c : Channel) (body : Bytes) (s : State) : Except Stop State :=
  if decodable s c = false then .error (.raised (notEnergized s c))
  else if 65535 < body.length then .error (.outside .bodyTooLong)
  else
    let bytes := recordBytes (preamble s.cfg c) body
    .ok (observe (s.pushTx bytes) .tx (.chan c) bytes)

end Sys2Proof.Machine
end

