-- ==== Sys2Proof/Machine/Table.lean ====
section
/-! DEFINITION. Finite maps as lists in one canonical form, keys strictly rising (spec 00_scope.md R12 "ordered
lexicographically", 10_state.md R33): the reassembly table and the chunks of an entry. `ord` gives a key its place. -/

namespace Sys2Proof.Machine

/-- The canonical form: keys strictly rising. -/
abbrev Table.wf {κ α : Type} (ord : κ → Nat) (l : List (κ × α)) : Prop :=
  l.Pairwise (fun a b => ord a.1 < ord b.1)

/-- The value held under a key. -/
def Table.lookup {κ α : Type} (ord : κ → Nat) (k : κ) : List (κ × α) → Option α
  | [] => none
  | e :: rest => if ord e.1 = ord k then some e.2 else Table.lookup ord k rest

/-- Write a value under a key, keeping the canonical form. -/
def Table.insert {κ α : Type} (ord : κ → Nat) (k : κ) (v : α) : List (κ × α) → List (κ × α)
  | [] => [(k, v)]
  | e :: rest =>
    if ord k < ord e.1 then (k, v) :: e :: rest
    else if ord k = ord e.1 then (k, v) :: rest
    else e :: Table.insert ord k v rest

/-- Remove a key. -/
def Table.erase {κ α : Type} (ord : κ → Nat) (k : κ) (l : List (κ × α)) : List (κ × α) :=
  l.filter (fun e => decide (ord e.1 ≠ ord k))

end Sys2Proof.Machine
end

