-- ==== Sys2Proof/Machine/Mbus.lean ====
section
/-! DEFINITION. The MBus framer, fragmentation and reassembly (spec 42_mbus_framer.md, 30_encoding.md R104, R105):
MBUS_BUILD, MBUS_PARSE, MBUS_FRAGMENT, MBUS_REASSEMBLE, expiry and flush. -/

namespace Sys2Proof.Machine

/-- The bytes the CRC covers: the six header bytes and the chunk (R104). -/
def mbusHead (m : MBusMessage) : Bytes :=
  m.src :: m.dst :: m.msgId :: m.fragIndex :: m.fragCount :: BitVec.ofNat 8 m.chunk.length :: m.chunk

/-- `MBUS_BUILD` (R174); the `crc` of the operand is ignored. -/
def mbusBuild (c : Cfg) (m : MBusMessage) : Except Stop Bytes :=
  if 255 < m.chunk.length then .error (.outside .mbusChunkTooLong) else .ok (mbusHead m ++ mbusCrc c (mbusHead m))

/-- `MBUS_PARSE` (R176): too short, length mismatch, CRC, in that order (R333). -/
def mbusParse (c : Cfg) (body : Bytes) : Except Err MBusMessage :=
  if body.length < 6 + c.mbusCrcLen then .error (.frameLength .mbus none body.length)
  else if (body.getD 5 0).toNat ≠ body.length - 6 - c.mbusCrcLen then
    .error (.frameLength .mbus (some (body.getD 5 0).toNat) (body.length - 6 - c.mbusCrcLen))
  else if mbusCrc c (body.take (body.length - c.mbusCrcLen)) ≠ body.drop (body.length - c.mbusCrcLen) then
    .error (.frameChecksum .mbus)
  else
    .ok { src := body.getD 0 0, dst := body.getD 1 0, msgId := body.getD 2 0, fragIndex := body.getD 3 0,
          fragCount := body.getD 4 0, chunk := (body.drop 6).take (body.getD 5 0).toNat,
          crc := body.drop (body.length - c.mbusCrcLen) }

/-- `ceil(n / mc)` (00_scope.md R11, R180). -/
def fragmentCount (n mc : Nat) : Nat := (n + mc - 1) / mc

/-- Fragment `i` of `n` of a payload cut every `mc` bytes (R180). -/
def fragmentAt (src dst msgId : Byte) (payload : Bytes) (mc n i : Nat) : MBusMessage :=
  messageOf src dst msgId (BitVec.ofNat 8 i) (BitVec.ofNat 8 n) ((payload.drop (i * mc)).take mc)

/-- `MBUS_FRAGMENT` (R180). -/
def mbusFragment (c : Cfg) (src dst msgId : Byte) (payload : Bytes) : Except Stop (List MBusMessage) :=
  if payload.length ≤ c.mbusMaxChunk then .ok [messageOf src dst msgId 0 1 payload]
  else if dst = c.mbusBcast then .error (.raised (.broadcastTooLarge payload.length c.mbusMaxChunk))
  else if c.mbusMaxFrags < fragmentCount payload.length c.mbusMaxChunk then .error (.outside .tooManyFragments)
  else
    .ok ((List.range (fragmentCount payload.length c.mbusMaxChunk)).map
      (fragmentAt src dst msgId payload c.mbusMaxChunk (fragmentCount payload.length c.mbusMaxChunk)))

/-- The numbering reassembly ignores whatever the table holds (R187): impossible, or a fragmented broadcast. -/
def badNumbering (c : Cfg) (m : MBusMessage) : Bool :=
  decide (m.fragCount = 0) || decide (m.fragCount.toNat ≤ m.fragIndex.toNat)
    || (decide (m.dst = c.mbusBcast) && decide (m.fragCount ≠ 1))

/-- The entry a message gives once its chunk is held: the held entry with the chunk added, or a new one whose deadline
is `now + reasm_timeout`; none when the message is ignored because of the entry (another count R187, a duplicate R188). -/
def entryWith (c : Cfg) (now : Nat) (m : MBusMessage) : Option ReasmEntry → Option ReasmEntry
  | some e =>
    if e.count ≠ m.fragCount.toNat then none
    else if (Table.lookup id m.fragIndex.toNat e.chunks).isSome then none
    else some { e with chunks := Table.insert id m.fragIndex.toNat m.chunk e.chunks }
  | none => some ⟨m.fragCount.toNat, [(m.fragIndex.toNat, m.chunk)], now + c.reasmTimeout⟩

/-- The payload of a full entry: its chunks in index order (R186, 20_memory.md R75). -/
def joinChunks (e : ReasmEntry) : Bytes := e.chunks.flatMap (fun x => x.2)

/-- `MBUS_REASSEMBLE` (R186): the completed message, or none for Incomplete, and the state after. -/
def reassemble (m : MBusMessage) (s : State) : Option MBusLogical × State :=
  if badNumbering s.cfg m then (none, s)
  else
    match entryWith s.cfg s.now m (Table.lookup Key.ord m.key s.reasm) with
    | none => (none, s)
    | some e =>
      if e.chunks.length = e.count then
        (some ⟨m.src, m.dst, m.msgId, joinChunks e⟩, s.setReasm (Table.erase Key.ord m.key s.reasm))
      else (none, s.setReasm (Table.insert Key.ord m.key e s.reasm))

/-- The event of a discarded entry (R190, R191): the key, the number of chunks held, the count. -/
def timeoutEvent (x : Key × ReasmEntry) : Event := .error (.reassemblyTimeout x.1 x.2.chunks.length x.2.count)

/-- `flush_reasm()` (R191): every entry discarded and reported, in ascending key order. -/
def flushReasm (s : State) : State := (s.pushEvt (s.reasm.map timeoutEvent)).setReasm []

/-- Whether an entry is due (R190). -/
def entryDue (now : Nat) (x : Key × ReasmEntry) : Bool := decide (x.2.deadline ≤ now)

/-- Expiry (R190): the due entries discarded and reported, in ascending key order. -/
def expireReasm (s : State) : State :=
  (s.pushEvt ((s.reasm.filter (entryDue s.now)).map timeoutEvent)).setReasm
    (s.reasm.filter (fun x => !entryDue s.now x))

/-- MBUS_BUILD (R174). -/
def execMbusBuild (src dst msgId fragIndex fragCount : Byte) (chunk : Bytes) (s : State) : Out :=
  answer ((mbusBuild s.cfg (messageOf src dst msgId fragIndex fragCount chunk)).map .bytes) s

/-- MBUS_PARSE (R176). -/
def execMbusParse (body : Bytes) (s : State) : Out := answerErr ((mbusParse s.cfg body).map .mbusMessage) s

/-- MBUS_FRAGMENT (R180). -/
def execMbusFragment (src dst msgId : Byte) (payload : Bytes) (s : State) : Out :=
  answer ((mbusFragment s.cfg src dst msgId payload).map .fragments) s

/-- What `MBUS_REASSEMBLE` returns (R186, R321). -/
def reasmResult : Option MBusLogical → Result
  | none => .incomplete
  | some x => .complete x

/-- MBUS_REASSEMBLE (R186). -/
def execMbusReassemble (src dst msgId fragIndex fragCount : Byte) (chunk : Bytes) (s : State) : Out :=
  let r := reassemble (messageOf src dst msgId fragIndex fragCount chunk) s
  reply (reasmResult r.1) r.2

end Sys2Proof.Machine
end

