-- ==== Sys2Proof/Machine/Power.lean ====
section
/-! DEFINITION. The power/rail state machine and the reset sequencer (spec 44_power_rail.md): SET_RAIL, RESET,
power_down, reset completion. -/

namespace Sys2Proof.Machine

/-- `power_down` for one channel whose governing rail has just gone OFF (R234): the record in the parser is poisoned, the
queued records are removed, a pending EIN_SEND fails (EIN), reassembly is flushed (MBUS). -/
def powerDownChannel (s : State) (c : Channel) : State :=
  let s1 := poisonRx s c
  let s2 := s1.setRxq (s1.rxq.filter (fun x => decide (x.1 ≠ c)))
  match c with
  | .goc => s2
  | .ein => if s2.wait = none then s2 else endWait s2 (.err (notEnergized s2 .ein))
  | .mbus => flushReasm s2

/-- `power_down(R)` (R234), channels in the order GOC, EIN, MBUS. -/
def powerDown (downs : List Nat) (s : State) : State :=
  [Channel.goc, Channel.ein, Channel.mbus].foldl
    (fun s c => if downs.contains (s.cfg.gov c) then powerDownChannel s c else s) s

/-- SET_RAIL (R236): the index, the reset in progress (R333), the write, then the power-down. -/
def execSetRail (rail : Nat) (st : RailState) (s : State) : Out :=
  if s.cfg.nrails ≤ rail then .refused (.railOutOfRange rail)
  else if s.rst.busy then raise .resetInProgress s
  else
    let s1 := writeRail s rail st
    reply .ok (if railAt s rail ≠ .off ∧ st = .off then powerDown [rail] s1 else s1)

/-- Write OFF to every rail of a list. -/
def railsOff (rails : List Nat) (s : State) : State := rails.foldl (fun s r => writeRail s r .off) s

/-- An accepted RESET (R240): the targets go OFF, what was in flight is invalidated, reassembly is flushed, the sequencer
starts. -/
def acceptReset (kind : ResetKind) (s : State) : State :=
  let targets := resetTargets s.cfg kind
  let restore := targets.map (fun r => (r, railAt s r))
  let downs := targets.filter (fun r => decide (railAt s r ≠ .off))
  let s1 := flushReasm (powerDown downs (railsOff targets s))
  startReset s1 (s1.now + s1.cfg.settleTicks) targets restore

/-- RESET (R240): split-phase; when it is accepted its result comes at completion, by `Res(RESET, OK)`. -/
def execReset (kind : ResetKind) (s : State) : Out :=
  if s.rst.busy then raise .resetInProgress s else .next (acceptReset kind s)

/-- `S.rail[r] <- S.rst.restore[r]` for the pairs of a map. -/
def restoreRails (pairs : List (Nat × RailState)) (s : State) : State :=
  pairs.foldl (fun s x => writeRail s x.1 x.2) s

/-- What completion writes back (R243): for each target the state `restore` holds for it, where it holds one (log entry
13). -/
def restorePairs (r : ResetSeq) : List (Nat × RailState) :=
  r.targets.filterMap (fun t => (r.restore.find? (fun x => x.1 == t)))

/-- Reset completion (R243), the first check of TICK. -/
def completeReset (s : State) : State :=
  if s.rst.busy = true ∧ s.rst.deadline ≤ s.now then
    (clearBusy (restoreRails (restorePairs s.rst) s)).pushRes [.reset]
  else s

end Sys2Proof.Machine
end

