-- ==== Sys2Proof/Machine/Clock.lean ====
section
/-! DEFINITION. The Clock's and the Recorder's steps (spec 60_exceptions.md R345, R328): TICK, REC_FAIL. -/

namespace Sys2Proof.Machine

/-- Response timeout (45_command_surface.md R267), the second check of TICK. -/
def expireWait (s : State) : State :=
  match s.wait with
  | none => s
  | some w => if w.deadline ≤ s.now then endWait s (.err (.responseTimeout w.addr)) else s

/-- TICK (R345): the counter, then reset completion, response timeout and reassembly expiry, in that order (R334). -/
def tick (s : State) : State := expireReasm (expireWait (completeReset (s.setNow (s.now + 1))))

/-- TICK (R345): always enabled. -/
def execTick (s : State) : Out := .next (tick s)

/-- REC_FAIL (R328): the recorder reports a failure; nothing but the flag changes. -/
def execRecFail (s : State) : Out := .next (setRecFailFlag s)

end Sys2Proof.Machine
end

