-- ==== Sys2Proof/Machine/Ein.lean ====
section
/-! DEFINITION. The EIN framer (spec 41_ein_framer.md, 30_encoding.md R102, R103): EIN_BUILD, EIN_PARSE. -/

namespace Sys2Proof.Machine

/-- The bytes the checksum covers: dest, opcode, len, payload (R102). -/
def einHead (dest opcode : Byte) (payload : Bytes) : Bytes :=
  dest :: opcode :: BitVec.ofNat 8 payload.length :: payload

/-- `EIN_BUILD` (R152). -/
def einBuild (c : Cfg) (dest opcode : Byte) (payload : Bytes) : Except Stop Bytes :=
  if c.einMaxPayload < payload.length then .error (.outside .einPayloadTooLong)
  else .ok (einHead dest opcode payload ++ einCk c (einHead dest opcode payload))

/-- `EIN_PARSE` (R155): too short, length mismatch, checksum, in that order (R333). -/
def einParse (c : Cfg) (body : Bytes) : Except Err EinFrame :=
  if body.length < 3 + c.einCkLen then .error (.frameLength .ein none body.length)
  else if (body.getD 2 0).toNat ≠ body.length - 3 - c.einCkLen then
    .error (.frameLength .ein (some (body.getD 2 0).toNat) (body.length - 3 - c.einCkLen))
  else if einCk c (body.take (body.length - c.einCkLen)) ≠ body.drop (body.length - c.einCkLen) then
    .error (.frameChecksum .ein)
  else
    .ok { dest := body.getD 0 0, opcode := body.getD 1 0, payload := (body.drop 3).take (body.getD 2 0).toNat,
          checksum := body.drop (body.length - c.einCkLen) }

/-- EIN_BUILD (R152). -/
def execEinBuild (dest opcode : Byte) (payload : Bytes) (s : State) : Out :=
  answer ((einBuild s.cfg dest opcode payload).map .bytes) s

/-- EIN_PARSE (R155). -/
def execEinParse (body : Bytes) (s : State) : Out := answerErr ((einParse s.cfg body).map .einFrame) s

end Sys2Proof.Machine
end

