-- ==== Sys2Proof/Machine/Goc.lean ====
section
/-! DEFINITION. The GOC pulse-width codec (spec 40_goc_codec.md, 30_encoding.md R92 to R96, R106): GOC_ENCODE,
GOC_DECODE, GOC_SER, GOC_DESER. -/

namespace Sys2Proof.Machine

/-- The four pulse symbols and the gap (30_encoding.md R93). -/
inductive Symbol where
  | short
  | long
  | start
  | stop
  | gap
  deriving DecidableEq, Repr

/-- Nominal duration of a symbol (R93). -/
def nominal (c : Cfg) : Symbol → Nat
  | .short => c.tShort
  | .long => c.tLong
  | .start => c.tStart
  | .stop => c.tStop
  | .gap => c.tGap

/-- Half-width of a symbol's window (R93). -/
def tolerance (c : Cfg) : Symbol → Nat
  | .short => c.tolShort
  | .long => c.tolLong
  | .start => c.tolStart
  | .stop => c.tolStop
  | .gap => c.tolGap

/-- `in_window(d, s)` (R131): the closed interval; the low end is 0 when the tolerance exceeds the nominal. -/
def inWindow (c : Cfg) (d : Nat) (s : Symbol) : Bool :=
  decide (nominal c s - tolerance c s ≤ d) && decide (d ≤ nominal c s + tolerance c s)

/-- `pulse_class(d)` (R131): the pulse symbols whose window holds `d`. -/
def pulseClass (c : Cfg) (d : Nat) : List Symbol :=
  [Symbol.short, Symbol.long, Symbol.start, Symbol.stop].filter (inWindow c d)

/-- The symbol of a bit (R93): 1 is LONG, 0 is SHORT. -/
def bitSymbol (b : Bit) : Symbol := if b then .long else .short

/-- The symbols of the train of a bit sequence (R94): pulses at even places, gaps at odd ones. -/
def trainSymbols (bits : List Bit) : List Symbol :=
  Symbol.start :: Symbol.gap :: bits.flatMap (fun b => [bitSymbol b, .gap]) ++ [.stop]

/-- A symbol's edge (R93). -/
def symbolEdge : Symbol → Edge
  | .gap => .fall
  | _ => .rise

/-- Events of the given edges and durations back to back from time `t` (R95). -/
def timed : Nat → List (Edge × Nat) → List PulseEvent
  | _, [] => []
  | t, (e, d) :: rest => ⟨t, e, d⟩ :: timed (t + d) rest

/-- The train `GOC_ENCODE` gives (R94, R95, R132). -/
def trainOf (c : Cfg) (bits : List Bit) : List PulseEvent :=
  timed 0 ((trainSymbols bits).map (fun x => (symbolEdge x, nominal c x)))

/-- `GOC_ENCODE` (R132). -/
def gocEncode (c : Cfg) (bits : List Bit) : Except Stop (List PulseEvent) :=
  if c.gocMaxBits < bits.length then .error (.outside .gocTooManyBits) else .ok (trainOf c bits)

/-- The edge event `k` must have (R135). -/
def expectedEdge (k : Nat) : Edge := if k % 2 = 0 then .rise else .fall

/-- The loop of `GOC_DECODE` from event `k` (R135): `prev` is the time of event `k-1` (0 before the first), `fin` is
`done`. The checks stand in the order of R135 and R333. -/
def decodeFrom (c : Cfg) : List PulseEvent → Nat → Nat → Bool → List Bit → Except Err (List Bit)
  | [], k, _, fin, bits => if fin then .ok bits else .error (.timingViolation .truncated k)
  | e :: rest, k, prev, fin, bits =>
    if e.t < prev then .error (.timingViolation .malformed k)
    else if e.edge ≠ expectedEdge k then .error (.timingViolation .malformed k)
    else if fin then .error (.timingViolation .trailing k)
    else if k % 2 = 1 then
      if inWindow c e.dur .gap then decodeFrom c rest (k + 1) e.t fin bits
      else .error (.timingViolation .outOfBand k)
    else
      match pulseClass c e.dur with
      | [] => .error (.timingViolation .outOfBand k)
      | _ :: _ :: _ => .error (.timingViolation .ambiguous k)
      | [x] =>
        if k = 0 then
          if x = .start then decodeFrom c rest (k + 1) e.t fin bits
          else .error (.timingViolation .unexpectedSymbol k)
        else
          match x with
          | .short => decodeFrom c rest (k + 1) e.t fin (bits ++ [false])
          | .long => decodeFrom c rest (k + 1) e.t fin (bits ++ [true])
          | .stop => decodeFrom c rest (k + 1) e.t true bits
          | _ => .error (.timingViolation .unexpectedSymbol k)

/-- `GOC_DECODE` (R135). The empty sequence is TRUNCATED at index 0, as the loop gives it. -/
def gocDecode (c : Cfg) (events : List PulseEvent) : Except Err (List Bit) := decodeFrom c events 0 0 false []

/-- One pulse word (R96). -/
def pulseWordBytes (edge : Edge) (dur : Nat) : Bytes := encodeEdge edge :: be24 dur

/-- `GOC_SER` (R137): pulse words back to back; a duration of 2^24 or more has no wire form. -/
def gocSer : List PulseEvent → Except Stop Bytes
  | [] => .ok []
  | e :: rest =>
    if 2 ^ 24 ≤ e.dur then .error (.outside .durationTooLong)
    else
      match gocSer rest with
      | .error st => .error st
      | .ok body => .ok (pulseWordBytes e.edge e.dur ++ body)

/-- The loop of `GOC_DESER` at time `t` (R138); none is NOT_GOC. -/
def deserFrom : Nat → Bytes → Option (List PulseEvent)
  | _, [] => some []
  | t, w0 :: w1 :: w2 :: w3 :: rest =>
    if 1 < w0.toNat then none
    else
      let d := ofBe [w1, w2, w3]
      match deserFrom (t + d) rest with
      | none => none
      | some es => some (⟨t, if w0 = 1 then .rise else .fall, d⟩ :: es)
  | _, _ => none

/-- `GOC_DESER` (R138). A length that is no multiple of 4 leaves one to three bytes at the end, which is NOT_GOC. -/
def gocDeser (body : Bytes) : Option (List PulseEvent) := deserFrom 0 body

/-- GOC_ENCODE (R132). -/
def execGocEncode (bits : List Bit) (s : State) : Out := answer ((gocEncode s.cfg bits).map .events) s

/-- GOC_DECODE (R135). -/
def execGocDecode (events : List PulseEvent) (s : State) : Out := answerErr ((gocDecode s.cfg events).map .bits) s

/-- GOC_SER (R137). -/
def execGocSer (events : List PulseEvent) (s : State) : Out := answer ((gocSer events).map .bytes) s

/-- GOC_DESER (R138). NOT_GOC is a result, not an error, and the caller of this operation gets it, as R138 and the vectors
V-G27 and V-G28 say, against the "never seen by a client" of 60_exceptions.md R321: DESIGN CHOICE, log entry 23. No other
operation answers it. -/
def execGocDeser (body : Bytes) (s : State) : Out :=
  match gocDeser body with
  | none => reply .notGoc s
  | some es => reply (.events es) s

end Sys2Proof.Machine
end

