-- ==== Sys2Proof/Machine/Mux.lean ====
section
/-! DEFINITION. The transport multiplexer and demultiplexer (spec 43_transport_mux.md): MUX_SEND, MUX_RECEIVE, RX_BYTE,
DISPATCH. -/

namespace Sys2Proof.Machine

/-- An operation whose effect is a state or an early stop, and which returns `r` (R330). -/
def settle (r : Result) (x : Except Stop State) (s : State) : Out :=
  match x with
  | .ok s' => reply r s'
  | .error st => stopWith st s

/-- MUX_SEND (R202). -/
def execMuxSend (chan : Channel) (body : Bytes) (s : State) : Out := settle .ok (muxWrite chan body s) s

/-- MUX_RECEIVE (R214). -/
def execMuxReceive (s : State) : Out :=
  match s.rxq with
  | [] => reply .empty s
  | (c, body) :: rest => reply (.unit c body) (s.setRxq rest)

/-- Whether a complete record is GOC by preamble but not by structure (R209). -/
def notGocRecord (rx : RxParser) : Bool := decide (rx.chan = .goc) && (gocDeser rx.buf).isNone

/-- `complete()` (R206, R208 to R210): the whole record is observed once; it is queued only if it is recognised, not
poisoned and decodable; the parser returns to the record boundary. -/
def completeRecord (s : State) : State :=
  let s1 :=
    if notGocRecord s.rx then observe s .rx .unrec s.rx.raw
    else
      let s0 := observe s .rx (.chan s.rx.chan) s.rx.raw
      if s.rx.poisoned = false ∧ decodable s s.rx.chan = true then s0.setRxq (s0.rxq ++ [(s.rx.chan, s.rx.buf)]) else s0
  s1.setRx { s.rx with phase := .idle, buf := [], raw := [], poisoned := false }

/-- `RX_BYTE` (R206, R207): one byte enters the demultiplexer. -/
def rxByte (b : Byte) (s0 : State) : State :=
  let s := s0.pushRxDone [b]
  match s.rx.phase with
  | .idle =>
    match channelOfPreamble s.cfg b with
    | some c => s.setRx { phase := .lenHi, chan := c, len := 0, buf := [], raw := [b], poisoned := !decodable s c }
    | none => observe s .rx .unrec [b]
  | .lenHi => s.setRx { s.rx with phase := .lenLo, len := b.toNat * 256, raw := s.rx.raw ++ [b] }
  | .lenLo =>
    let s1 := s.setRx { s.rx with phase := .body, len := s.rx.len + b.toNat, raw := s.rx.raw ++ [b] }
    if s1.rx.len = 0 then completeRecord s1 else s1
  | .body =>
    let s1 := s.setRx { s.rx with buf := s.rx.buf ++ [b], raw := s.rx.raw ++ [b] }
    if s1.rx.buf.length = s1.rx.len then completeRecord s1 else s1

/-- RX_BYTE (R206): total, never fails. -/
def execRxByte (b : Byte) (s : State) : Out := .next (rxByte b s)

/-- `dispatch_goc` (R216). A body in the queue has GOC structure (R209); were it none, nothing would be said (log entry
13). -/
def dispatchGoc (body : Bytes) (s : State) : State :=
  match gocDeser body with
  | none => s
  | some events =>
    match gocDecode s.cfg events with
    | .ok bits => s.pushEvt [.gocBits bits]
    | .error e => s.pushEvt [.error e]

/-- `dispatch_ein` (R217). A record that was queued before the EIN_SEND and is dispatched after it can end the wait (log
entry 22). -/
def dispatchEin (body : Bytes) (s : State) : State :=
  match einParse s.cfg body, s.wait with
  | .error e, some _ => endWait s (.err e)
  | .error e, none => s.pushEvt [.error e]
  | .ok f, some w => if f.dest = w.addr then endWait s (.frame f) else s.pushEvt [.einFrame f]
  | .ok f, none => s.pushEvt [.einFrame f]

/-- `dispatch_mbus` (R218). -/
def dispatchMbus (body : Bytes) (s : State) : State :=
  match mbusParse s.cfg body with
  | .error e => s.pushEvt [.error e]
  | .ok m =>
    match reassemble m s with
    | (some x, s') => s'.pushEvt [.mbusMessage x]
    | (none, s') => s'

/-- Give a unit to the matching framer (R215). -/
def dispatchUnit (c : Channel) (body : Bytes) (s : State) : State :=
  match c with
  | .goc => dispatchGoc body s
  | .ein => dispatchEin body s
  | .mbus => dispatchMbus body s

/-- DISPATCH (R215). It is enabled only when the queue is not empty; with an empty queue the Dispatcher takes no step and
nothing changes (log entry 4). -/
def execDispatch (s : State) : Out :=
  match s.rxq with
  | [] => .next s
  | (c, body) :: rest => .next (dispatchUnit c body (s.setRxq rest))

end Sys2Proof.Machine
end

