-- ==== Sys2Proof/Machine/Command.lean ====
section
/-! DEFINITION. The command surface (spec 45_command_surface.md): GOC_SEND, EIN_SEND, MBUS_SEND, CANCEL and the snoop
operations. The gate comes first in every send (R261). -/

namespace Sys2Proof.Machine

/-- GOC_ENCODE, then GOC_SER (30_encoding.md R123). -/
def gocBody (c : Cfg) (bits : List Bit) : Except Stop Bytes :=
  match gocEncode c bits with
  | .error st => .error st
  | .ok events => gocSer events

/-- Build a body, then write it (R262, R265). -/
def buildAndWrite (c : Channel) (build : Except Stop Bytes) (s : State) : Except Stop State :=
  if decodable s c = false then .error (.raised (notEnergized s c))
  else
    match build with
    | .error st => .error st
    | .ok body => muxWrite c body s

/-- GOC_SEND (R262). -/
def execGocSend (bits : List Bit) (s : State) : Out := settle .ok (buildAndWrite .goc (gocBody s.cfg bits) s) s

/-- EIN_SEND (R265). While a wait is pending the call is held (R266): it joins `held` and nothing else changes. Its result
comes later, by `Res(EIN_SEND, _)`. Records already in the queue stay there (log entry 22). -/
def execEinSend (addr opcode : Byte) (payload : Bytes) (s : State) : Out :=
  if s.wait.isSome then .next (s.setHeld (s.held ++ [⟨addr, opcode, payload⟩]))
  else
    match buildAndWrite .ein (einBuild s.cfg addr opcode payload) s with
    | .error st => stopWith st s
    | .ok s' => .next (s'.setWait (some ⟨addr, s'.now + s'.cfg.respTimeout⟩))

/-- The fragments of one message, built and written in index order (R270). -/
def sendFragments : List MBusMessage → State → Except Stop State
  | [], s => .ok s
  | m :: rest, s =>
    match mbusBuild s.cfg m with
    | .error st => .error st
    | .ok body =>
      match muxWrite .mbus body s with
      | .error st => .error st
      | .ok s' => sendFragments rest s'

/-- MBUS_SEND (R270): the gate, the fragments, the writes, the counter; one atomic step. -/
def execMbusSend (src dst : Byte) (payload : Bytes) (s : State) : Out :=
  if decodable s .mbus = false then raise (notEnergized s .mbus) s
  else
    match mbusFragment s.cfg src dst s.mbusNextId payload with
    | .error st => stopWith st s
    | .ok frags =>
      match sendFragments frags s with
      | .error st => stopWith st s
      | .ok s' => reply (.sent s.mbusNextId frags.length) (s'.setNextId (s.mbusNextId + 1))

/-- CANCEL (R268). -/
def execCancel (s : State) : Out := reply .ok (if s.wait = none then s else endWait s .cancelled)

/-- A snoop operation (R275): forwarded to the recorder; it returns what the recorder returns, a free value (log entry
9). -/
def forwardSnoop (q : SnoopRequest) (s : State) : Out :=
  reply (.fromRecorder (Config.recorderAnswer s.freeCount)) ((s.pushSnoop [q]).setFreeCount (s.freeCount + 1))

/-- SNOOP_START (R275). -/
def execSnoopStart (s : State) : Out := forwardSnoop .start s

/-- SNOOP_STOP (R275). -/
def execSnoopStop (s : State) : Out := forwardSnoop .stop s

/-- SNOOP_EXPORT (R275). -/
def execSnoopExport (s : State) : Out := forwardSnoop .exportTrace s

end Sys2Proof.Machine
end

