-- ==== Sys2Proof/Machine/Wire.lean ====
section
/-! DEFINITION. The wire-format rows (spec 30_encoding.md R90): what the transport peer does with a unit of that format.
The peer "supplies the bytes RX_BYTE consumes" (00_scope.md R14): the unit's bytes join the unread bytes of `RX`, in order
(20_memory.md R60). What the block makes of them is RX_BYTE's (43_transport_mux.md R206). DESIGN CHOICE, log entry 7. -/

namespace Sys2Proof.Machine

/-- The transport peer sends bytes (R60, 46_environment_boundary.md R290). -/
def peerSend (bs : Bytes) (s : State) : State := s.setRxIn (s.rxIn ++ bs)

/-- RECORD (R100). A body longer than 65535 bytes has no record. -/
def execRecord (pre : Byte) (body : Bytes) (s : State) : Out :=
  if 65535 < body.length then .refused .bodyTooLong else .next (peerSend (recordBytes pre body) s)

/-- PULSE_WORD (R96). A duration of 2^24 or more has no pulse word. -/
def execPulseWord (edge : Edge) (dur : Nat) (s : State) : Out :=
  if 2 ^ 24 ≤ dur then .refused .durationTooLong else .next (peerSend (pulseWordBytes edge dur) s)

/-- EIN_BODY (R102). More than 255 payload bytes have no length byte. -/
def execEinBody (dest opcode : Byte) (payload checksum : Bytes) (s : State) : Out :=
  if 255 < payload.length then .refused .einPayloadTooLong
  else .next (peerSend (dest :: opcode :: BitVec.ofNat 8 payload.length :: payload ++ checksum) s)

/-- MBUS_BODY (R104). More than 255 chunk bytes have no length byte. -/
def execMbusBody (src dst msgId fragIndex fragCount : Byte) (chunk crc : Bytes) (s : State) : Out :=
  if 255 < chunk.length then .refused .mbusChunkTooLong
  else
    .next (peerSend
      (src :: dst :: msgId :: fragIndex :: fragCount :: BitVec.ofNat 8 chunk.length :: chunk ++ crc) s)

end Sys2Proof.Machine
end

