-- ==== Sys2Proof/Machine/Dispatch.lean ====
section
/-! DEFINITION. One arm per constructor of Instr, each one direct call of its meaning. -/

namespace Sys2Proof.Machine

def exec (i : Instr) (s : State) : Host.Outcome State Fault Refusal :=
  match i with
  | .gocEncode bits => Sys2Proof.Machine.execGocEncode bits s
  | .gocDecode events => Sys2Proof.Machine.execGocDecode events s
  | .gocSer events => Sys2Proof.Machine.execGocSer events s
  | .gocDeser body => Sys2Proof.Machine.execGocDeser body s
  | .einBuild dest opcode payload => Sys2Proof.Machine.execEinBuild dest opcode payload s
  | .einParse body => Sys2Proof.Machine.execEinParse body s
  | .mbusBuild src dst mid idx cnt chunk => Sys2Proof.Machine.execMbusBuild src dst mid idx cnt chunk s
  | .mbusParse body => Sys2Proof.Machine.execMbusParse body s
  | .mbusFragment src dst mid payload => Sys2Proof.Machine.execMbusFragment src dst mid payload s
  | .mbusReassemble src dst mid idx cnt chunk => Sys2Proof.Machine.execMbusReassemble src dst mid idx cnt chunk s
  | .muxSend chan body => Sys2Proof.Machine.execMuxSend chan body s
  | .muxReceive => Sys2Proof.Machine.execMuxReceive s
  | .setRail rail st => Sys2Proof.Machine.execSetRail rail st s
  | .reset kind => Sys2Proof.Machine.execReset kind s
  | .gocSend bits => Sys2Proof.Machine.execGocSend bits s
  | .einSend addr opcode payload => Sys2Proof.Machine.execEinSend addr opcode payload s
  | .mbusSend src dst payload => Sys2Proof.Machine.execMbusSend src dst payload s
  | .cancel => Sys2Proof.Machine.execCancel s
  | .snoopStart => Sys2Proof.Machine.execSnoopStart s
  | .snoopStop => Sys2Proof.Machine.execSnoopStop s
  | .snoopExport => Sys2Proof.Machine.execSnoopExport s
  | .rxByte b => Sys2Proof.Machine.execRxByte b s
  | .dispatch => Sys2Proof.Machine.execDispatch s
  | .tick => Sys2Proof.Machine.execTick s
  | .recFail => Sys2Proof.Machine.execRecFail s
  | .record pre body => Sys2Proof.Machine.execRecord pre body s
  | .pulseWord edge dur => Sys2Proof.Machine.execPulseWord edge dur s
  | .einBody dest opcode payload checksum => Sys2Proof.Machine.execEinBody dest opcode payload checksum s
  | .mbusBody src dst mid idx cnt chunk crc => Sys2Proof.Machine.execMbusBody src dst mid idx cnt chunk crc s

end Sys2Proof.Machine
end

