-- ==== Sys2Proof/Machine/Fetch.lean ====
section
/-! DEFINITION. Whose step is next and what it takes (spec 00_scope.md R14). The block has no program counter (10_state.md
R50); the schedule `turns` says which agent moves, and the agent takes its bytes: a call from the command port, a wire
unit from the transport peer, a byte of `RX` (log entries 3, 4, 15). -/

namespace Sys2Proof.Machine

/-- What the next step is: an instruction to run, a turn that passes because the agent's step is not enabled, or bytes
that are no instruction. -/
inductive Fetched where
  | run (i : Instr) (s : State)
  | idle (s : State)
  | refuse (r : Refusal)
  deriving DecidableEq, Repr

/-- The bytes an agent takes its input from: the command port and the peer's units from `inp`, the Reader from `RX`. -/
def State.source (s : State) : Turn → Bytes
  | .client => s.inp
  | .peer _ => s.inp
  | .reader => s.rxIn
  | .resume => []
  | .dispatcher => []
  | .clock => []
  | .recorder => []

/-- The state after an agent has taken its input and left `rest` (20_memory.md R63: reading consumes). -/
def State.consume (s : State) (t : Turn) (rest : Bytes) : State :=
  match t with
  | .client => s.setInp rest
  | .peer _ => s.setInp rest
  | .reader => s.setRxIn rest
  | .resume => s
  | .dispatcher => s
  | .clock => s
  | .recorder => s

/-- Whether an agent's step takes bytes, and so is not enabled without any (R63). -/
def takesBytes : Turn → Bool
  | .client => true
  | .peer _ => true
  | .reader => true
  | .resume => false
  | .dispatcher => false
  | .clock => false
  | .recorder => false

/-- The step of a turn that decodes its input: a turn without bytes passes (log entry 4), and bytes that end too soon are
refused (log entry 21). -/
def fetchTurn (t : Turn) (s : State) : Fetched :=
  if takesBytes t = true ∧ s.source t = [] then .idle s
  else
    match decode s.cfg t (s.source t) with
    | .error e => .refuse (.notAnOperation e)
    | .ok (i, rest) => .run i (s.consume t rest)

/-- The oldest held EIN_SEND, once no wait is pending (45_command_surface.md R266). -/
def fetchHeld (s : State) : Fetched :=
  match s.held with
  | [] => .idle s
  | h :: rest => if s.wait = none then .run (.einSend h.addr h.opcode h.payload) (s.setHeld rest) else .idle s

/-- The next step: the first turn of the schedule; with nothing scheduled only time passes, a TICK (60_exceptions.md R345
"always enabled"; log entry 3). -/
def fetch (s : State) : Fetched :=
  match s.turns with
  | [] => .run .tick s
  | t :: ts =>
    match t with
    | .resume => fetchHeld (s.setTurns ts)
    | .client => fetchTurn .client (s.setTurns ts)
    | .peer f => fetchTurn (.peer f) (s.setTurns ts)
    | .reader => fetchTurn .reader (s.setTurns ts)
    | .dispatcher => fetchTurn .dispatcher (s.setTurns ts)
    | .clock => fetchTurn .clock (s.setTurns ts)
    | .recorder => fetchTurn .recorder (s.setTurns ts)

/-- The bytes of a table word's instruction alone, without the zero bytes it does not need. -/
def tableCall (c : Cfg) (nbits w : Nat) : Bytes :=
  match decode c (tableTurn nbits) (tableInput nbits w) with
  | .ok (_, rest) => (tableInput nbits w).take ((tableInput nbits w).length - rest.length)
  | .error _ => tableInput nbits w

end Sys2Proof.Machine
end

