-- ==== Sys2Proof/Machine/Step.lean ====
section
/-! DEFINITION. One step of the machine: the agent whose turn it is takes its input and its step (spec 00_scope.md R14). -/

namespace Sys2Proof.Machine

/-- One atomic step (R14). -/
def step (s : State) : Host.Outcome State Fault Refusal :=
  match fetch s with
  | .run i s' => exec i s'
  | .idle s' => .next s'
  | .refuse r => .refused r

/-- The state whose very next step runs a word of spec/opcode_table.json: its turn is put first in the schedule and its
bytes first in the input, ahead of what stands there (log entry 15). -/
def State.withFetchWord (s : State) (nbits w : Nat) : State :=
  (s.setTurns (tableTurn nbits :: s.turns)).setInp (tableCall s.cfg nbits w ++ s.inp)

end Sys2Proof.Machine
end

