-- ==== Sys2Proof/Safety.lean ====
section
/-! DEFINITION. What counts as a safe state, in the terms the statements use: the invariants every step keeps, the
domain of every instruction, and runs of several instructions. -/

namespace Sys2Proof.Machine

/-- Instructions one after the other, stopping at the first that has no next state. -/
def execAll : List Instr → State → Host.Outcome State Fault Refusal
  | [], s => .next s
  | i :: rest, s =>
    match exec i s with
    | .next t => execAll rest t
    | .fault r => .fault r
    | .refused r => .refused r

/-- The bytes of the observations of one direction, in order (43_transport_mux.md R221). -/
def observedBytes (d : Dir) (l : List Observation) : Bytes :=
  (l.filter (fun o => decide (o.dir = d))).flatMap (fun o => o.bytes)

/-- R221: nothing is lost to the recorder. What the recorder saw of RX, then the record in progress, is every byte given
to `RX_BYTE`; what it saw of TX is TX. At a record boundary no record is in progress. -/
def RecorderInv (s : State) : Prop :=
  observedBytes .rx s.recLog ++ s.rx.raw = s.rxDone ∧ observedBytes .tx s.recLog = s.tx
    ∧ (s.rx.phase = .idle → s.rx.raw = [])

/-- The rails: one register per rail (10_state.md R22); while a reset settles its targets are OFF and `restore` holds
exactly the targets (44_power_rail.md R240, R244). -/
def RailsInv (s : State) : Prop :=
  s.rail.length = s.cfg.nrails
    ∧ (s.rst.busy = true →
        (∀ r ∈ s.rst.targets, railAt s r = .off) ∧ s.rst.restore.map Prod.fst = s.rst.targets ∧ s.rst.targets.Nodup)

/-- A record in progress on a channel that is not decodable is poisoned (43_transport_mux.md R210). -/
def GateInv (s : State) : Prop := s.rx.poisoned = false → decodable s s.rx.chan = true

/-- The receive parser holds exactly the bytes of one record so far (10_state.md R29, 43_transport_mux.md R206). -/
def ParserInv (s : State) : Prop :=
  match s.rx.phase with
  | .idle => s.rx.buf = [] ∧ s.rx.raw = [] ∧ s.rx.poisoned = false
  | .lenHi => s.rx.buf = [] ∧ s.rx.raw = [preamble s.cfg s.rx.chan] ∧ GateInv s
  | .lenLo =>
    s.rx.buf = [] ∧ (∃ hi : Byte, s.rx.raw = [preamble s.cfg s.rx.chan, hi] ∧ s.rx.len = hi.toNat * 256) ∧ GateInv s
  | .body =>
    s.rx.raw = preamble s.cfg s.rx.chan :: be16 s.rx.len ++ s.rx.buf ∧ s.rx.buf.length < s.rx.len ∧ s.rx.len < 65536
      ∧ GateInv s

/-- The receiver: the parser, and only decodable, well-structured units in the queue and only a decodable EIN channel
while a wait is pending (43_transport_mux.md R209, R210; 44_power_rail.md R234). -/
def ReceiverInv (s : State) : Prop :=
  ParserInv s
    ∧ (∀ x ∈ s.rxq, decodable s x.1 = true ∧ x.2.length < 65536 ∧ (x.1 = .goc → (gocDeser x.2).isSome = true))
    ∧ (s.wait.isSome = true → decodable s .ein = true)

/-- An entry of the reassembly table: 2 to 255 fragments, at least one held, never all, every index below the count, in
canonical form, and never a broadcast (10_state.md R33, 42_mbus_framer.md R186, R187). -/
def EntryInv (c : Cfg) (x : Key × ReasmEntry) : Prop :=
  2 ≤ x.2.count ∧ x.2.count ≤ 255 ∧ x.2.chunks ≠ [] ∧ x.2.chunks.length < x.2.count
    ∧ (∀ y ∈ x.2.chunks, y.1 < x.2.count) ∧ Table.wf id x.2.chunks ∧ x.1.dst ≠ c.mbusBcast

/-- The reassembly table: canonical form, every entry as it should be. -/
def ReasmInv (s : State) : Prop := Table.wf Key.ord s.reasm ∧ ∀ x ∈ s.reasm, EntryInv s.cfg x

/-- No deadline is passed over and none lies further ahead than its timer (60_exceptions.md R342): a deadline not in the
future is there only if its timer is 0 and no tick has come yet. -/
def DeadlinesInv (s : State) : Prop :=
  (s.rst.busy = true → s.rst.deadline ≤ s.now + s.cfg.settleTicks ∧ (s.now < s.rst.deadline ∨ s.cfg.settleTicks = 0))
    ∧ (∀ w, s.wait = some w → w.deadline ≤ s.now + s.cfg.respTimeout ∧ (s.now < w.deadline ∨ s.cfg.respTimeout = 0))
    ∧ (∀ x ∈ s.reasm,
        x.2.deadline ≤ s.now + s.cfg.reasmTimeout ∧ (s.now < x.2.deadline ∨ s.cfg.reasmTimeout = 0))

/-- `UnrecognizedTraffic` and `RecorderWriteFailure` are never returned and never put on EVT (60_exceptions.md R320). -/
def Err.reportable : Err → Bool
  | .unrecognizedTraffic _ => false
  | .recorderWriteFailure => false
  | _ => true

/-- Every error that has left the block is one a caller may see. -/
def ErrorsInv (s : State) : Prop :=
  (∀ e, Result.err e ∈ s.ret → e.reportable = true) ∧ (∀ e, Event.error e ∈ s.evt → e.reportable = true)
    ∧ (∀ e, LateResult.einSend (.err e) ∈ s.res → e.reportable = true)

/-- How many results of EIN_SEND are on RES. -/
def einResults (s : State) : Nat := (s.res.filter (fun r => decide (r ≠ .reset))).length

/-- How many waits are pending: none or one (10_state.md R36). -/
def pendingWaits (s : State) : Nat := if s.wait.isSome then 1 else 0

/-- How many results of RESET are on RES. -/
def resetResults (s : State) : Nat := (s.res.filter (fun r => decide (r = .reset))).length

/-- How many resets are settling: none or one (10_state.md R25). -/
def pendingResets (s : State) : Nat := if s.rst.busy then 1 else 0

/-- The nine pure operations (00_scope.md R14). -/
def isPureInstr : Instr → Bool
  | .gocEncode _ | .gocDecode _ | .gocSer _ | .gocDeser _ | .einBuild _ _ _ | .einParse _ | .mbusBuild _ _ _ _ _ _
  | .mbusParse _ | .mbusFragment _ _ _ _ => true
  | _ => false

/-- Whether a payload fits the fragments it may have; a broadcast that does not is an error, not a refusal (R180). -/
def fragmentsFit (c : Cfg) (dst : Byte) (payload : Bytes) : Prop :=
  dst = c.mbusBcast ∨ payload.length ≤ c.mbusMaxFrags * c.mbusMaxChunk

/-- The domain of an instruction: the inputs that 93_implementation_defined.md U1 to U5 do not take out. The gate of a
send comes before its operands (45_command_surface.md R261), and a held call is not looked at (R266, log entry 5). For a
wire-format row, the units that have an encoding (log entry 7). -/
def inDomain (s : State) : Instr → Prop
  | .gocEncode bits => bits.length ≤ s.cfg.gocMaxBits
  | .gocDecode _ => True
  | .gocSer events => ∀ e ∈ events, e.dur < 2 ^ 24
  | .gocDeser _ => True
  | .einBuild _ _ payload => payload.length ≤ s.cfg.einMaxPayload
  | .einParse _ => True
  | .mbusBuild _ _ _ _ _ chunk => chunk.length ≤ 255
  | .mbusParse _ => True
  | .mbusFragment _ dst _ payload => fragmentsFit s.cfg dst payload
  | .mbusReassemble _ _ _ _ _ _ => True
  | .muxSend chan body => railAt s (s.cfg.gov chan) = .off ∨ body.length ≤ 65535
  | .muxReceive => True
  | .setRail rail _ => rail < s.cfg.nrails
  | .reset _ => True
  | .gocSend bits => railAt s (s.cfg.gov .goc) = .off ∨ bits.length ≤ s.cfg.gocMaxBits
  | .einSend _ _ payload =>
    s.wait.isSome = true ∨ railAt s (s.cfg.gov .ein) = .off
      ∨ payload.length ≤ s.cfg.einMaxPayload ∧ 3 + payload.length + s.cfg.einCkLen ≤ 65535
  | .mbusSend _ dst payload => railAt s (s.cfg.gov .mbus) = .off ∨ fragmentsFit s.cfg dst payload
  | .cancel => True
  | .snoopStart => True
  | .snoopStop => True
  | .snoopExport => True
  | .rxByte _ => True
  | .dispatch => True
  | .tick => True
  | .recFail => True
  | .record _ body => body.length ≤ 65535
  | .pulseWord _ dur => dur < 2 ^ 24
  | .einBody _ _ payload _ => payload.length ≤ 255
  | .mbusBody _ _ _ _ _ chunk _ => chunk.length ≤ 255

/-- An event that is a symbol's alone (R131, R134): it has its edge, and its duration is in the gap's window for a gap, in
the window of that pulse symbol and of no other for a pulse. -/
def AloneIn (c : Cfg) (x : Symbol) (e : PulseEvent) : Prop :=
  e.edge = symbolEdge x ∧ if x = .gap then inWindow c e.dur .gap = true else pulseClass c e.dur = [x]

/-- The fragment as an operand of MBUS_REASSEMBLE. -/
def reassembleInstr (m : MBusMessage) : Instr :=
  .mbusReassemble m.src m.dst m.msgId m.fragIndex m.fragCount m.chunk

end Sys2Proof.Machine
end

