-- ==== Sys2Proof/Certificates/Slice0/Obligations.lean ====
section
/-! DEFINITION. The statements for the provers. Each docstring names the rule of spec/ it formalises. A next state is
written as the old state with the named updates of Sys2Proof/Machine/Updates.lean applied (setX writes a field, pushX
appends to a log); every field no update names is unchanged, so an equation is also the frame. -/

open Sys2Proof Sys2Proof.Machine

/-- Decoding what the encoder wrote gives the instruction back, every operand at every value the encoding admits, whatever
bytes follow (30_encoding.md R96, R100, R102, R104, R120, R121; the serial form of the command port, that of rail indices
beyond 63 included, is the model's choice, log entry 6). -/
def Obligations.DecodeEncodeAgree : Prop :=
  ∀ (c : Cfg) (i : Instr) (rest : Bytes), i.wf c = true → decode c i.turn (encode c i ++ rest) = .ok (i, rest)

/-- Each byte string has one meaning: what decodes is the encoding of what was decoded, on the same port, and is
well-formed, so no reserved encoding falls through to a neighbour. For the op codes (30_encoding.md R120) and the wire
formats (R96, R100, R102, R104) the encoding is the spec's; the serial form of the lists and of rail indices beyond 63 on
the command port and the refusal of spare bits of its channel and kind bytes are the model's choice (log entry 6). -/
def Obligations.EncodeDecodeAgree : Prop :=
  ∀ (c : Cfg) (t : Turn) (bs : Bytes) (i : Instr) (rest : Bytes),
    decode c t bs = .ok (i, rest) → encode c i ++ rest = bs ∧ i.turn = t ∧ i.wf c = true

/-- Words written out from the encodings decode to what they stand for: the op codes of R120, the operand bits of R121,
the wire formats of R96, R100, R102 and R104. The model's choice, not the spec's, are the counts before the lists on the
command port, and that nothing follows SET_RAIL's byte in this configuration (log entry 6), and, DEDUCED, the byte order of
the table's 32-bit word (log entry 16). -/
def Obligations.SampleWordsDecode : Prop :=
  decode cfgRef .client [0x20, 0x07] = .ok (.setRail 1 .high, [])
    ∧ decode cfgRef .client [0x21, 0x01] = .ok (.reset .hard, [])
    ∧ decode cfgRef .client [0x10, 0x02, 0x01, 0xAB] = .ok (.muxSend .mbus [0xAB], [])
    ∧ decode cfgRef .client [0x31, 0x12, 0x01, 0x00] = .ok (.einSend 0x12 0x01 [], [])
    ∧ decode cfgRef .client [0x30, 0x02, 0x01, 0x00] = .ok (.gocSend [true, false], [])
    ∧ decode cfgRef .client [0x33, 0x20] = .ok (.cancel, [0x20])
    ∧ decode cfgRef (.peer .pulseWord) [0x01, 0x00, 0x00, 0x3C] = .ok (.pulseWord .rise 60, [])
    ∧ decode cfgRef (.peer .record) [0x45, 0x00, 0x01, 0xAB] = .ok (.record 0x45 [0xAB], [])
    ∧ decode cfgRef (.peer .einBody) [0x12, 0x02, 0x00, 0x14] = .ok (.einBody 0x12 0x02 [] [0x14], [])
    ∧ decode cfgRef (.peer .mbusBody) [0x21, 0x35, 0x00, 0x00, 0x01, 0x00, 0x62, 0x30]
        = .ok (.mbusBody 0x21 0x35 0x00 0x00 0x01 [] [0x62, 0x30], [])
    ∧ decodeTableWord 8 0x33 = some .cancel ∧ decodeTableWord 32 0x0100003C = some (.pulseWord .rise 60)

/-- A step runs the decoded instruction: when the schedule gives the turn to the agent of a well-formed instruction and
the agent's input begins with its bytes, the step is `exec` of it, on the state with the turn and the bytes taken. That a
schedule and input bytes held in the state say which of R14's enabled steps is next is the model's choice (log entries 3
and 15). -/
def Obligations.StepRunsDecoded : Prop :=
  ∀ (s : State) (ts : List Turn) (i : Instr) (rest : Bytes),
    i.wf s.cfg = true → s.turns = i.turn :: ts → s.source i.turn = encode s.cfg i ++ rest →
      step s = exec i ((s.setTurns ts).consume i.turn rest)

/-- The other steps, the model's choice (log entries 3, 4, 5): with nothing scheduled the Clock steps; a turn without
input passes; a turn of the held calls runs the oldest one once no wait is pending, and passes otherwise. -/
def Obligations.StepOtherTurns : Prop :=
  (∀ s : State, s.turns = [] → step s = exec .tick s)
    ∧ (∀ (s : State) (t : Turn) (ts : List Turn),
        (t = .client ∨ t = .reader ∨ ∃ f, t = .peer f) → s.turns = t :: ts → s.source t = [] →
          step s = .next (s.setTurns ts))
    ∧ (∀ (s : State) (ts : List Turn) (h : HeldCall) (hs : List HeldCall),
        s.turns = .resume :: ts → s.held = h :: hs → s.wait = none →
          step s = exec (.einSend h.addr h.opcode h.payload) ((s.setTurns ts).setHeld hs))
    ∧ (∀ (s : State) (ts : List Turn),
        s.turns = .resume :: ts → (s.held = [] ∨ s.wait.isSome = true) → step s = .next (s.setTurns ts))

/-- An op code not in R120 is not an operation, and neither is channel code 3 (30_encoding.md R115, last row;
93_implementation_defined.md U1); an edge byte above 0x01 begins no pulse word (R96) and a byte that is no preamble no
record (R101): the step is refused by name. The last two are the model's choice: the peer may send any bytes
(46_environment_boundary.md R290), and only the model's wire-format turns, steps of the peer on a schedule (log entries 3
and 7), are refused for bytes that are no such unit. -/
def Obligations.ReservedCodesRefused : Prop :=
  (∀ (s : State) (ts : List Turn) (op : Byte) (rest : Bytes),
      s.turns = .client :: ts → s.inp = op :: rest →
      op.toNat ∉ [0x01, 0x02, 0x03, 0x04, 0x05, 0x06, 0x07, 0x08, 0x09, 0x0A, 0x10, 0x11, 0x20, 0x21, 0x30, 0x31, 0x32,
        0x33, 0x34, 0x35, 0x36] →
        step s = .refused (.notAnOperation (.reservedOpcode op)))
    ∧ (∀ (s : State) (ts : List Turn) (rest : Bytes),
        s.turns = .client :: ts → s.inp = 0x10 :: 0x03 :: rest →
          step s = .refused (.notAnOperation (.reservedChannel 0x03)))
    ∧ (∀ (s : State) (ts : List Turn) (b : Byte) (rest : Bytes),
        s.turns = .peer .pulseWord :: ts → s.inp = b :: rest → 1 < b.toNat →
          step s = .refused (.notAnOperation (.badEdge b)))
    ∧ (∀ (s : State) (ts : List Turn) (b : Byte) (rest : Bytes),
        s.turns = .peer .record :: ts → s.inp = b :: rest → (∀ c, b ≠ preamble s.cfg c) →
          step s = .refused (.notAnOperation (.badPreamble b)))

/-- GOC_ENCODE completes with the train of R94 timed as R95 says: 2n+3 events, even ones RISE and odd ones FALL, event 0
the start marker, event 2i+2 the pulse of bit i, every odd event a gap, event 2n+2 the stop marker, t[0] = 0 and
t[k+1] = t[k] + dur[k]; its total length is that of R132's corner case; nothing else changes. More than goc_max_bits bits
is outside the domain (93_implementation_defined.md U2). -/
def Obligations.GocEncodeTrain : Prop :=
  ∀ (bits : List Bit) (s : State),
    (bits.length ≤ s.cfg.gocMaxBits →
      ∃ es : List PulseEvent,
        exec (.gocEncode bits) s = .next (s.pushRet [.events es])
          ∧ es.length = 2 * bits.length + 3
          ∧ (∀ (k : Nat) (e : PulseEvent), es[k]? = some e → e.edge = if k % 2 = 0 then .rise else .fall)
          ∧ (∀ e : PulseEvent, es[0]? = some e → e.t = 0 ∧ e.dur = s.cfg.tStart)
          ∧ (∀ (i : Nat) (b : Bit) (e : PulseEvent), bits[i]? = some b → es[2 * i + 2]? = some e →
              e.dur = if b then s.cfg.tLong else s.cfg.tShort)
          ∧ (∀ (k : Nat) (e : PulseEvent), es[2 * k + 1]? = some e → e.dur = s.cfg.tGap)
          ∧ (∀ e : PulseEvent, es[2 * bits.length + 2]? = some e → e.dur = s.cfg.tStop)
          ∧ (∀ (k : Nat) (e e' : PulseEvent), es[k]? = some e → es[k + 1]? = some e' → e'.t = e.t + e.dur)
          ∧ (es.map (fun e : PulseEvent => e.dur)).sum
              = s.cfg.tStart + s.cfg.tStop + (bits.length + 1) * s.cfg.tGap + bits.count true * s.cfg.tLong
                + bits.count false * s.cfg.tShort)
      ∧ (s.cfg.gocMaxBits < bits.length → exec (.gocEncode bits) s = .refused .gocTooManyBits)

/-- R140: for every well-formed configuration and every bit sequence within the bound, decoding the encoded train gives the
bits, and deserialising the serialised train gives the train. -/
def Obligations.GocRoundTrip : Prop :=
  ∀ (bits : List Bit) (s : State), s.cfg.wf = true → bits.length ≤ s.cfg.gocMaxBits →
    ∃ (es : List PulseEvent) (body : Bytes),
      exec (.gocEncode bits) s = .next (s.pushRet [.events es])
        ∧ exec (.gocDecode es) s = .next (s.pushRet [.bits bits])
        ∧ exec (.gocSer es) s = .next (s.pushRet [.bytes body])
        ∧ exec (.gocDeser body) s = .next (s.pushRet [.events es])

/-- R141, the tolerance law: a train whose every duration lies in its own symbol's window decodes to the bits, whatever its
non-decreasing timestamps; and the first event whose duration lies in no window it is tested against (the gap window for
an odd event, the four pulse windows for an even one) is OUT_OF_BAND at its index, every earlier event being valid. -/
def Obligations.GocTolerance : Prop :=
  ∀ (bits : List Bit) (s : State), s.cfg.wf = true →
    (∀ events : List PulseEvent,
        List.Forall₂ (fun x e => e.edge = symbolEdge x ∧ inWindow s.cfg e.dur x = true) (trainSymbols bits) events →
        events.Pairwise (fun a b => a.t ≤ b.t) →
          exec (.gocDecode events) s = .next (s.pushRet [.bits bits]))
      ∧ (∀ (good rest : List PulseEvent) (e : PulseEvent),
          List.Forall₂ (fun x e => e.edge = symbolEdge x ∧ inWindow s.cfg e.dur x = true)
            ((trainSymbols bits).take good.length) good →
          good.length < (trainSymbols bits).length →
          (good ++ [e]).Pairwise (fun a b => a.t ≤ b.t) →
          e.edge = expectedEdge good.length →
          (if good.length % 2 = 1 then inWindow s.cfg e.dur .gap = false else pulseClass s.cfg e.dur = []) →
            exec (.gocDecode (good ++ e :: rest)) s
              = .next (s.pushRet [.err (.timingViolation .outOfBand good.length)]))

/-- GOC_DECODE always completes, with bits or a TimingViolation, and changes nothing else; the rejections of R135 that are
no window's: the empty sequence; a train cut before its end; an event after the stop marker; an event with the wrong edge
or an earlier time. The index is that of the first failing event. Then, in every configuration, overlapping windows
included (R134, 93_implementation_defined.md U6), after a beginning whose every event is one symbol's alone: a pulse in two
or more windows is AMBIGUOUS; one that is START's anywhere but first, or another symbol's at first, is UNEXPECTED_SYMBOL. -/
def Obligations.GocDecodeRejections : Prop :=
  (∀ (events : List PulseEvent) (s : State),
      (∃ bits, exec (.gocDecode events) s = .next (s.pushRet [.bits bits]))
        ∨ (∃ kind k, k ≤ events.length
            ∧ exec (.gocDecode events) s = .next (s.pushRet [.err (.timingViolation kind k)])))
    ∧ (∀ (bits : List Bit) (s : State), s.cfg.wf = true →
        exec (.gocDecode []) s = .next (s.pushRet [.err (.timingViolation .truncated 0)])
          ∧ (∀ n, n < 2 * bits.length + 3 →
              exec (.gocDecode ((trainOf s.cfg bits).take n)) s
                = .next (s.pushRet [.err (.timingViolation .truncated n)]))
          ∧ (∀ (e : PulseEvent) (rest : List PulseEvent), e.edge = .fall → (∀ x ∈ trainOf s.cfg bits, x.t ≤ e.t) →
              exec (.gocDecode (trainOf s.cfg bits ++ e :: rest)) s
                = .next (s.pushRet [.err (.timingViolation .trailing (2 * bits.length + 3))]))
          ∧ (∀ (n : Nat) (e : PulseEvent) (rest : List PulseEvent), n ≤ 2 * bits.length + 3 →
              (e.edge ≠ expectedEdge n ∨ ∃ x ∈ (trainOf s.cfg bits).take n, e.t < x.t) →
              exec (.gocDecode ((trainOf s.cfg bits).take n ++ e :: rest)) s
                = .next (s.pushRet [.err (.timingViolation .malformed n)])))
    ∧ (∀ (bits : List Bit) (good rest : List PulseEvent) (e : PulseEvent) (s : State),
        List.Forall₂ (AloneIn s.cfg) ((trainSymbols bits).take good.length) good →
        good.length < (trainSymbols bits).length → good.length % 2 = 0 →
        (good ++ [e]).Pairwise (fun a b => a.t ≤ b.t) → e.edge = .rise →
          (2 ≤ (pulseClass s.cfg e.dur).length →
              exec (.gocDecode (good ++ e :: rest)) s
                = .next (s.pushRet [.err (.timingViolation .ambiguous good.length)]))
            ∧ (∀ x, pulseClass s.cfg e.dur = [x] → (if good.length = 0 then x ≠ .start else x = .start) →
                exec (.gocDecode (good ++ e :: rest)) s
                  = .next (s.pushRet [.err (.timingViolation .unexpectedSymbol good.length)])))

/-- GOC_SER (R137): pulse words of R96 back to back, the timestamp not serialised; a duration of 2^24 or more has no wire
form and is refused. -/
def Obligations.GocSerWords : Prop :=
  ∀ (events : List PulseEvent) (s : State),
    ((∀ e ∈ events, e.dur < 2 ^ 24) →
        exec (.gocSer events) s
          = .next (s.pushRet [.bytes (events.flatMap (fun e =>
              [if e.edge = .rise then (0x01 : Byte) else 0x00, BitVec.ofNat 8 (e.dur / 65536),
                BitVec.ofNat 8 (e.dur / 256), BitVec.ofNat 8 e.dur]))]))
      ∧ ((∃ e ∈ events, 2 ^ 24 ≤ e.dur) → exec (.gocSer events) s = .refused .durationTooLong)

/-- GOC_DESER (R138): NOT_GOC when the length is no multiple of 4 or an edge byte is above 0x01; otherwise one event per
word, with the word's edge and duration and timestamps rebuilt from 0. That the client who calls the operation gets
NOT_GOC back, which 60_exceptions.md R321 calls an internal verdict never seen by a client, is the model's choice between
the two rules (log entry 23). -/
def Obligations.GocDeserVerdict : Prop :=
  ∀ (body : Bytes) (s : State),
    ((body.length % 4 ≠ 0 ∨ ∃ (k : Nat) (b : Byte), body[4 * k]? = some b ∧ 1 < b.toNat) →
        exec (.gocDeser body) s = .next (s.pushRet [.notGoc]))
      ∧ (body.length % 4 = 0 → (∀ (k : Nat) (b : Byte), body[4 * k]? = some b → b.toNat ≤ 1) →
          ∃ es : List PulseEvent,
            exec (.gocDeser body) s = .next (s.pushRet [.events es])
              ∧ 4 * es.length = body.length
              ∧ (∀ (k : Nat) (e : PulseEvent), es[k]? = some e →
                  (e.edge = if body[4 * k]? = some 1 then .rise else .fall)
                    ∧ e.dur = (body.getD (4 * k + 1) 0).toNat * 65536 + (body.getD (4 * k + 2) 0).toNat * 256
                        + (body.getD (4 * k + 3) 0).toNat)
              ∧ (∀ e : PulseEvent, es[0]? = some e → e.t = 0)
              ∧ (∀ (k : Nat) (e e' : PulseEvent), es[k]? = some e → es[k + 1]? = some e' → e'.t = e.t + e.dur))

/-- EIN_BUILD (R152): dest, opcode, length, payload and the checksum over all of them; a payload longer than
ein_max_payload is refused. -/
def Obligations.EinBuildFrame : Prop :=
  ∀ (dest opcode : Byte) (payload : Bytes) (s : State),
    (payload.length ≤ s.cfg.einMaxPayload →
        exec (.einBuild dest opcode payload) s
          = .next (s.pushRet [.bytes ([dest, opcode, BitVec.ofNat 8 payload.length] ++ payload
              ++ einCk s.cfg ([dest, opcode, BitVec.ofNat 8 payload.length] ++ payload))]))
      ∧ (s.cfg.einMaxPayload < payload.length → exec (.einBuild dest opcode payload) s = .refused .einPayloadTooLong)

/-- EIN_PARSE (R155): the checks in their order, and the frame when all pass; nothing else changes. -/
def Obligations.EinParseVerdict : Prop :=
  ∀ (body : Bytes) (s : State),
    (body.length < 3 + s.cfg.einCkLen →
        exec (.einParse body) s = .next (s.pushRet [.err (.frameLength .ein none body.length)]))
      ∧ (∀ (dest opcode len : Byte) (payload ck : Bytes), ck.length = s.cfg.einCkLen →
          body = [dest, opcode, len] ++ payload ++ ck →
          (len.toNat ≠ payload.length →
              exec (.einParse body) s
                = .next (s.pushRet [.err (.frameLength .ein (some len.toNat) payload.length)]))
            ∧ (len.toNat = payload.length → einCk s.cfg ([dest, opcode, len] ++ payload) ≠ ck →
                exec (.einParse body) s = .next (s.pushRet [.err (.frameChecksum .ein)]))
            ∧ (len.toNat = payload.length → einCk s.cfg ([dest, opcode, len] ++ payload) = ck →
                exec (.einParse body) s = .next (s.pushRet [.einFrame ⟨dest, opcode, payload, ck⟩])))

/-- R160, both ways: a built valid frame parses to itself; a body that parses to a frame is what building that frame
gives, for every frame whose payload the configuration lets EIN_BUILD take, which is every frame when ein_max_payload is
255, the value the spec decides. -/
def Obligations.EinRoundTrip : Prop :=
  (∀ (f : EinFrame) (s : State), s.cfg.sizesOk = true → f.payload.length ≤ s.cfg.einMaxPayload →
      f.checksum = einCk s.cfg ([f.dest, f.opcode, BitVec.ofNat 8 f.payload.length] ++ f.payload) →
      ∃ body,
        exec (.einBuild f.dest f.opcode f.payload) s = .next (s.pushRet [.bytes body])
          ∧ exec (.einParse body) s = .next (s.pushRet [.einFrame f]))
    ∧ (∀ (body : Bytes) (f : EinFrame) (s : State),
        exec (.einParse body) s = .next (s.pushRet [.einFrame f]) →
        (f.payload.length ≤ s.cfg.einMaxPayload ∨ s.cfg.einMaxPayload = 255) →
          exec (.einBuild f.dest f.opcode f.payload) s = .next (s.pushRet [.bytes body]))

/-- R161: with the checksum of `CFG_REF`, flipping any single bit of any covered byte but the length byte gives
FrameChecksumError. -/
def Obligations.EinSumRejectsBitFlips : Prop :=
  ∀ (dest opcode : Byte) (payload : Bytes) (j k : Nat) (b : Byte) (body : Bytes) (s : State),
    s.cfg.einCkAlg = .sum8 → s.cfg.einCkLen = 1 → payload.length ≤ 255 → payload.length ≤ s.cfg.einMaxPayload →
    exec (.einBuild dest opcode payload) s = .next (s.pushRet [.bytes body]) →
    j < 3 + payload.length → j ≠ 2 → k < 8 → body[j]? = some b →
      exec (.einParse (body.set j (b ^^^ BitVec.ofNat 8 (2 ^ k)))) s
        = .next (s.pushRet [.err (.frameChecksum .ein)])

/-- MBUS_BUILD (R174): the six header bytes, the chunk and the CRC over all of them; a chunk longer than 255 is refused;
the numbering is not checked. -/
def Obligations.MbusBuildMessage : Prop :=
  ∀ (src dst mid idx cnt : Byte) (chunk : Bytes) (s : State),
    (chunk.length ≤ 255 →
        exec (.mbusBuild src dst mid idx cnt chunk) s
          = .next (s.pushRet [.bytes ([src, dst, mid, idx, cnt, BitVec.ofNat 8 chunk.length] ++ chunk
              ++ mbusCrc s.cfg ([src, dst, mid, idx, cnt, BitVec.ofNat 8 chunk.length] ++ chunk))]))
      ∧ (255 < chunk.length → exec (.mbusBuild src dst mid idx cnt chunk) s = .refused .mbusChunkTooLong)

/-- MBUS_PARSE (R176): the checks in their order, and the message when all pass; nothing else changes. -/
def Obligations.MbusParseVerdict : Prop :=
  ∀ (body : Bytes) (s : State),
    (body.length < 6 + s.cfg.mbusCrcLen →
        exec (.mbusParse body) s = .next (s.pushRet [.err (.frameLength .mbus none body.length)]))
      ∧ (∀ (src dst mid idx cnt len : Byte) (chunk crc : Bytes), crc.length = s.cfg.mbusCrcLen →
          body = [src, dst, mid, idx, cnt, len] ++ chunk ++ crc →
          (len.toNat ≠ chunk.length →
              exec (.mbusParse body) s
                = .next (s.pushRet [.err (.frameLength .mbus (some len.toNat) chunk.length)]))
            ∧ (len.toNat = chunk.length → mbusCrc s.cfg ([src, dst, mid, idx, cnt, len] ++ chunk) ≠ crc →
                exec (.mbusParse body) s = .next (s.pushRet [.err (.frameChecksum .mbus)]))
            ∧ (len.toNat = chunk.length → mbusCrc s.cfg ([src, dst, mid, idx, cnt, len] ++ chunk) = crc →
                exec (.mbusParse body) s
                  = .next (s.pushRet [.mbusMessage ⟨src, dst, mid, idx, cnt, chunk, crc⟩])))

/-- MBUS_FRAGMENT (R180): one message when the payload fits; BroadcastTooLarge exactly for a broadcast that does not;
otherwise ceil(n/mc) fragments in index order, each but the last of mc bytes, the last of 1 to mc, joining to the payload;
too many fragments are refused. That the `crc` R180 leaves unfilled is empty is DEDUCED (log entry 12). -/
def Obligations.MbusFragmentShape : Prop :=
  ∀ (src dst mid : Byte) (payload : Bytes) (s : State), s.cfg.sizesOk = true →
    (payload.length ≤ s.cfg.mbusMaxChunk →
        exec (.mbusFragment src dst mid payload) s
          = .next (s.pushRet [.fragments [⟨src, dst, mid, 0, 1, payload, []⟩]]))
      ∧ (s.cfg.mbusMaxChunk < payload.length → dst = s.cfg.mbusBcast →
          exec (.mbusFragment src dst mid payload) s
            = .next (s.pushRet [.err (.broadcastTooLarge payload.length s.cfg.mbusMaxChunk)]))
      ∧ (s.cfg.mbusMaxChunk < payload.length → dst ≠ s.cfg.mbusBcast →
          payload.length ≤ s.cfg.mbusMaxFrags * s.cfg.mbusMaxChunk →
          ∃ ms : List MBusMessage,
            exec (.mbusFragment src dst mid payload) s = .next (s.pushRet [.fragments ms])
              ∧ (ms.length - 1) * s.cfg.mbusMaxChunk < payload.length
              ∧ payload.length ≤ ms.length * s.cfg.mbusMaxChunk
              ∧ ms.flatMap (fun m => m.chunk) = payload
              ∧ (∀ k m, ms[k]? = some m →
                  m.src = src ∧ m.dst = dst ∧ m.msgId = mid ∧ m.fragIndex.toNat = k ∧ m.fragCount.toNat = ms.length
                    ∧ (k + 1 < ms.length → m.chunk.length = s.cfg.mbusMaxChunk)
                    ∧ 1 ≤ m.chunk.length ∧ m.chunk.length ≤ s.cfg.mbusMaxChunk))
      ∧ (s.cfg.mbusMaxFrags * s.cfg.mbusMaxChunk < payload.length → dst ≠ s.cfg.mbusBcast →
          exec (.mbusFragment src dst mid payload) s = .refused .tooManyFragments)

/-- R193: the fragments of a unicast payload, given to MBUS_REASSEMBLE in any order with no entry for the key beforehand,
answer Incomplete for all but the last call and Complete with the payload for the last, and leave the table as it was. -/
def Obligations.ReassembleAnyOrder : Prop :=
  ∀ (src dst mid : Byte) (payload : Bytes) (ms order : List MBusMessage) (s : State),
    s.cfg.sizesOk = true → dst ≠ s.cfg.mbusBcast → ReasmInv s →
    Table.lookup Key.ord ⟨src, dst, mid⟩ s.reasm = none →
    exec (.mbusFragment src dst mid payload) s = .next (s.pushRet [.fragments ms]) → order.Perm ms →
      execAll (order.map reassembleInstr) s
        = .next (s.pushRet (List.replicate (ms.length - 1) .incomplete ++ [.complete ⟨src, dst, mid, payload⟩]))

/-- R193, through the wire: parsing a built message gives the message with its CRC filled in, the one over its six header
bytes and its chunk, whatever its numbering. -/
def Obligations.MbusWireRoundTrip : Prop :=
  ∀ (src dst mid idx cnt : Byte) (chunk : Bytes) (s : State), chunk.length ≤ 255 →
    ∃ body,
      exec (.mbusBuild src dst mid idx cnt chunk) s = .next (s.pushRet [.bytes body])
        ∧ exec (.mbusParse body) s
            = .next (s.pushRet [.mbusMessage ⟨src, dst, mid, idx, cnt, chunk,
                mbusCrc s.cfg ([src, dst, mid, idx, cnt, BitVec.ofNat 8 chunk.length] ++ chunk)⟩])

/-- R187 and R188: impossible numbering, a fragmented broadcast, a count that differs from the held entry's and a duplicate
index are answered Incomplete, and nothing else changes. -/
def Obligations.ReassembleIgnores : Prop :=
  ∀ (src dst mid idx cnt : Byte) (chunk : Bytes) (s : State),
    (cnt = 0 ∨ cnt.toNat ≤ idx.toNat ∨ (dst = s.cfg.mbusBcast ∧ cnt ≠ 1)
        ∨ (∃ e, Table.lookup Key.ord ⟨src, dst, mid⟩ s.reasm = some e
            ∧ (e.count ≠ cnt.toNat ∨ (Table.lookup id idx.toNat e.chunks).isSome = true))) →
      exec (.mbusReassemble src dst mid idx cnt chunk) s = .next (s.pushRet [.incomplete])

/-- R186 for well-numbered fragments. For a key not in the table, a single-fragment message completes at once and never
enters the table, and the first of several enters it with its count, its chunk and the deadline now + reasm_timeout. For a
key in the table and an index not yet held, the chunk joins the entry, whose deadline does not move; when the last index
arrives the key is removed and the payload is the chunks in index order, and never before (R68, R75). Entries of other
keys stay. -/
def Obligations.ReassembleFragment : Prop :=
  ∀ (src dst mid idx cnt : Byte) (chunk : Bytes) (s : State), ReasmInv s → idx.toNat < cnt.toNat →
    (Table.lookup Key.ord ⟨src, dst, mid⟩ s.reasm = none → cnt = 1 →
        exec (.mbusReassemble src dst mid idx cnt chunk) s = .next (s.pushRet [.complete ⟨src, dst, mid, chunk⟩]))
      ∧ (Table.lookup Key.ord ⟨src, dst, mid⟩ s.reasm = none → cnt ≠ 1 → dst ≠ s.cfg.mbusBcast →
          ∃ table,
            exec (.mbusReassemble src dst mid idx cnt chunk) s
                = .next ((s.setReasm table).pushRet [.incomplete])
              ∧ (∀ k : Key, Table.lookup Key.ord k table
                  = if k = ⟨src, dst, mid⟩ then
                      some ⟨cnt.toNat, [(idx.toNat, chunk)], s.now + s.cfg.reasmTimeout⟩
                    else Table.lookup Key.ord k s.reasm))
      ∧ (∀ e : ReasmEntry, Table.lookup Key.ord ⟨src, dst, mid⟩ s.reasm = some e → e.count = cnt.toNat →
          Table.lookup id idx.toNat e.chunks = none →
          ∃ (table : List (Key × ReasmEntry)) (r : Result),
            exec (.mbusReassemble src dst mid idx cnt chunk) s = .next ((s.setReasm table).pushRet [r])
              ∧ (∀ k : Key, k ≠ ⟨src, dst, mid⟩ → Table.lookup Key.ord k table = Table.lookup Key.ord k s.reasm)
              ∧ (e.chunks.length + 1 < e.count →
                  r = .incomplete
                    ∧ ∃ e', Table.lookup Key.ord ⟨src, dst, mid⟩ table = some e' ∧ e'.count = e.count
                        ∧ e'.deadline = e.deadline
                        ∧ ∀ j, Table.lookup id j e'.chunks
                            = if j = idx.toNat then some chunk else Table.lookup id j e.chunks)
              ∧ (e.chunks.length + 1 = e.count →
                  Table.lookup Key.ord ⟨src, dst, mid⟩ table = none
                    ∧ ∃ parts : List Bytes,
                        r = .complete ⟨src, dst, mid, parts.flatten⟩ ∧ parts.length = e.count
                          ∧ ∀ j, j < e.count →
                              parts[j]? = if j = idx.toNat then some chunk else Table.lookup id j e.chunks))

/-- MUX_SEND (R202): the gate, then the size, then one record on TX in one write and one observation of it on REC. -/
def Obligations.MuxSendWrites : Prop :=
  ∀ (c : Channel) (body : Bytes) (s : State),
    (railAt s (s.cfg.gov c) = .off →
        exec (.muxSend c body) s = .next (s.pushRet [.err (.railNotEnergized c (s.cfg.gov c))]))
      ∧ (railAt s (s.cfg.gov c) ≠ .off → 65535 < body.length → exec (.muxSend c body) s = .refused .bodyTooLong)
      ∧ (railAt s (s.cfg.gov c) ≠ .off → body.length ≤ 65535 →
          ∃ bytes,
            bytes = [preamble s.cfg c, BitVec.ofNat 8 (body.length / 256), BitVec.ofNat 8 body.length] ++ body
              ∧ exec (.muxSend c body) s
                  = .next (((s.pushTx bytes).pushRec [⟨.tx, .chan c, bytes⟩]).pushRet [.ok]))

/-- R203, the power gating law, for every operation that sends: with the governing rail OFF the result is RailNotEnergized
and nothing else changes: zero transport writes. (An EIN_SEND that runs, that is, with no wait pending, R266.) -/
def Obligations.PowerGating : Prop :=
  ∀ s : State,
    (railAt s s.cfg.govGoc = .off →
        (∀ bits, exec (.gocSend bits) s = .next (s.pushRet [.err (.railNotEnergized .goc s.cfg.govGoc)]))
          ∧ ∀ body, exec (.muxSend .goc body) s = .next (s.pushRet [.err (.railNotEnergized .goc s.cfg.govGoc)]))
      ∧ (railAt s s.cfg.govEin = .off →
          (s.wait = none → ∀ a o p,
              exec (.einSend a o p) s = .next (s.pushRet [.err (.railNotEnergized .ein s.cfg.govEin)]))
            ∧ ∀ body, exec (.muxSend .ein body) s = .next (s.pushRet [.err (.railNotEnergized .ein s.cfg.govEin)]))
      ∧ (railAt s s.cfg.govMbus = .off →
          (∀ src dst p,
              exec (.mbusSend src dst p) s = .next (s.pushRet [.err (.railNotEnergized .mbus s.cfg.govMbus)]))
            ∧ ∀ body, exec (.muxSend .mbus body) s = .next (s.pushRet [.err (.railNotEnergized .mbus s.cfg.govMbus)]))

/-- MUX_RECEIVE (R214): EMPTY on an empty queue, else the head, removed. -/
def Obligations.MuxReceivePops : Prop :=
  ∀ s : State,
    (s.rxq = [] → exec .muxReceive s = .next (s.pushRet [.empty]))
      ∧ (∀ c body rest, s.rxq = (c, body) :: rest →
          exec .muxReceive s = .next ((s.setRxq rest).pushRet [.unit c body]))

/-- RX_BYTE (R206, R207) short of a record's end. At a boundary a preamble begins a record, poisoned if its channel is not
decodable, and any other byte is one UNREC observation and nothing else. Inside a record the two length bytes and the body
bytes are taken whatever their values, a preamble's included. -/
def Obligations.RxByteAdvances : Prop :=
  ∀ (b : Byte) (s : State),
    (s.rx.phase = .idle → s.cfg.preamblesDistinct = true → ∀ c, b = preamble s.cfg c →
        exec (.rxByte b) s
          = .next ((s.pushRxDone [b]).setRx ⟨.lenHi, c, 0, [], [b], decide (railAt s (s.cfg.gov c) = .off)⟩))
      ∧ (s.rx.phase = .idle → (∀ c, b ≠ preamble s.cfg c) →
          exec (.rxByte b) s = .next ((s.pushRxDone [b]).pushRec [⟨.rx, .unrec, [b]⟩]))
      ∧ (s.rx.phase = .lenHi →
          exec (.rxByte b) s
            = .next ((s.pushRxDone [b]).setRx
                ⟨.lenLo, s.rx.chan, b.toNat * 256, s.rx.buf, s.rx.raw ++ [b], s.rx.poisoned⟩))
      ∧ (s.rx.phase = .lenLo → s.rx.len + b.toNat ≠ 0 →
          exec (.rxByte b) s
            = .next ((s.pushRxDone [b]).setRx
                ⟨.body, s.rx.chan, s.rx.len + b.toNat, s.rx.buf, s.rx.raw ++ [b], s.rx.poisoned⟩))
      ∧ (s.rx.phase = .body → s.rx.buf.length + 1 ≠ s.rx.len →
          exec (.rxByte b) s
            = .next ((s.pushRxDone [b]).setRx
                ⟨.body, s.rx.chan, s.rx.len, s.rx.buf ++ [b], s.rx.raw ++ [b], s.rx.poisoned⟩))

/-- The last byte of a record (R208, R209, R210), be it the second length byte of an empty body or the last body byte: the
whole record is observed once, as UNREC if it is GOC without GOC structure, else with its channel; the body is queued only
if it is recognised, not poisoned and its channel decodable; the parser returns to the boundary; nothing else changes. -/
def Obligations.RxRecordCompletes : Prop :=
  ∀ (b : Byte) (body : Bytes) (s : State),
    (s.rx.phase = .body ∧ s.rx.buf.length + 1 = s.rx.len ∧ body = s.rx.buf ++ [b]
        ∨ s.rx.phase = .lenLo ∧ s.rx.len + b.toNat = 0 ∧ body = s.rx.buf) →
    ∃ t : State,
      exec (.rxByte b) s = .next t
        ∧ t.rx = ⟨.idle, s.rx.chan, s.rx.len, [], [], false⟩
        ∧ (let bad : Prop := s.rx.chan = .goc ∧ exec (.gocDeser body) s = .next (s.pushRet [.notGoc])
           (bad → t.recLog = s.recLog ++ [⟨.rx, .unrec, s.rx.raw ++ [b]⟩] ∧ t.rxq = s.rxq)
             ∧ (¬ bad →
                 t.recLog = s.recLog ++ [⟨.rx, .chan s.rx.chan, s.rx.raw ++ [b]⟩]
                   ∧ (s.rx.poisoned = false → railAt s (s.cfg.gov s.rx.chan) ≠ .off →
                       t.rxq = s.rxq ++ [(s.rx.chan, body)])
                   ∧ ((s.rx.poisoned = true ∨ railAt s (s.cfg.gov s.rx.chan) = .off) → t.rxq = s.rxq)))
        ∧ t = { s with rx := t.rx, rxq := t.rxq, recLog := t.recLog, rxDone := s.rxDone ++ [b] }

/-- R220, the framing round trip: the bytes MUX_SEND writes for a channel and a body, fed one by one to RX_BYTE of a block
of the same configuration whose parser is at a record boundary and whose channel is decodable, add exactly that channel
and body to its queue, and leave the parser at the boundary. (The configuration's preambles are distinct, 00_scope.md R9
clause (c); a GOC body has GOC structure, as R220 says.) -/
def Obligations.FramingRoundTrip : Prop :=
  ∀ (c : Channel) (body : Bytes) (s r : State),
    r.cfg = s.cfg → s.cfg.preamblesDistinct = true → body.length ≤ 65535 →
    railAt s (s.cfg.gov c) ≠ .off → railAt r (r.cfg.gov c) ≠ .off → r.rx.phase = .idle →
    (c = .goc → ∃ es, exec (.gocDeser body) r = .next (r.pushRet [.events es])) →
      ∃ (bytes : Bytes) (t : State),
        exec (.muxSend c body) s = .next (((s.pushTx bytes).pushRec [⟨.tx, .chan c, bytes⟩]).pushRet [.ok])
          ∧ execAll (bytes.map Instr.rxByte) r = .next t
          ∧ t.rxq = r.rxq ++ [(c, body)] ∧ t.recLog = r.recLog ++ [⟨.rx, .chan c, bytes⟩]
          ∧ t.rx.phase = .idle

/-- DISPATCH (R215) of any unit completes, takes the head of the queue and writes nothing else but reassembly, the wait,
EVT and RES; of a GOC unit (R216) it puts what GOC_DECODE gives on EVT. With an empty queue DISPATCH is not enabled; that
the turn then passes is the model's choice (log entry 4). -/
def Obligations.DispatchGocUnit : Prop :=
  (∀ s : State, s.rxq = [] → exec .dispatch s = .next s)
    ∧ (∀ (c : Channel) (body : Bytes) (rest : List (Channel × Bytes)) (s : State), s.rxq = (c, body) :: rest →
        ∃ t : State, exec .dispatch s = .next t
          ∧ t = { s with rxq := rest, reasm := t.reasm, wait := t.wait, evt := t.evt, res := t.res })
    ∧ (∀ (body : Bytes) (rest : List (Channel × Bytes)) (es : List PulseEvent) (s : State),
        s.rxq = (.goc, body) :: rest → exec (.gocDeser body) s = .next (s.pushRet [.events es]) →
          (∀ bits, exec (.gocDecode es) s = .next (s.pushRet [.bits bits]) →
              exec .dispatch s = .next ((s.setRxq rest).pushEvt [.gocBits bits]))
            ∧ (∀ e, exec (.gocDecode es) s = .next (s.pushRet [.err e]) →
                exec .dispatch s = .next ((s.setRxq rest).pushEvt [.error e])))

/-- DISPATCH of an EIN unit (R217): a parse error ends a pending wait with that error, else is an event; a frame with the
wait's address ends the wait, any other frame is an event and the wait continues. -/
def Obligations.DispatchEinUnit : Prop :=
  ∀ (body : Bytes) (rest : List (Channel × Bytes)) (s : State), s.rxq = (.ein, body) :: rest →
    (∀ e, exec (.einParse body) s = .next (s.pushRet [.err e]) →
        (s.wait = none → exec .dispatch s = .next ((s.setRxq rest).pushEvt [.error e]))
          ∧ (∀ w, s.wait = some w →
              exec .dispatch s = .next (((s.setRxq rest).pushRes [.einSend (.err e)]).setWait none)))
      ∧ (∀ f, exec (.einParse body) s = .next (s.pushRet [.einFrame f]) →
          ((∀ w, s.wait = some w → f.dest ≠ w.addr) →
              exec .dispatch s = .next ((s.setRxq rest).pushEvt [.einFrame f]))
            ∧ (∀ w, s.wait = some w → f.dest = w.addr →
                exec .dispatch s = .next (((s.setRxq rest).pushRes [.einSend (.frame f)]).setWait none)))

/-- DISPATCH of an MBus unit (R218): a parse error is an event; a message goes to reassembly, whose completed message is
an event and whose Incomplete is nothing. -/
def Obligations.DispatchMbusUnit : Prop :=
  ∀ (body : Bytes) (rest : List (Channel × Bytes)) (s : State), s.rxq = (.mbus, body) :: rest →
    (∀ e, exec (.mbusParse body) s = .next (s.pushRet [.err e]) →
        exec .dispatch s = .next ((s.setRxq rest).pushEvt [.error e]))
      ∧ (∀ m table, exec (.mbusParse body) s = .next (s.pushRet [.mbusMessage m]) →
          (∀ x, exec (reassembleInstr m) s = .next ((s.setReasm table).pushRet [.complete x]) →
              exec .dispatch s = .next (((s.setRxq rest).setReasm table).pushEvt [.mbusMessage x]))
            ∧ (exec (reassembleInstr m) s = .next ((s.setReasm table).pushRet [.incomplete]) →
                exec .dispatch s = .next ((s.setRxq rest).setReasm table)))

/-- SET_RAIL (R236, in the order of R333; R234). An index at or above nrails is refused; during a reset it fails with
ResetInProgress and changes nothing; otherwise the register is written and, unless an energized rail goes OFF, nothing
else changes. When one does, for the channels it governs: the record in the parser is poisoned, the queued records go, a
pending EIN_SEND fails with RailNotEnergized, reassembly is flushed with a ReassemblyTimeout for each entry in key order;
TX is not retracted and nothing else changes. -/
def Obligations.SetRailWrites : Prop :=
  ∀ (rail : Nat) (st : RailState) (s : State),
    (s.cfg.nrails ≤ rail → exec (.setRail rail st) s = .refused (.railOutOfRange rail))
      ∧ (rail < s.cfg.nrails → s.rst.busy = true → exec (.setRail rail st) s = .next (s.pushRet [.err .resetInProgress]))
      ∧ (rail < s.cfg.nrails → s.rst.busy = false → (railAt s rail = .off ∨ st ≠ .off) →
          exec (.setRail rail st) s = .next ((s.setRail (s.rail.set rail st)).pushRet [.ok]))
      ∧ (rail < s.cfg.nrails → s.rst.busy = false → railAt s rail ≠ .off → st = .off →
          ∃ t : State,
            exec (.setRail rail st) s = .next t
              ∧ t.rail = s.rail.set rail .off
              ∧ t.rx = { s.rx with
                  poisoned := s.rx.poisoned || (decide (s.rx.phase ≠ .idle) && decide (s.cfg.gov s.rx.chan = rail)) }
              ∧ t.rxq = s.rxq.filter (fun x => decide (s.cfg.gov x.1 ≠ rail))
              ∧ t.wait = (if s.cfg.govEin = rail then none else s.wait)
              ∧ t.res = s.res ++ (if s.cfg.govEin = rail ∧ s.wait.isSome = true then
                  [.einSend (.err (.railNotEnergized .ein rail))] else [])
              ∧ t.reasm = (if s.cfg.govMbus = rail then [] else s.reasm)
              ∧ t.evt = s.evt ++ (if s.cfg.govMbus = rail then
                  s.reasm.map (fun x => .error (.reassemblyTimeout x.1 x.2.chunks.length x.2.count)) else [])
              ∧ t.ret = s.ret ++ [.ok]
              ∧ t = { s with
                  rail := t.rail, rx := t.rx, rxq := t.rxq, wait := t.wait, res := t.res, reasm := t.reasm,
                  evt := t.evt, ret := t.ret })

/-- RESET accepted (R240, R363): the targets go OFF, the sequencer is busy until now + settle_ticks with the targets and
the states they had, reassembly is emptied with a ReassemblyTimeout for each entry in key order, the power-down effects of
R234 happen for the targets that were on; everything else is untouched. While a reset settles a RESET fails and changes
nothing (R240, R245). -/
def Obligations.ResetAccepted : Prop :=
  ∀ (kind : ResetKind) (s : State),
    (s.rst.busy = true → exec (.reset kind) s = .next (s.pushRet [.err .resetInProgress]))
    ∧ (s.rst.busy = false →
    ∃ (t : State) (targets : List Nat),
      exec (.reset kind) s = .next t
        ∧ targets = (match kind with | .soft => [s.cfg.softRail] | .hard => List.range s.cfg.nrails)
        ∧ t.rail.length = s.rail.length
        ∧ (∀ r, railAt t r = if r ∈ targets then .off else railAt s r)
        ∧ t.rst = ⟨true, s.now + s.cfg.settleTicks, targets, targets.map (fun r => (r, railAt s r))⟩
        ∧ t.reasm = []
        ∧ t.evt = s.evt ++ s.reasm.map (fun x => .error (.reassemblyTimeout x.1 x.2.chunks.length x.2.count))
        ∧ (let down := fun c : Channel => decide (s.cfg.gov c ∈ targets ∧ railAt s (s.cfg.gov c) ≠ .off)
           t.rx = { s.rx with
               poisoned := s.rx.poisoned || (decide (s.rx.phase ≠ .idle) && down s.rx.chan) }
             ∧ t.rxq = s.rxq.filter (fun x => !down x.1)
             ∧ t.wait = (if down .ein then none else s.wait)
             ∧ t.res = s.res ++ (if down .ein = true ∧ s.wait.isSome = true then
                 [.einSend (.err (.railNotEnergized .ein s.cfg.govEin))] else []))
        ∧ t = { s with
            rail := t.rail, rst := t.rst, rx := t.rx, rxq := t.rxq, wait := t.wait, res := t.res, reasm := t.reasm,
            evt := t.evt })

/-- The reset sequence as a whole (R243, R244): after an accepted RESET every target stays OFF and the sequencer stays busy
until the settle delay is over (at least one tick), and then every rail is back in the state it had, the sequencer is idle
and RES has gained exactly one `Res(RESET, OK)`, in a run in which nothing but ticks comes (60_exceptions.md R346; that
ticks come is a matter of the schedule, log entry 14). -/
def Obligations.ResetCycle : Prop :=
  ∀ (kind : ResetKind) (s : State), s.rst.busy = false →
    ∃ a : State,
      exec (.reset kind) s = .next a
        ∧ (∀ n, n < max 1 s.cfg.settleTicks →
            ∃ t, execAll (List.replicate n .tick) a = .next t ∧ t.rst.busy = true
              ∧ ∀ r ∈ resetTargets s.cfg kind, railAt t r = .off)
        ∧ ∃ t, execAll (List.replicate (max 1 s.cfg.settleTicks) .tick) a = .next t
            ∧ t.rst.busy = false ∧ t.rail = s.rail ∧ resetResults t = resetResults s + 1

/-- R237: a rail changes only in SET_RAIL, in an accepted RESET and at reset completion in TICK. -/
def Obligations.OnlyPowerChangesRails : Prop :=
  ∀ (i : Instr) (s t : State), exec i s = .next t → t.rail ≠ s.rail →
    (∃ r st, i = .setRail r st ∧ s.rst.busy = false) ∨ (∃ k, i = .reset k ∧ s.rst.busy = false)
      ∨ (i = .tick ∧ s.rst.busy = true ∧ s.rst.deadline ≤ s.now + 1)

/-- GOC_SEND (R262) is GOC_ENCODE, then GOC_SER, then MUX_SEND on GOC: one record whose body is the serialised train,
4(2n+3) bytes. -/
def Obligations.GocSendWrites : Prop :=
  ∀ (bits : List Bit) (s : State),
    s.cfg.durationsOk = true → s.cfg.sizesOk = true → bits.length ≤ s.cfg.gocMaxBits →
    railAt s (s.cfg.gov .goc) ≠ .off →
    ∃ (es : List PulseEvent) (body bytes : Bytes),
      exec (.gocEncode bits) s = .next (s.pushRet [.events es])
        ∧ exec (.gocSer es) s = .next (s.pushRet [.bytes body])
        ∧ body.length = 4 * (2 * bits.length + 3)
        ∧ bytes = [s.cfg.preGoc, BitVec.ofNat 8 (body.length / 256), BitVec.ofNat 8 body.length] ++ body
        ∧ exec (.gocSend bits) s = .next (((s.pushTx bytes).pushRec [⟨.tx, .chan .goc, bytes⟩]).pushRet [.ok])

/-- EIN_SEND (R265): one EIN record with the frame of EIN_BUILD, and a wait for the address until now + resp_timeout. No
result is returned in this step. -/
def Obligations.EinSendIssues : Prop :=
  ∀ (addr opcode : Byte) (payload : Bytes) (s : State),
    s.wait = none → railAt s (s.cfg.gov .ein) ≠ .off → payload.length ≤ s.cfg.einMaxPayload →
    3 + payload.length + s.cfg.einCkLen ≤ 65535 →
    ∃ body bytes : Bytes,
      exec (.einBuild addr opcode payload) s = .next (s.pushRet [.bytes body])
        ∧ bytes = [s.cfg.preEin, BitVec.ofNat 8 (body.length / 256), BitVec.ofNat 8 body.length] ++ body
        ∧ exec (.einSend addr opcode payload) s
            = .next (((s.pushTx bytes).pushRec [⟨.tx, .chan .ein, bytes⟩]).setWait
                (some ⟨addr, s.now + s.cfg.respTimeout⟩))

/-- R266: while a wait is pending a new EIN_SEND is held; nothing is written and the wait stays (that the call is kept in
`held` is the model's choice, log entry 5). -/
def Obligations.EinSendHeld : Prop :=
  ∀ (addr opcode : Byte) (payload : Bytes) (s : State), s.wait.isSome = true →
    exec (.einSend addr opcode payload) s = .next (s.setHeld (s.held ++ [⟨addr, opcode, payload⟩]))

/-- R266, R267: a wait is bounded in ticks: when nothing but ticks comes, it is over after at most resp_timeout ticks, one
at least. -/
def Obligations.WaitEndsInTime : Prop :=
  ∀ (s : State) (n : Nat), DeadlinesInv s → max 1 s.cfg.respTimeout ≤ n →
    ∃ t, execAll (List.replicate n .tick) s = .next t ∧ t.wait = none

/-- MBUS_SEND (R270): with the fragments MBUS_FRAGMENT gives for the counter's identity, one record per fragment, the
bodies those of MBUS_BUILD, consecutive in index order, each observed; the counter goes up by 1 modulo 256; the result is
the identity and the number of fragments. A broadcast that does not fit writes nothing. -/
def Obligations.MbusSendWrites : Prop :=
  ∀ (src dst : Byte) (payload : Bytes) (s : State),
    s.cfg.sizesOk = true → s.cfg.mbusCrcLen ≤ 65000 → railAt s (s.cfg.gov .mbus) ≠ .off →
    ((payload.length ≤ s.cfg.mbusMaxChunk ∨ dst ≠ s.cfg.mbusBcast) →
        payload.length ≤ s.cfg.mbusMaxFrags * s.cfg.mbusMaxChunk →
        ∃ (ms : List MBusMessage) (records : List Bytes),
          exec (.mbusFragment src dst s.mbusNextId payload) s = .next (s.pushRet [.fragments ms])
            ∧ List.Forall₂ (fun m r => ∃ body,
                exec (.mbusBuild m.src m.dst m.msgId m.fragIndex m.fragCount m.chunk) s = .next (s.pushRet [.bytes body])
                  ∧ r = [s.cfg.preMbus, BitVec.ofNat 8 (body.length / 256), BitVec.ofNat 8 body.length] ++ body) ms records
            ∧ exec (.mbusSend src dst payload) s
                = .next ((((s.pushTx records.flatten).pushRec (records.map (fun r => ⟨.tx, .chan .mbus, r⟩))).setNextId
                    (s.mbusNextId + 1)).pushRet [.sent s.mbusNextId ms.length]))
      ∧ (s.cfg.mbusMaxChunk < payload.length → dst = s.cfg.mbusBcast →
          exec (.mbusSend src dst payload) s
            = .next (s.pushRet [.err (.broadcastTooLarge payload.length s.cfg.mbusMaxChunk)]))

/-- CANCEL (R268): a pending wait ends with Cancelled; with none pending nothing changes; the result is OK and TX keeps
what was written. -/
def Obligations.CancelEndsWait : Prop :=
  ∀ s : State,
    (s.wait = none → exec .cancel s = .next (s.pushRet [.ok]))
      ∧ (s.wait.isSome = true →
          exec .cancel s = .next (((s.pushRes [.einSend .cancelled]).setWait none).pushRet [.ok]))

/-- The snoop operations (R275) complete in every state: each is forwarded to the recorder and returns what the recorder
returns, the free value `Config.recorderAnswer` at the counter of the draws so far; no field of the block and neither TX
nor REC changes. The request log and the counter are the model's own (log entry 9). -/
def Obligations.SnoopForwards : Prop :=
  ∀ s : State,
    exec .snoopStart s
        = .next (((s.pushSnoop [.start]).setFreeCount (s.freeCount + 1)).pushRet
            [.fromRecorder (Config.recorderAnswer s.freeCount)])
      ∧ exec .snoopStop s
        = .next (((s.pushSnoop [.stop]).setFreeCount (s.freeCount + 1)).pushRet
            [.fromRecorder (Config.recorderAnswer s.freeCount)])
      ∧ exec .snoopExport s
        = .next (((s.pushSnoop [.exportTrace]).setFreeCount (s.freeCount + 1)).pushRet
            [.fromRecorder (Config.recorderAnswer s.freeCount)])

/-- R330: a failed operation leaves everything as it was but for the error it returns. -/
def Obligations.FailedOperationChangesNothing : Prop :=
  ∀ (i : Instr) (s t : State) (e : Err),
    exec i s = .next t → t.ret = s.ret ++ [.err e] → t = s.pushRet [.err e]

/-- R322, nothing stops the block. First, an instruction answers a next state exactly when it is in its domain; outside it
lie only the inputs of 93_implementation_defined.md U1 to U5 and, for a wire-format row, a unit that has no encoding, and
these are refused. The model's choice, not the spec's, are: that EIN_SEND with a wait pending has a next state, in which the
call is held (log entry 5; R266 has its step not enabled); that DISPATCH on an empty queue has one (log entry 4); that the
wire-format rows are steps at all, which complete or are refused (log entry 7). (A CRC of more than 65000 bytes, longer than
any record has room for, is set aside.) Second, what has been reported, the errors on EVT, RES and among the results
included, changes nothing later: whatever these logs held before, an instruction is refused or not as it would be, and
does and appends the same. Third, therefore, after an operation that failed every instruction is available as it was. -/
def Obligations.NothingStopsTheBlock : Prop :=
  (∀ (i : Instr) (s : State), s.cfg.durationsOk = true → s.cfg.sizesOk = true → s.cfg.mbusCrcLen ≤ 65000 →
      (inDomain s i → ∃ t, exec i s = .next t) ∧ (¬ inDomain s i → ∃ r, exec i s = .refused r))
    ∧ (∀ (i : Instr) (s : State) (ret : List Result) (evt : List Event) (res : List LateResult),
        (∀ t, exec i s = .next t →
            ∃ a b c, t.ret = s.ret ++ a ∧ t.evt = s.evt ++ b ∧ t.res = s.res ++ c
              ∧ exec i { s with ret := ret, evt := evt, res := res }
                  = .next { t with ret := ret ++ a, evt := evt ++ b, res := res ++ c })
          ∧ (∀ r, exec i s = .refused r → exec i { s with ret := ret, evt := evt, res := res } = .refused r))
    ∧ (∀ (i j : Instr) (s t : State) (e : Err), exec i s = .next t → t.ret = s.ret ++ [.err e] →
        (∀ u, exec j s = .next u → ∃ a, u.ret = s.ret ++ a ∧ exec j t = .next { u with ret := t.ret ++ a })
          ∧ (∀ r, exec j s = .refused r → exec j t = .refused r))

/-- TICK (R345, R334): the counter goes up by 1; then, in this order, reset completion, response timeout and the expiry of
the due entries in key order; everything else is unchanged. Completion writes every target's kept state back (R243). -/
def Obligations.TickEffects : Prop :=
  ∀ s : State, ∃ t : State,
    exec .tick s = .next t
      ∧ t.now = s.now + 1
      ∧ (let done := s.rst.busy = true ∧ s.rst.deadline ≤ s.now + 1
         (¬ done → t.rst = s.rst ∧ t.rail = s.rail) ∧ (done → t.rst = { s.rst with busy := false })
           ∧ (done → RailsInv s →
               (∀ x ∈ s.rst.restore, x.1 < s.rail.length → railAt t x.1 = x.2)
                 ∧ ∀ r, r ∉ s.rst.targets → railAt t r = railAt s r)
           ∧ (∃ a b, t.res = s.res ++ a ++ b ∧ (done → a = [.reset]) ∧ (¬ done → a = [])
               ∧ (s.wait = none → b = [] ∧ t.wait = none)
               ∧ (∀ w, s.wait = some w →
                   (w.deadline ≤ s.now + 1 → b = [.einSend (.err (.responseTimeout w.addr))] ∧ t.wait = none)
                     ∧ (s.now + 1 < w.deadline → b = [] ∧ t.wait = some w))))
      ∧ t.reasm = s.reasm.filter (fun x => decide (s.now + 1 < x.2.deadline))
      ∧ t.evt = s.evt ++ (s.reasm.filter (fun x => decide (x.2.deadline ≤ s.now + 1))).map
          (fun x => .error (.reassemblyTimeout x.1 x.2.chunks.length x.2.count))
      ∧ t = { s with
          now := t.now, rail := t.rail, rst := t.rst, res := t.res, wait := t.wait, reasm := t.reasm, evt := t.evt }

/-- REC_FAIL sets the status bit and nothing else (R328), and no instruction's outcome depends on the bit (10_state.md
R37): running it with the bit at another value gives the same outcome with the bit at that value. -/
def Obligations.RecorderFailureIsInvisible : Prop :=
  (∀ s : State, exec .recFail s = .next (s.setRecFail true))
    ∧ (∀ (i : Instr) (b : Bool) (s : State), i ≠ .recFail →
        (∀ t, exec i s = .next t → exec i (s.setRecFail b) = .next (t.setRecFail b) ∧ t.recFail = s.recFail)
          ∧ (∀ r, exec i s = .refused r → exec i (s.setRecFail b) = .refused r))

/-- The transport peer's units (30_encoding.md R96, R100, R102, R104) join the unread bytes of RX in order and change
nothing else (20_memory.md R60; that the wire-format rows are steps of the peer is the model's choice, log entry 7). -/
def Obligations.WireUnitsReachRx : Prop :=
  ∀ s : State,
    (∀ pre body, body.length ≤ 65535 →
        exec (.record pre body) s
          = .next (s.setRxIn (s.rxIn
              ++ ([pre, BitVec.ofNat 8 (body.length / 256), BitVec.ofNat 8 body.length] ++ body))))
      ∧ (∀ edge dur, dur < 2 ^ 24 →
          exec (.pulseWord edge dur) s
            = .next (s.setRxIn (s.rxIn
                ++ [if edge = .rise then (0x01 : Byte) else 0x00, BitVec.ofNat 8 (dur / 65536),
                    BitVec.ofNat 8 (dur / 256), BitVec.ofNat 8 dur])))
      ∧ (∀ dest opcode payload ck, payload.length ≤ 255 →
          exec (.einBody dest opcode payload ck) s
            = .next (s.setRxIn (s.rxIn ++ ([dest, opcode, BitVec.ofNat 8 payload.length] ++ payload ++ ck))))
      ∧ (∀ src dst mid idx cnt chunk crc, chunk.length ≤ 255 →
          exec (.mbusBody src dst mid idx cnt chunk crc) s
            = .next (s.setRxIn (s.rxIn
                ++ ([src, dst, mid, idx, cnt, BitVec.ofNat 8 chunk.length] ++ chunk ++ crc))))

/-- R51, R265, 10_state.md R39: every EIN_SEND that started a wait gets exactly one result and every accepted RESET exactly
one `Res(RESET, OK)`: results delivered plus calls pending change only when a call is accepted, and then by one. -/
def Obligations.OneResultPerSplitPhaseCall : Prop :=
  ∀ (i : Instr) (s t : State), exec i s = .next t →
    (einResults t + pendingWaits t = einResults s + pendingWaits s
        ∨ (∃ a o p, i = .einSend a o p) ∧ s.wait = none ∧ t.wait.isSome = true
          ∧ einResults t + pendingWaits t = einResults s + pendingWaits s + 1)
      ∧ (resetResults t + pendingResets t = resetResults s + pendingResets s
          ∨ (∃ k, i = .reset k) ∧ s.rst.busy = false ∧ t.rst.busy = true
            ∧ resetResults t + pendingResets t = resetResults s + pendingResets s + 1)

/-- R62, R38, R39, R40, R78: what has left the block is never retracted: every step only appends to TX, REC, EVT and RES;
and no step changes CFG. -/
def Obligations.LogsOnlyGrow : Prop :=
  ∀ (s t : State), step s = .next t →
    t.cfg = s.cfg ∧ s.tx <+: t.tx ∧ s.recLog <+: t.recLog ∧ s.evt <+: t.evt ∧ s.res <+: t.res ∧ s.ret <+: t.ret
      ∧ s.rxDone <+: t.rxDone

/-- 00_scope.md R14, 20_memory.md R69: the nine pure operations write no state, and two blocks of one configuration answer
alike, whatever else their states hold. -/
def Obligations.PureOperationsArePure : Prop :=
  ∀ (i : Instr) (s : State), isPureInstr i = true →
    (∃ r, exec i s = .next (s.pushRet [r]) ∧ ∀ u : State, u.cfg = s.cfg → exec i u = .next (u.pushRet [r]))
      ∨ (∃ r, exec i s = .refused r ∧ ∀ u : State, u.cfg = s.cfg → exec i u = .refused r)

/-- 20_memory.md R65: `bytes_of` is the inverse of `bits_of`, and `bits_of` of it on lists whose length is a multiple of
8; the most significant bit of each byte comes first. -/
def Obligations.BitsOfBytes : Prop :=
  (∀ bs : Bytes, bytesOf (bitsOf bs) = bs ∧ (bitsOf bs).length = 8 * bs.length)
    ∧ (∀ bits : List Bool, bits.length % 8 = 0 → bitsOf (bytesOf bits) = bits)
    ∧ (∀ (bs : Bytes) (i k : Nat) (b : Byte), bs[i]? = some b → k < 8 →
        (bitsOf bs)[8 * i + k]? = some (b.getLsbD (7 - k)))

/-- 60_exceptions.md R320, R321: the one-byte codes. -/
def Obligations.ErrorCodes : Prop :=
  Result.code .ok = some 0
    ∧ (∀ k i, Err.code (.timingViolation k i) = 1) ∧ (∀ c, Err.code (.frameChecksum c) = 2)
    ∧ (∀ c d a, Err.code (.frameLength c d a) = 3) ∧ (∀ k h n, Err.code (.reassemblyTimeout k h n) = 4)
    ∧ (∀ l m, Err.code (.broadcastTooLarge l m) = 5) ∧ (∀ c r, Err.code (.railNotEnergized c r) = 6)
    ∧ Err.code .resetInProgress = 7 ∧ (∀ a, Err.code (.responseTimeout a) = 8)
    ∧ (∀ b, Err.code (.unrecognizedTraffic b) = 9) ∧ Err.code .recorderWriteFailure = 10
    ∧ EinOutcome.code .cancelled = some 11

/-- 70_reset_and_hazards.md R361, R362: the state after block reset, for every configuration, in every component the spec
gives a value. -/
def Obligations.ResetState : Prop :=
  ∀ c : Cfg,
    (∀ r, railAt (State.construct c) r = .off) ∧ (State.construct c).rail.length = c.nrails
      ∧ (State.construct c).rst.busy = false ∧ (State.construct c).now = 0 ∧ (State.construct c).rx.phase = .idle
      ∧ (State.construct c).rx.buf = [] ∧ (State.construct c).rx.raw = [] ∧ (State.construct c).rx.poisoned = false
      ∧ (State.construct c).rxq = [] ∧ (State.construct c).reasm = [] ∧ (State.construct c).mbusNextId = 0
      ∧ (State.construct c).wait = none ∧ (State.construct c).recFail = false ∧ (State.construct c).cfg = c
      ∧ (State.construct c).tx = [] ∧ (State.construct c).recLog = [] ∧ (State.construct c).evt = []
      ∧ (State.construct c).res = []

/-- Every invariant holds of the state after reset, and of a block constructed for any configuration. -/
def Obligations.InvariantsAtReset : Prop :=
  ∀ c : Cfg,
    (RecorderInv (State.construct c) ∧ RailsInv (State.construct c) ∧ ReceiverInv (State.construct c)
        ∧ ReasmInv (State.construct c) ∧ DeadlinesInv (State.construct c) ∧ ErrorsInv (State.construct c))
      ∧ RecorderInv State.reset ∧ RailsInv State.reset ∧ ReceiverInv State.reset ∧ ReasmInv State.reset
      ∧ DeadlinesInv State.reset ∧ ErrorsInv State.reset

/-- R221, nothing is lost to the recorder: every step keeps it. -/
def Obligations.StepKeepsRecorderLaw : Prop :=
  ∀ s t : State, RecorderInv s → step s = .next t → RecorderInv t

/-- Every step keeps the rails as they should be: one register per rail, and the targets of a settling reset OFF (R22,
R240, R244). -/
def Obligations.StepKeepsRails : Prop := ∀ s t : State, RailsInv s → step s = .next t → RailsInv t

/-- Every step keeps the receiver as it should be: the parser holds exactly its record so far, nothing of a channel whose
rail is down is queued or awaited, a record of such a channel in progress is poisoned (R29, R206, R210, R234). -/
def Obligations.StepKeepsReceiver : Prop :=
  ∀ s t : State, RailsInv s → ReceiverInv s → step s = .next t → ReceiverInv t

/-- Every step keeps the reassembly table in canonical form with every entry incomplete and well-numbered (R33, R186). -/
def Obligations.StepKeepsReassembly : Prop := ∀ s t : State, ReasmInv s → step s = .next t → ReasmInv t

/-- Every step keeps the deadlines: none is passed over, none lies further ahead than its timer (R342, R345), and no step
lets an unreportable error out (R320). -/
def Obligations.StepKeepsDeadlinesAndErrors : Prop :=
  ∀ s t : State, DeadlinesInv s → ErrorsInv s → step s = .next t → DeadlinesInv t ∧ ErrorsInv t
end

