-- ==== Sys2Proof/Laws/Bytes.lean ====
section
/-! SUPPORT. What the byte-order helpers and the checksum functions give: numbers read back as written, lengths. -/

namespace Sys2Proof.Machine

@[simp] theorem byteAt_toNat (n k : Nat) : (byteAt n k).toNat = n / 256 ^ k % 256 := by
  simp [byteAt]

@[simp] theorem be16_length (n : Nat) : (be16 n).length = 2 := rfl
@[simp] theorem be24_length (n : Nat) : (be24 n).length = 3 := rfl

theorem ofBe_be16 (n : Nat) (h : n < 65536) : ofBe (be16 n) = n := by
  simp only [ofBe, be16, List.foldl_cons, List.foldl_nil, byteAt_toNat]; omega

theorem ofBe_be24 (n : Nat) (h : n < 2 ^ 24) : ofBe (be24 n) = n := by
  simp only [ofBe, be24, List.foldl_cons, List.foldl_nil, byteAt_toNat]; omega

theorem toNat_ofNat8 (n : Nat) : (BitVec.ofNat 8 n).toNat = n % 256 := by simp

theorem ofNat8_toNat (b : Byte) : BitVec.ofNat 8 b.toNat = b := by simp

/-- Two bytes are the `be16` of the number they spell. -/
theorem be16_of_bytes (hi lo : Byte) : be16 (hi.toNat * 256 + lo.toNat) = [hi, lo] := by
  have h1 := hi.isLt; have h2 := lo.isLt
  simp only [be16, List.cons.injEq, and_true]
  constructor <;> apply BitVec.eq_of_toNat_eq <;> simp <;> omega

/-- Three bytes are the `be24` of the number they spell. -/
theorem be24_of_bytes (a b c : Byte) : be24 (ofBe [a, b, c]) = [a, b, c] := by
  have h1 := a.isLt; have h2 := b.isLt; have h3 := c.isLt
  simp only [be24, ofBe, List.foldl_cons, List.foldl_nil, List.cons.injEq, and_true]
  refine ⟨?_, ?_, ?_⟩ <;> apply BitVec.eq_of_toNat_eq <;> simp <;> omega

theorem ofBe_two (a b : Byte) : ofBe [a, b] = a.toNat * 256 + b.toNat := by simp [ofBe]

theorem ofBe_three (a b c : Byte) : ofBe [a, b, c] = a.toNat * 65536 + b.toNat * 256 + c.toNat := by
  simp [ofBe]; omega

theorem ofBe_three_lt (a b c : Byte) : ofBe [a, b, c] < 2 ^ 24 := by
  have h1 := a.isLt; have h2 := b.isLt; have h3 := c.isLt
  simp only [ofBe, List.foldl_cons, List.foldl_nil]; omega

theorem ofBe_two_lt (a b : Byte) : ofBe [a, b] < 65536 := by
  have h1 := a.isLt; have h2 := b.isLt
  simp only [ofBe, List.foldl_cons, List.foldl_nil]; omega

@[simp] theorem fitBytes_length (n : Nat) (bs : Bytes) : (fitBytes n bs).length = n := by
  simp [fitBytes]; omega

/-- A function that already gives the configured length is used as it is (R9 clause (f)). -/
theorem fitBytes_of_length (n : Nat) (bs : Bytes) (h : bs.length = n) : fitBytes n bs = bs := by
  subst h; simp [fitBytes]

/-- R9 clause (f): `ein_ck` returns exactly `ein_ck_len` bytes. -/
@[simp] theorem einCk_length (c : Cfg) (bs : Bytes) : (einCk c bs).length = c.einCkLen := by simp [einCk]

/-- R9 clause (f): `mbus_crc` returns exactly `mbus_crc_len` bytes. -/
@[simp] theorem mbusCrc_length (c : Cfg) (bs : Bytes) : (mbusCrc c bs).length = c.mbusCrcLen := by simp [mbusCrc]

@[simp] theorem recordBytes_length (pre : Byte) (body : Bytes) : (recordBytes pre body).length = body.length + 3 := by
  simp [recordBytes]; omega

/-- A record's header as the spec spells it (R100). -/
theorem recordBytes_eq (pre : Byte) (body : Bytes) :
    recordBytes pre body = [pre, BitVec.ofNat 8 (body.length / 256), BitVec.ofNat 8 body.length] ++ body := by
  simp [recordBytes, be16, byteAt]

/-- A preamble selects its channel when the preambles are distinct (R101). -/
theorem channelOfPreamble_preamble (c : Cfg) (h : c.preamblesDistinct = true) (ch : Channel) :
    channelOfPreamble c (preamble c ch) = some ch := by
  simp [Cfg.preamblesDistinct] at h
  obtain ⟨⟨h1, h2⟩, h3⟩ := h
  cases ch <;> simp [channelOfPreamble, preamble, Ne.symm h1, Ne.symm h2, Ne.symm h3]

/-- What a byte selects is a channel whose preamble it is (R101). -/
theorem preamble_of_channelOfPreamble (c : Cfg) (b : Byte) (ch : Channel) (h : channelOfPreamble c b = some ch) :
    preamble c ch = b := by
  unfold channelOfPreamble at h
  split at h
  · cases h; simp_all [preamble]
  · split at h
    · cases h; simp_all [preamble]
    · split at h
      · cases h; simp_all [preamble]
      · cases h

/-- A byte that is no preamble selects nothing (R101). -/
theorem channelOfPreamble_none (c : Cfg) (b : Byte) (h : ∀ ch, b ≠ preamble c ch) : channelOfPreamble c b = none := by
  have h1 := h .goc; have h2 := h .ein; have h3 := h .mbus
  simp [preamble] at h1 h2 h3
  simp [channelOfPreamble, h1, h2, h3]

end Sys2Proof.Machine
end

