-- ==== Sys2Proof/Laws/Decode.lean ====
section
/-! SUPPORT. What each reader of Sys2Proof/Decode.lean gives on what the encoder writes, and what it has read when it gives
something. -/

namespace Sys2Proof

open Machine

theorem readBytes_append (bs rest : Bytes) : readBytes bs.length (bs ++ rest) = .ok (bs, rest) := by
  simp [readBytes]

theorem readBytes_append_of (n : Nat) (bs rest : Bytes) (h : bs.length = n) :
    readBytes n (bs ++ rest) = .ok (bs, rest) := by
  subst h; exact readBytes_append bs rest

theorem readBe_be16 (n : Nat) (rest : Bytes) (h : n < 65536) : readBe 2 (be16 n ++ rest) = .ok (n, rest) := by
  simp [readBe, readBytes_append_of 2 (be16 n) rest rfl, ofBe_be16 n h]

theorem readBe_be24 (n : Nat) (rest : Bytes) (h : n < 2 ^ 24) : readBe 3 (be24 n ++ rest) = .ok (n, rest) := by
  simp [readBe, readBytes_append_of 3 (be24 n) rest rfl, ofBe_be24 n h]

/-- How much fuel stands above the number does not matter. -/
theorem encodeHigh_fuel (k k' n : Nat) (h : n < k) (h' : n < k') : encodeHigh k n = encodeHigh k' n := by
  induction k generalizing k' n with
  | zero => omega
  | succ k ih =>
    cases k' with
    | zero => omega
    | succ k' =>
      simp only [encodeHigh]
      split
      · rfl
      · rw [ih k' (n / 128 - 1) (by omega) (by omega)]

theorem readNatFrom_high (k n : Nat) (rest : Bytes) (h : n < k) :
    readNatFrom 0 (encodeHigh k n ++ rest) = readNatFrom (n + 1) rest := by
  induction k generalizing n rest with
  | zero => omega
  | succ k ih =>
    rw [encodeHigh]
    split
    · rename_i hn
      have : (BitVec.ofNat 8 (128 + n)).toNat = 128 + n := by simp; omega
      rw [List.singleton_append, readNatFrom, this, if_neg (by omega), show 0 * 128 + (128 + n - 128) + 1 = n + 1 by omega]
    · have : (BitVec.ofNat 8 (128 + n % 128)).toNat = 128 + n % 128 := by simp; omega
      rw [List.append_assoc, ih _ _ (by omega), List.singleton_append, readNatFrom, this, if_neg (by omega),
        show (n / 128 - 1 + 1) * 128 + (128 + n % 128 - 128) + 1 = n + 1 by omega]

theorem readNat_encode (n : Nat) (rest : Bytes) : readNat (encodeNat n ++ rest) = .ok (n, rest) := by
  rw [readNat, encodeNat]
  split
  · rename_i hn
    have : (BitVec.ofNat 8 n).toNat = n := by simp; omega
    rw [List.singleton_append, readNatFrom, this, if_pos hn]
    simp
  · have : (BitVec.ofNat 8 (n % 128)).toNat = n % 128 := by simp; omega
    rw [List.append_assoc, readNatFrom_high _ _ _ (by omega), List.singleton_append, readNatFrom, this,
      if_pos (by omega), show (n / 128 - 1 + 1) * 128 + n % 128 = n by omega]

theorem readRailHigh_encode (c : Cfg) (rail : Nat) (rest : Bytes) (h : c.wideRails = true ∨ rail < 64) :
    readRailHigh c (encodeRailHigh c rail ++ rest) = .ok (rail / 64, rest) := by
  rw [readRailHigh, encodeRailHigh]
  split
  · exact readNat_encode _ _
  · rw [List.nil_append, show rail / 64 = 0 by rcases h with h | h <;> [contradiction; omega]]

theorem readByteList_encode (bs rest : Bytes) : readByteList (encodeByteList bs ++ rest) = .ok (bs, rest) := by
  rw [encodeByteList, List.append_assoc, readByteList, readNat_encode]
  exact readBytes_append bs rest

theorem readBit_encode (b : Bit) (rest : Bytes) : readBit (encodeBit b ++ rest) = .ok (b, rest) := by
  cases b <;> simp [readBit, encodeBit, readByte]

theorem readEdge_encode (e : Edge) (rest : Bytes) : readEdge (encodeEdge e :: rest) = .ok (e, rest) := by
  cases e <;> simp [readEdge, encodeEdge, readByte]

theorem readEvent_encode (e : PulseEvent) (rest : Bytes) : readEvent (encodeEvent e ++ rest) = .ok (e, rest) := by
  rw [encodeEvent, List.append_assoc, readEvent, readNat_encode]
  simp only [List.cons_append, readEdge_encode, readNat_encode]

/-- A list is read back when each of its elements is. -/
theorem readMany_encode {α : Type} (p : Reader α) (f : α → Bytes) (l : List α) (rest : Bytes)
    (h : ∀ x ∈ l, ∀ r, p (f x ++ r) = .ok (x, r)) : readMany p l.length (l.flatMap f ++ rest) = .ok (l, rest) := by
  induction l with
  | nil => simp [readMany]
  | cons x l ih =>
    rw [List.flatMap_cons, List.append_assoc, List.length_cons]
    simp only [readMany, h x (by simp), ih (fun y hy => h y (by simp [hy]))]

theorem readList_encode {α : Type} (p : Reader α) (f : α → Bytes) (l : List α) (rest : Bytes)
    (h : ∀ x ∈ l, ∀ r, p (f x ++ r) = .ok (x, r)) : readList p (encodeList f l ++ rest) = .ok (l, rest) := by
  rw [encodeList, List.append_assoc, readList, readNat_encode]
  exact readMany_encode p f l rest h

theorem readByte_ok (bs rest : Bytes) (b : Byte) (h : readByte bs = .ok (b, rest)) : bs = b :: rest := by
  cases bs with
  | nil => cases h
  | cons x xs => simp [readByte] at h; simp [h]

theorem readBytes_ok (n : Nat) (bs v rest : Bytes) (h : readBytes n bs = .ok (v, rest)) :
    v ++ rest = bs ∧ v.length = n := by
  simp only [readBytes] at h
  split at h
  · rename_i hn
    cases h
    exact ⟨List.take_append_drop n bs, by simp [hn]⟩
  · cases h

theorem readBe_ok (n v : Nat) (bs rest : Bytes) (h : readBe n bs = .ok (v, rest)) :
    ∃ w, w ++ rest = bs ∧ w.length = n ∧ ofBe w = v := by
  simp only [readBe] at h
  split at h
  · cases h
  · rename_i w r hw
    cases h
    exact ⟨w, (readBytes_ok n bs w rest hw).1, (readBytes_ok n bs w rest hw).2, rfl⟩

/-- The form of the groups that spell `acc - 1`, the groups read so far. -/
theorem readNatFrom_ok (acc v : Nat) (bs rest : Bytes) (h : readNatFrom acc bs = .ok (v, rest)) :
    (if acc = 0 then [] else encodeHigh acc (acc - 1)) ++ bs = encodeNat v ++ rest := by
  induction bs generalizing acc with
  | nil => cases h
  | cons b bs ih =>
    have hb := b.isLt
    have hof : ∀ m, m = b.toNat → BitVec.ofNat 8 m = b := by rintro m rfl; simp
    rw [readNatFrom] at h
    split at h
    · rename_i hlt
      simp only [Except.ok.injEq, Prod.mk.injEq] at h
      obtain ⟨rfl, rfl⟩ := h
      rw [encodeNat]
      by_cases h0 : acc = 0
      · rw [if_pos h0, if_pos (by omega), hof _ (by omega)]; rfl
      · rw [if_neg h0, if_neg (by omega), show (acc * 128 + b.toNat) / 128 - 1 = acc - 1 by omega, hof _ (by omega)]
        simpa using encodeHigh_fuel _ _ _ (by omega) (by omega)
    · rename_i hlt
      rw [← ih _ h, if_neg (by omega : ¬ acc * 128 + (b.toNat - 128) + 1 = 0), encodeHigh]
      by_cases h0 : acc = 0
      · rw [if_pos h0, if_pos (by omega), hof _ (by omega)]; rfl
      · rw [if_neg h0, if_neg (by omega), show (acc * 128 + (b.toNat - 128) + 1 - 1) / 128 - 1 = acc - 1 by omega, hof _ (by omega)]
        simpa using encodeHigh_fuel _ _ _ (by omega) (by omega)

theorem readNat_ok (v : Nat) (bs rest : Bytes) (h : readNat bs = .ok (v, rest)) : encodeNat v ++ rest = bs :=
  (readNatFrom_ok 0 v bs rest h).symm

/-- The high part that was read is the encoding of every index that has it. -/
theorem readRailHigh_ok (c : Cfg) (v rail : Nat) (bs rest : Bytes) (h : readRailHigh c bs = .ok (v, rest))
    (hv : rail / 64 = v) : encodeRailHigh c rail ++ rest = bs ∧ (c.wideRails = true ∨ rail < 64) := by
  subst hv
  rw [readRailHigh] at h
  rw [encodeRailHigh]
  split at h
  · rename_i hw
    rw [if_pos hw]
    exact ⟨readNat_ok _ _ _ h, .inl hw⟩
  · rename_i hw
    rw [Except.ok.injEq, Prod.mk.injEq] at h
    rw [if_neg hw]
    exact ⟨h.2.symm, .inr (by omega)⟩

theorem readBe3_ok (v : Nat) (bs rest : Bytes) (h : readBe 3 bs = .ok (v, rest)) :
    be24 v ++ rest = bs ∧ v < 2 ^ 24 := by
  obtain ⟨w, h1, h2, h3⟩ := readBe_ok 3 v bs rest h
  match w, h2 with
  | [a, b, c], _ => subst h3; rw [be24_of_bytes]; exact ⟨h1, ofBe_three_lt a b c⟩

theorem readBe2_ok (v : Nat) (bs rest : Bytes) (h : readBe 2 bs = .ok (v, rest)) :
    be16 v ++ rest = bs ∧ v < 65536 := by
  obtain ⟨w, h1, h2, h3⟩ := readBe_ok 2 v bs rest h
  match w, h2 with
  | [a, b], _ => subst h3; rw [ofBe_two, be16_of_bytes]; exact ⟨h1, by rw [← ofBe_two]; exact ofBe_two_lt a b⟩

theorem readByteList_ok (bs v rest : Bytes) (h : readByteList bs = .ok (v, rest)) : encodeByteList v ++ rest = bs := by
  simp only [readByteList] at h
  split at h
  · cases h
  · rename_i n r hn
    obtain ⟨h3, h4⟩ := readBytes_ok n r v rest h
    subst h4
    rw [encodeByteList, List.append_assoc, h3, readNat_ok _ bs r hn]

theorem readBit_ok (bs rest : Bytes) (b : Bit) (h : readBit bs = .ok (b, rest)) : encodeBit b ++ rest = bs := by
  simp only [readBit] at h
  split at h
  · cases h
  · rename_i x r hx
    have := readByte_ok _ _ _ hx
    split at h
    · cases h; simp_all [encodeBit]
    · split at h
      · cases h; simp_all [encodeBit]
      · cases h

theorem readEdge_ok (bs rest : Bytes) (e : Edge) (h : readEdge bs = .ok (e, rest)) : encodeEdge e :: rest = bs := by
  simp only [readEdge] at h
  split at h
  · cases h
  · rename_i x r hx
    have := readByte_ok _ _ _ hx
    split at h
    · cases h; simp_all [encodeEdge]
    · split at h
      · cases h; simp_all [encodeEdge]
      · cases h

theorem readEvent_ok (bs rest : Bytes) (e : PulseEvent) (h : readEvent bs = .ok (e, rest)) : encodeEvent e ++ rest = bs := by
  simp only [readEvent] at h
  split at h
  · cases h
  · rename_i t r1 h1
    split at h
    · cases h
    · rename_i edge r2 h2
      split at h
      · cases h
      · rename_i dur r3 h3
        cases h
        simp [encodeEvent, readNat_ok _ _ _ h3, readEdge_ok _ _ _ h2, readNat_ok _ _ _ h1]

/-- What `n` reads have read, when each read is the encoding of what it gives. -/
theorem readMany_ok {α : Type} (p : Reader α) (f : α → Bytes) (hp : ∀ bs r x, p bs = .ok (x, r) → f x ++ r = bs)
    (n : Nat) (bs rest : Bytes) (l : List α) (h : readMany p n bs = .ok (l, rest)) :
    l.flatMap f ++ rest = bs ∧ l.length = n := by
  induction n generalizing bs l with
  | zero => simp [readMany] at h; obtain ⟨rfl, rfl⟩ := h; simp
  | succ n ih =>
    simp only [readMany] at h
    split at h
    · cases h
    · rename_i x r hx
      split at h
      · cases h
      · rename_i xs r' hxs
        cases h
        obtain ⟨h1, h2⟩ := ih _ _ hxs
        exact ⟨by rw [List.flatMap_cons, List.append_assoc, h1, hp _ _ _ hx], by simp [h2]⟩

theorem readList_ok {α : Type} (p : Reader α) (f : α → Bytes) (hp : ∀ bs r x, p bs = .ok (x, r) → f x ++ r = bs)
    (bs rest : Bytes) (l : List α) (h : readList p bs = .ok (l, rest)) : encodeList f l ++ rest = bs := by
  simp only [readList] at h
  split at h
  · cases h
  · rename_i n r hn
    obtain ⟨h3, h4⟩ := readMany_ok p f hp n r rest l h
    subst h4
    rw [encodeList, List.append_assoc, h3, readNat_ok _ bs r hn]

/-- A constructor applied to what was read. -/
theorem mapRead_ok {α β : Type} (f : α → β) (r : Except DecodeError (α × Bytes)) (y : β) (rest : Bytes)
    (h : mapRead f r = .ok (y, rest)) : ∃ x, r = .ok (x, rest) ∧ f x = y := by
  cases r with
  | error e => cases h
  | ok v => cases h; exact ⟨v.1, rfl, rfl⟩

end Sys2Proof
end

