-- ==== Sys2Proof/Laws/Framers.lean ====
section
/-! SUPPORT. The EIN and MBus framers: what a parser answers on a body cut into its fields, what a parsed body is made of,
and the shape of the fragments. -/

namespace Sys2Proof.Machine

/-- A body shorter than header and checksum (R155). -/
theorem einParse_short (c : Cfg) (body : Bytes) (h : body.length < 3 + c.einCkLen) :
    einParse c body = .error (.frameLength .ein none body.length) := by
  rw [einParse, if_pos h]

/-- The verdict on a body cut into its fields (R155). -/
theorem einParse_split (c : Cfg) (dest opcode len : Byte) (payload ck : Bytes) (hck : ck.length = c.einCkLen) :
    einParse c (dest :: opcode :: len :: (payload ++ ck))
      = if len.toNat ≠ payload.length then .error (.frameLength .ein (some len.toNat) payload.length)
        else if einCk c (dest :: opcode :: len :: payload) ≠ ck then .error (.frameChecksum .ein)
        else .ok ⟨dest, opcode, payload, ck⟩ := by
  have hl : (dest :: opcode :: len :: (payload ++ ck)).length = payload.length + 3 + c.einCkLen := by simp [hck]; omega
  have ht : (dest :: opcode :: len :: (payload ++ ck)).take (payload.length + 3) = dest :: opcode :: len :: payload := by
    simp
  have hd : (dest :: opcode :: len :: (payload ++ ck)).drop (payload.length + 3) = ck := by simp
  have h2 : (dest :: opcode :: len :: (payload ++ ck)).getD 2 0 = len := rfl
  rw [einParse, if_neg (by omega), hl, h2,
    show payload.length + 3 + c.einCkLen - 3 - c.einCkLen = payload.length by omega,
    show payload.length + 3 + c.einCkLen - c.einCkLen = payload.length + 3 by omega, ht, hd]
  by_cases h : len.toNat = payload.length
  · rw [if_neg (not_not.2 h), if_neg (not_not.2 h)]
    simp [h]
  · rw [if_pos h, if_pos h]

/-- What a body that parses is made of (R155). -/
theorem einParse_ok (c : Cfg) (body : Bytes) (f : EinFrame) (h : einParse c body = .ok f) :
    body = einHead f.dest f.opcode f.payload ++ f.checksum ∧ f.checksum = einCk c (einHead f.dest f.opcode f.payload)
      ∧ f.payload.length ≤ 255 := by
  by_cases hs : body.length < 3 + c.einCkLen
  · rw [einParse_short c body hs] at h; cases h
  · match body, hs with
    | [], hs | [_], hs | [_, _], hs => exact absurd (show _ < 3 + c.einCkLen by simp only [List.length]; omega) hs
    | dest :: opcode :: len :: tail, hs =>
      simp only [List.length_cons] at hs
      obtain ⟨payload, ck, rfl, hck⟩ : ∃ payload ck, tail = payload ++ ck ∧ ck.length = c.einCkLen :=
        ⟨_, _, (List.take_append_drop (tail.length - c.einCkLen) tail).symm, by simp; omega⟩
      rw [einParse_split c dest opcode len payload ck hck] at h
      split at h
      · cases h
      · rename_i hlen
        rw [ne_eq, not_not] at hlen
        split at h
        · cases h
        · rename_i hsum
          cases h
          rw [ne_eq, not_not] at hsum
          have hb : BitVec.ofNat 8 payload.length = len := by rw [← hlen, ofNat8_toNat]
          have := len.isLt
          exact ⟨by simp [einHead, hb], by simp [einHead, hb, hsum], by simp only; omega⟩

/-- A body shorter than header and CRC (R176). -/
theorem mbusParse_short (c : Cfg) (body : Bytes) (h : body.length < 6 + c.mbusCrcLen) :
    mbusParse c body = .error (.frameLength .mbus none body.length) := by
  rw [mbusParse, if_pos h]

/-- The verdict on a body cut into its fields (R176). -/
theorem mbusParse_split (c : Cfg) (src dst mid idx cnt len : Byte) (chunk crc : Bytes)
    (hcrc : crc.length = c.mbusCrcLen) :
    mbusParse c (src :: dst :: mid :: idx :: cnt :: len :: (chunk ++ crc))
      = if len.toNat ≠ chunk.length then .error (.frameLength .mbus (some len.toNat) chunk.length)
        else if mbusCrc c (src :: dst :: mid :: idx :: cnt :: len :: chunk) ≠ crc then .error (.frameChecksum .mbus)
        else .ok ⟨src, dst, mid, idx, cnt, chunk, crc⟩ := by
  have hl : (src :: dst :: mid :: idx :: cnt :: len :: (chunk ++ crc)).length = chunk.length + 6 + c.mbusCrcLen := by
    simp [hcrc]; omega
  have ht : (src :: dst :: mid :: idx :: cnt :: len :: (chunk ++ crc)).take (chunk.length + 6)
      = src :: dst :: mid :: idx :: cnt :: len :: chunk := by
    simp
  have hd : (src :: dst :: mid :: idx :: cnt :: len :: (chunk ++ crc)).drop (chunk.length + 6) = crc := by simp
  have h2 : (src :: dst :: mid :: idx :: cnt :: len :: (chunk ++ crc)).getD 5 0 = len := rfl
  rw [mbusParse, if_neg (by omega), hl, h2,
    show chunk.length + 6 + c.mbusCrcLen - 6 - c.mbusCrcLen = chunk.length by omega,
    show chunk.length + 6 + c.mbusCrcLen - c.mbusCrcLen = chunk.length + 6 by omega, ht, hd]
  by_cases h : len.toNat = chunk.length
  · rw [if_neg (not_not.2 h), if_neg (not_not.2 h)]
    simp [h]
  · rw [if_pos h, if_pos h]

/-- A message whose chunk fits is built (R174). -/
theorem mbusBuild_ok (c : Cfg) (m : MBusMessage) (h : m.chunk.length ≤ 255) :
    mbusBuild c m = .ok (mbusHead m ++ mbusCrc c (mbusHead m)) := by
  rw [mbusBuild, if_neg (by omega)]

/-- A built body is header, chunk and CRC long (R174). -/
theorem mbusBuild_length (c : Cfg) (m : MBusMessage) (body : Bytes) (h : mbusBuild c m = .ok body) :
    body.length = 6 + m.chunk.length + c.mbusCrcLen ∧ m.chunk.length ≤ 255 := by
  rw [mbusBuild] at h
  split at h
  · cases h
  · cases h; simp [mbusHead]; omega

/-- The chunks of the fragments cut every `mc` bytes are the payload (R180). -/
theorem chunks_join (payload : Bytes) (mc n : Nat) :
    (List.range n).flatMap (fun i => (payload.drop (i * mc)).take mc) = payload.take (n * mc) := by
  induction n with
  | zero => simp
  | succ n ih =>
    rw [List.range_succ, List.flatMap_append, ih, Nat.succ_mul, List.take_add]
    simp

/-- The number of fragments is the payload's length over the chunk size, rounded up (R180). -/
theorem fragmentCount_bounds (n mc : Nat) (hmc : 1 ≤ mc) (hn : 1 ≤ n) :
    (fragmentCount n mc - 1) * mc < n ∧ n ≤ fragmentCount n mc * mc ∧ 1 ≤ fragmentCount n mc := by
  have h1 : fragmentCount n mc * mc ≤ n + mc - 1 := Nat.div_mul_le_self _ _
  have h2 : n + mc - 1 < (fragmentCount n mc + 1) * mc := by
    have := Nat.lt_mul_div_succ (n + mc - 1) (show 0 < mc by omega)
    rwa [Nat.mul_comm] at this
  have h3 : 1 ≤ fragmentCount n mc := (Nat.one_le_div_iff (by omega)).2 (by omega)
  refine ⟨?_, ?_, h3⟩
  · rw [Nat.sub_mul, Nat.one_mul]; omega
  · rw [Nat.succ_mul] at h2; omega

/-- `ceil(n / mc)` is above `f` exactly when `n` bytes do not fit `f` fragments (R180). -/
theorem lt_fragmentCount_iff (n mc f : Nat) (hmc : 1 ≤ mc) : f < fragmentCount n mc ↔ f * mc < n := by
  rw [fragmentCount, Nat.lt_iff_add_one_le, Nat.le_div_iff_mul_le (by omega), Nat.succ_mul]
  omega

/-- The places of the fragments: length of the list and what stands at each index (R180). -/
theorem fragments_getElem? (src dst mid : Byte) (payload : Bytes) (mc n k : Nat) (m : MBusMessage)
    (h : ((List.range n).map (fragmentAt src dst mid payload mc n))[k]? = some m) :
    k < n ∧ m = fragmentAt src dst mid payload mc n k := by
  rw [List.getElem?_map] at h
  obtain ⟨i, hi, rfl⟩ := Option.map_eq_some_iff.1 h
  obtain ⟨hlt, hi⟩ := List.getElem?_eq_some_iff.1 hi
  simp only [List.length_range] at hlt
  simp only [List.getElem_range] at hi
  subst hi
  exact ⟨hlt, rfl⟩

end Sys2Proof.Machine
end

