-- ==== Sys2Proof/Laws/State.lean ====
section
/-! SUPPORT. One lemma per field per update of State, true by rfl: what an update writes and what it leaves alone. -/

namespace Sys2Proof.Machine

section setRail
variable (s : State) (v : List RailState)
@[simp] theorem State.setRail_cfg : (s.setRail v).cfg = s.cfg := rfl
@[simp] theorem State.setRail_rail : (s.setRail v).rail = v := rfl
@[simp] theorem State.setRail_rst : (s.setRail v).rst = s.rst := rfl
@[simp] theorem State.setRail_now : (s.setRail v).now = s.now := rfl
@[simp] theorem State.setRail_rx : (s.setRail v).rx = s.rx := rfl
@[simp] theorem State.setRail_rxq : (s.setRail v).rxq = s.rxq := rfl
@[simp] theorem State.setRail_reasm : (s.setRail v).reasm = s.reasm := rfl
@[simp] theorem State.setRail_mbusNextId : (s.setRail v).mbusNextId = s.mbusNextId := rfl
@[simp] theorem State.setRail_wait : (s.setRail v).wait = s.wait := rfl
@[simp] theorem State.setRail_recFail : (s.setRail v).recFail = s.recFail := rfl
@[simp] theorem State.setRail_tx : (s.setRail v).tx = s.tx := rfl
@[simp] theorem State.setRail_recLog : (s.setRail v).recLog = s.recLog := rfl
@[simp] theorem State.setRail_evt : (s.setRail v).evt = s.evt := rfl
@[simp] theorem State.setRail_res : (s.setRail v).res = s.res := rfl
@[simp] theorem State.setRail_ret : (s.setRail v).ret = s.ret := rfl
@[simp] theorem State.setRail_snoop : (s.setRail v).snoop = s.snoop := rfl
@[simp] theorem State.setRail_rxIn : (s.setRail v).rxIn = s.rxIn := rfl
@[simp] theorem State.setRail_rxDone : (s.setRail v).rxDone = s.rxDone := rfl
@[simp] theorem State.setRail_held : (s.setRail v).held = s.held := rfl
@[simp] theorem State.setRail_turns : (s.setRail v).turns = s.turns := rfl
@[simp] theorem State.setRail_inp : (s.setRail v).inp = s.inp := rfl
@[simp] theorem State.setRail_freeCount : (s.setRail v).freeCount = s.freeCount := rfl
end setRail

section setRst
variable (s : State) (v : ResetSeq)
@[simp] theorem State.setRst_cfg : (s.setRst v).cfg = s.cfg := rfl
@[simp] theorem State.setRst_rail : (s.setRst v).rail = s.rail := rfl
@[simp] theorem State.setRst_rst : (s.setRst v).rst = v := rfl
@[simp] theorem State.setRst_now : (s.setRst v).now = s.now := rfl
@[simp] theorem State.setRst_rx : (s.setRst v).rx = s.rx := rfl
@[simp] theorem State.setRst_rxq : (s.setRst v).rxq = s.rxq := rfl
@[simp] theorem State.setRst_reasm : (s.setRst v).reasm = s.reasm := rfl
@[simp] theorem State.setRst_mbusNextId : (s.setRst v).mbusNextId = s.mbusNextId := rfl
@[simp] theorem State.setRst_wait : (s.setRst v).wait = s.wait := rfl
@[simp] theorem State.setRst_recFail : (s.setRst v).recFail = s.recFail := rfl
@[simp] theorem State.setRst_tx : (s.setRst v).tx = s.tx := rfl
@[simp] theorem State.setRst_recLog : (s.setRst v).recLog = s.recLog := rfl
@[simp] theorem State.setRst_evt : (s.setRst v).evt = s.evt := rfl
@[simp] theorem State.setRst_res : (s.setRst v).res = s.res := rfl
@[simp] theorem State.setRst_ret : (s.setRst v).ret = s.ret := rfl
@[simp] theorem State.setRst_snoop : (s.setRst v).snoop = s.snoop := rfl
@[simp] theorem State.setRst_rxIn : (s.setRst v).rxIn = s.rxIn := rfl
@[simp] theorem State.setRst_rxDone : (s.setRst v).rxDone = s.rxDone := rfl
@[simp] theorem State.setRst_held : (s.setRst v).held = s.held := rfl
@[simp] theorem State.setRst_turns : (s.setRst v).turns = s.turns := rfl
@[simp] theorem State.setRst_inp : (s.setRst v).inp = s.inp := rfl
@[simp] theorem State.setRst_freeCount : (s.setRst v).freeCount = s.freeCount := rfl
end setRst

section setNow
variable (s : State) (v : Nat)
@[simp] theorem State.setNow_cfg : (s.setNow v).cfg = s.cfg := rfl
@[simp] theorem State.setNow_rail : (s.setNow v).rail = s.rail := rfl
@[simp] theorem State.setNow_rst : (s.setNow v).rst = s.rst := rfl
@[simp] theorem State.setNow_now : (s.setNow v).now = v := rfl
@[simp] theorem State.setNow_rx : (s.setNow v).rx = s.rx := rfl
@[simp] theorem State.setNow_rxq : (s.setNow v).rxq = s.rxq := rfl
@[simp] theorem State.setNow_reasm : (s.setNow v).reasm = s.reasm := rfl
@[simp] theorem State.setNow_mbusNextId : (s.setNow v).mbusNextId = s.mbusNextId := rfl
@[simp] theorem State.setNow_wait : (s.setNow v).wait = s.wait := rfl
@[simp] theorem State.setNow_recFail : (s.setNow v).recFail = s.recFail := rfl
@[simp] theorem State.setNow_tx : (s.setNow v).tx = s.tx := rfl
@[simp] theorem State.setNow_recLog : (s.setNow v).recLog = s.recLog := rfl
@[simp] theorem State.setNow_evt : (s.setNow v).evt = s.evt := rfl
@[simp] theorem State.setNow_res : (s.setNow v).res = s.res := rfl
@[simp] theorem State.setNow_ret : (s.setNow v).ret = s.ret := rfl
@[simp] theorem State.setNow_snoop : (s.setNow v).snoop = s.snoop := rfl
@[simp] theorem State.setNow_rxIn : (s.setNow v).rxIn = s.rxIn := rfl
@[simp] theorem State.setNow_rxDone : (s.setNow v).rxDone = s.rxDone := rfl
@[simp] theorem State.setNow_held : (s.setNow v).held = s.held := rfl
@[simp] theorem State.setNow_turns : (s.setNow v).turns = s.turns := rfl
@[simp] theorem State.setNow_inp : (s.setNow v).inp = s.inp := rfl
@[simp] theorem State.setNow_freeCount : (s.setNow v).freeCount = s.freeCount := rfl
end setNow

section setRx
variable (s : State) (v : RxParser)
@[simp] theorem State.setRx_cfg : (s.setRx v).cfg = s.cfg := rfl
@[simp] theorem State.setRx_rail : (s.setRx v).rail = s.rail := rfl
@[simp] theorem State.setRx_rst : (s.setRx v).rst = s.rst := rfl
@[simp] theorem State.setRx_now : (s.setRx v).now = s.now := rfl
@[simp] theorem State.setRx_rx : (s.setRx v).rx = v := rfl
@[simp] theorem State.setRx_rxq : (s.setRx v).rxq = s.rxq := rfl
@[simp] theorem State.setRx_reasm : (s.setRx v).reasm = s.reasm := rfl
@[simp] theorem State.setRx_mbusNextId : (s.setRx v).mbusNextId = s.mbusNextId := rfl
@[simp] theorem State.setRx_wait : (s.setRx v).wait = s.wait := rfl
@[simp] theorem State.setRx_recFail : (s.setRx v).recFail = s.recFail := rfl
@[simp] theorem State.setRx_tx : (s.setRx v).tx = s.tx := rfl
@[simp] theorem State.setRx_recLog : (s.setRx v).recLog = s.recLog := rfl
@[simp] theorem State.setRx_evt : (s.setRx v).evt = s.evt := rfl
@[simp] theorem State.setRx_res : (s.setRx v).res = s.res := rfl
@[simp] theorem State.setRx_ret : (s.setRx v).ret = s.ret := rfl
@[simp] theorem State.setRx_snoop : (s.setRx v).snoop = s.snoop := rfl
@[simp] theorem State.setRx_rxIn : (s.setRx v).rxIn = s.rxIn := rfl
@[simp] theorem State.setRx_rxDone : (s.setRx v).rxDone = s.rxDone := rfl
@[simp] theorem State.setRx_held : (s.setRx v).held = s.held := rfl
@[simp] theorem State.setRx_turns : (s.setRx v).turns = s.turns := rfl
@[simp] theorem State.setRx_inp : (s.setRx v).inp = s.inp := rfl
@[simp] theorem State.setRx_freeCount : (s.setRx v).freeCount = s.freeCount := rfl
end setRx

section setRxq
variable (s : State) (v : List (Channel × Bytes))
@[simp] theorem State.setRxq_cfg : (s.setRxq v).cfg = s.cfg := rfl
@[simp] theorem State.setRxq_rail : (s.setRxq v).rail = s.rail := rfl
@[simp] theorem State.setRxq_rst : (s.setRxq v).rst = s.rst := rfl
@[simp] theorem State.setRxq_now : (s.setRxq v).now = s.now := rfl
@[simp] theorem State.setRxq_rx : (s.setRxq v).rx = s.rx := rfl
@[simp] theorem State.setRxq_rxq : (s.setRxq v).rxq = v := rfl
@[simp] theorem State.setRxq_reasm : (s.setRxq v).reasm = s.reasm := rfl
@[simp] theorem State.setRxq_mbusNextId : (s.setRxq v).mbusNextId = s.mbusNextId := rfl
@[simp] theorem State.setRxq_wait : (s.setRxq v).wait = s.wait := rfl
@[simp] theorem State.setRxq_recFail : (s.setRxq v).recFail = s.recFail := rfl
@[simp] theorem State.setRxq_tx : (s.setRxq v).tx = s.tx := rfl
@[simp] theorem State.setRxq_recLog : (s.setRxq v).recLog = s.recLog := rfl
@[simp] theorem State.setRxq_evt : (s.setRxq v).evt = s.evt := rfl
@[simp] theorem State.setRxq_res : (s.setRxq v).res = s.res := rfl
@[simp] theorem State.setRxq_ret : (s.setRxq v).ret = s.ret := rfl
@[simp] theorem State.setRxq_snoop : (s.setRxq v).snoop = s.snoop := rfl
@[simp] theorem State.setRxq_rxIn : (s.setRxq v).rxIn = s.rxIn := rfl
@[simp] theorem State.setRxq_rxDone : (s.setRxq v).rxDone = s.rxDone := rfl
@[simp] theorem State.setRxq_held : (s.setRxq v).held = s.held := rfl
@[simp] theorem State.setRxq_turns : (s.setRxq v).turns = s.turns := rfl
@[simp] theorem State.setRxq_inp : (s.setRxq v).inp = s.inp := rfl
@[simp] theorem State.setRxq_freeCount : (s.setRxq v).freeCount = s.freeCount := rfl
end setRxq

section setReasm
variable (s : State) (v : List (Key × ReasmEntry))
@[simp] theorem State.setReasm_cfg : (s.setReasm v).cfg = s.cfg := rfl
@[simp] theorem State.setReasm_rail : (s.setReasm v).rail = s.rail := rfl
@[simp] theorem State.setReasm_rst : (s.setReasm v).rst = s.rst := rfl
@[simp] theorem State.setReasm_now : (s.setReasm v).now = s.now := rfl
@[simp] theorem State.setReasm_rx : (s.setReasm v).rx = s.rx := rfl
@[simp] theorem State.setReasm_rxq : (s.setReasm v).rxq = s.rxq := rfl
@[simp] theorem State.setReasm_reasm : (s.setReasm v).reasm = v := rfl
@[simp] theorem State.setReasm_mbusNextId : (s.setReasm v).mbusNextId = s.mbusNextId := rfl
@[simp] theorem State.setReasm_wait : (s.setReasm v).wait = s.wait := rfl
@[simp] theorem State.setReasm_recFail : (s.setReasm v).recFail = s.recFail := rfl
@[simp] theorem State.setReasm_tx : (s.setReasm v).tx = s.tx := rfl
@[simp] theorem State.setReasm_recLog : (s.setReasm v).recLog = s.recLog := rfl
@[simp] theorem State.setReasm_evt : (s.setReasm v).evt = s.evt := rfl
@[simp] theorem State.setReasm_res : (s.setReasm v).res = s.res := rfl
@[simp] theorem State.setReasm_ret : (s.setReasm v).ret = s.ret := rfl
@[simp] theorem State.setReasm_snoop : (s.setReasm v).snoop = s.snoop := rfl
@[simp] theorem State.setReasm_rxIn : (s.setReasm v).rxIn = s.rxIn := rfl
@[simp] theorem State.setReasm_rxDone : (s.setReasm v).rxDone = s.rxDone := rfl
@[simp] theorem State.setReasm_held : (s.setReasm v).held = s.held := rfl
@[simp] theorem State.setReasm_turns : (s.setReasm v).turns = s.turns := rfl
@[simp] theorem State.setReasm_inp : (s.setReasm v).inp = s.inp := rfl
@[simp] theorem State.setReasm_freeCount : (s.setReasm v).freeCount = s.freeCount := rfl
end setReasm

section setNextId
variable (s : State) (v : Byte)
@[simp] theorem State.setNextId_cfg : (s.setNextId v).cfg = s.cfg := rfl
@[simp] theorem State.setNextId_rail : (s.setNextId v).rail = s.rail := rfl
@[simp] theorem State.setNextId_rst : (s.setNextId v).rst = s.rst := rfl
@[simp] theorem State.setNextId_now : (s.setNextId v).now = s.now := rfl
@[simp] theorem State.setNextId_rx : (s.setNextId v).rx = s.rx := rfl
@[simp] theorem State.setNextId_rxq : (s.setNextId v).rxq = s.rxq := rfl
@[simp] theorem State.setNextId_reasm : (s.setNextId v).reasm = s.reasm := rfl
@[simp] theorem State.setNextId_mbusNextId : (s.setNextId v).mbusNextId = v := rfl
@[simp] theorem State.setNextId_wait : (s.setNextId v).wait = s.wait := rfl
@[simp] theorem State.setNextId_recFail : (s.setNextId v).recFail = s.recFail := rfl
@[simp] theorem State.setNextId_tx : (s.setNextId v).tx = s.tx := rfl
@[simp] theorem State.setNextId_recLog : (s.setNextId v).recLog = s.recLog := rfl
@[simp] theorem State.setNextId_evt : (s.setNextId v).evt = s.evt := rfl
@[simp] theorem State.setNextId_res : (s.setNextId v).res = s.res := rfl
@[simp] theorem State.setNextId_ret : (s.setNextId v).ret = s.ret := rfl
@[simp] theorem State.setNextId_snoop : (s.setNextId v).snoop = s.snoop := rfl
@[simp] theorem State.setNextId_rxIn : (s.setNextId v).rxIn = s.rxIn := rfl
@[simp] theorem State.setNextId_rxDone : (s.setNextId v).rxDone = s.rxDone := rfl
@[simp] theorem State.setNextId_held : (s.setNextId v).held = s.held := rfl
@[simp] theorem State.setNextId_turns : (s.setNextId v).turns = s.turns := rfl
@[simp] theorem State.setNextId_inp : (s.setNextId v).inp = s.inp := rfl
@[simp] theorem State.setNextId_freeCount : (s.setNextId v).freeCount = s.freeCount := rfl
end setNextId

section setWait
variable (s : State) (v : Option Wait)
@[simp] theorem State.setWait_cfg : (s.setWait v).cfg = s.cfg := rfl
@[simp] theorem State.setWait_rail : (s.setWait v).rail = s.rail := rfl
@[simp] theorem State.setWait_rst : (s.setWait v).rst = s.rst := rfl
@[simp] theorem State.setWait_now : (s.setWait v).now = s.now := rfl
@[simp] theorem State.setWait_rx : (s.setWait v).rx = s.rx := rfl
@[simp] theorem State.setWait_rxq : (s.setWait v).rxq = s.rxq := rfl
@[simp] theorem State.setWait_reasm : (s.setWait v).reasm = s.reasm := rfl
@[simp] theorem State.setWait_mbusNextId : (s.setWait v).mbusNextId = s.mbusNextId := rfl
@[simp] theorem State.setWait_wait : (s.setWait v).wait = v := rfl
@[simp] theorem State.setWait_recFail : (s.setWait v).recFail = s.recFail := rfl
@[simp] theorem State.setWait_tx : (s.setWait v).tx = s.tx := rfl
@[simp] theorem State.setWait_recLog : (s.setWait v).recLog = s.recLog := rfl
@[simp] theorem State.setWait_evt : (s.setWait v).evt = s.evt := rfl
@[simp] theorem State.setWait_res : (s.setWait v).res = s.res := rfl
@[simp] theorem State.setWait_ret : (s.setWait v).ret = s.ret := rfl
@[simp] theorem State.setWait_snoop : (s.setWait v).snoop = s.snoop := rfl
@[simp] theorem State.setWait_rxIn : (s.setWait v).rxIn = s.rxIn := rfl
@[simp] theorem State.setWait_rxDone : (s.setWait v).rxDone = s.rxDone := rfl
@[simp] theorem State.setWait_held : (s.setWait v).held = s.held := rfl
@[simp] theorem State.setWait_turns : (s.setWait v).turns = s.turns := rfl
@[simp] theorem State.setWait_inp : (s.setWait v).inp = s.inp := rfl
@[simp] theorem State.setWait_freeCount : (s.setWait v).freeCount = s.freeCount := rfl
end setWait

section setRecFail
variable (s : State) (v : Bool)
@[simp] theorem State.setRecFail_cfg : (s.setRecFail v).cfg = s.cfg := rfl
@[simp] theorem State.setRecFail_rail : (s.setRecFail v).rail = s.rail := rfl
@[simp] theorem State.setRecFail_rst : (s.setRecFail v).rst = s.rst := rfl
@[simp] theorem State.setRecFail_now : (s.setRecFail v).now = s.now := rfl
@[simp] theorem State.setRecFail_rx : (s.setRecFail v).rx = s.rx := rfl
@[simp] theorem State.setRecFail_rxq : (s.setRecFail v).rxq = s.rxq := rfl
@[simp] theorem State.setRecFail_reasm : (s.setRecFail v).reasm = s.reasm := rfl
@[simp] theorem State.setRecFail_mbusNextId : (s.setRecFail v).mbusNextId = s.mbusNextId := rfl
@[simp] theorem State.setRecFail_wait : (s.setRecFail v).wait = s.wait := rfl
@[simp] theorem State.setRecFail_recFail : (s.setRecFail v).recFail = v := rfl
@[simp] theorem State.setRecFail_tx : (s.setRecFail v).tx = s.tx := rfl
@[simp] theorem State.setRecFail_recLog : (s.setRecFail v).recLog = s.recLog := rfl
@[simp] theorem State.setRecFail_evt : (s.setRecFail v).evt = s.evt := rfl
@[simp] theorem State.setRecFail_res : (s.setRecFail v).res = s.res := rfl
@[simp] theorem State.setRecFail_ret : (s.setRecFail v).ret = s.ret := rfl
@[simp] theorem State.setRecFail_snoop : (s.setRecFail v).snoop = s.snoop := rfl
@[simp] theorem State.setRecFail_rxIn : (s.setRecFail v).rxIn = s.rxIn := rfl
@[simp] theorem State.setRecFail_rxDone : (s.setRecFail v).rxDone = s.rxDone := rfl
@[simp] theorem State.setRecFail_held : (s.setRecFail v).held = s.held := rfl
@[simp] theorem State.setRecFail_turns : (s.setRecFail v).turns = s.turns := rfl
@[simp] theorem State.setRecFail_inp : (s.setRecFail v).inp = s.inp := rfl
@[simp] theorem State.setRecFail_freeCount : (s.setRecFail v).freeCount = s.freeCount := rfl
end setRecFail

section pushTx
variable (s : State) (v : Bytes)
@[simp] theorem State.pushTx_cfg : (s.pushTx v).cfg = s.cfg := rfl
@[simp] theorem State.pushTx_rail : (s.pushTx v).rail = s.rail := rfl
@[simp] theorem State.pushTx_rst : (s.pushTx v).rst = s.rst := rfl
@[simp] theorem State.pushTx_now : (s.pushTx v).now = s.now := rfl
@[simp] theorem State.pushTx_rx : (s.pushTx v).rx = s.rx := rfl
@[simp] theorem State.pushTx_rxq : (s.pushTx v).rxq = s.rxq := rfl
@[simp] theorem State.pushTx_reasm : (s.pushTx v).reasm = s.reasm := rfl
@[simp] theorem State.pushTx_mbusNextId : (s.pushTx v).mbusNextId = s.mbusNextId := rfl
@[simp] theorem State.pushTx_wait : (s.pushTx v).wait = s.wait := rfl
@[simp] theorem State.pushTx_recFail : (s.pushTx v).recFail = s.recFail := rfl
@[simp] theorem State.pushTx_tx : (s.pushTx v).tx = s.tx ++ v := rfl
@[simp] theorem State.pushTx_recLog : (s.pushTx v).recLog = s.recLog := rfl
@[simp] theorem State.pushTx_evt : (s.pushTx v).evt = s.evt := rfl
@[simp] theorem State.pushTx_res : (s.pushTx v).res = s.res := rfl
@[simp] theorem State.pushTx_ret : (s.pushTx v).ret = s.ret := rfl
@[simp] theorem State.pushTx_snoop : (s.pushTx v).snoop = s.snoop := rfl
@[simp] theorem State.pushTx_rxIn : (s.pushTx v).rxIn = s.rxIn := rfl
@[simp] theorem State.pushTx_rxDone : (s.pushTx v).rxDone = s.rxDone := rfl
@[simp] theorem State.pushTx_held : (s.pushTx v).held = s.held := rfl
@[simp] theorem State.pushTx_turns : (s.pushTx v).turns = s.turns := rfl
@[simp] theorem State.pushTx_inp : (s.pushTx v).inp = s.inp := rfl
@[simp] theorem State.pushTx_freeCount : (s.pushTx v).freeCount = s.freeCount := rfl
end pushTx

section pushRec
variable (s : State) (v : List Observation)
@[simp] theorem State.pushRec_cfg : (s.pushRec v).cfg = s.cfg := rfl
@[simp] theorem State.pushRec_rail : (s.pushRec v).rail = s.rail := rfl
@[simp] theorem State.pushRec_rst : (s.pushRec v).rst = s.rst := rfl
@[simp] theorem State.pushRec_now : (s.pushRec v).now = s.now := rfl
@[simp] theorem State.pushRec_rx : (s.pushRec v).rx = s.rx := rfl
@[simp] theorem State.pushRec_rxq : (s.pushRec v).rxq = s.rxq := rfl
@[simp] theorem State.pushRec_reasm : (s.pushRec v).reasm = s.reasm := rfl
@[simp] theorem State.pushRec_mbusNextId : (s.pushRec v).mbusNextId = s.mbusNextId := rfl
@[simp] theorem State.pushRec_wait : (s.pushRec v).wait = s.wait := rfl
@[simp] theorem State.pushRec_recFail : (s.pushRec v).recFail = s.recFail := rfl
@[simp] theorem State.pushRec_tx : (s.pushRec v).tx = s.tx := rfl
@[simp] theorem State.pushRec_recLog : (s.pushRec v).recLog = s.recLog ++ v := rfl
@[simp] theorem State.pushRec_evt : (s.pushRec v).evt = s.evt := rfl
@[simp] theorem State.pushRec_res : (s.pushRec v).res = s.res := rfl
@[simp] theorem State.pushRec_ret : (s.pushRec v).ret = s.ret := rfl
@[simp] theorem State.pushRec_snoop : (s.pushRec v).snoop = s.snoop := rfl
@[simp] theorem State.pushRec_rxIn : (s.pushRec v).rxIn = s.rxIn := rfl
@[simp] theorem State.pushRec_rxDone : (s.pushRec v).rxDone = s.rxDone := rfl
@[simp] theorem State.pushRec_held : (s.pushRec v).held = s.held := rfl
@[simp] theorem State.pushRec_turns : (s.pushRec v).turns = s.turns := rfl
@[simp] theorem State.pushRec_inp : (s.pushRec v).inp = s.inp := rfl
@[simp] theorem State.pushRec_freeCount : (s.pushRec v).freeCount = s.freeCount := rfl
end pushRec

section pushEvt
variable (s : State) (v : List Event)
@[simp] theorem State.pushEvt_cfg : (s.pushEvt v).cfg = s.cfg := rfl
@[simp] theorem State.pushEvt_rail : (s.pushEvt v).rail = s.rail := rfl
@[simp] theorem State.pushEvt_rst : (s.pushEvt v).rst = s.rst := rfl
@[simp] theorem State.pushEvt_now : (s.pushEvt v).now = s.now := rfl
@[simp] theorem State.pushEvt_rx : (s.pushEvt v).rx = s.rx := rfl
@[simp] theorem State.pushEvt_rxq : (s.pushEvt v).rxq = s.rxq := rfl
@[simp] theorem State.pushEvt_reasm : (s.pushEvt v).reasm = s.reasm := rfl
@[simp] theorem State.pushEvt_mbusNextId : (s.pushEvt v).mbusNextId = s.mbusNextId := rfl
@[simp] theorem State.pushEvt_wait : (s.pushEvt v).wait = s.wait := rfl
@[simp] theorem State.pushEvt_recFail : (s.pushEvt v).recFail = s.recFail := rfl
@[simp] theorem State.pushEvt_tx : (s.pushEvt v).tx = s.tx := rfl
@[simp] theorem State.pushEvt_recLog : (s.pushEvt v).recLog = s.recLog := rfl
@[simp] theorem State.pushEvt_evt : (s.pushEvt v).evt = s.evt ++ v := rfl
@[simp] theorem State.pushEvt_res : (s.pushEvt v).res = s.res := rfl
@[simp] theorem State.pushEvt_ret : (s.pushEvt v).ret = s.ret := rfl
@[simp] theorem State.pushEvt_snoop : (s.pushEvt v).snoop = s.snoop := rfl
@[simp] theorem State.pushEvt_rxIn : (s.pushEvt v).rxIn = s.rxIn := rfl
@[simp] theorem State.pushEvt_rxDone : (s.pushEvt v).rxDone = s.rxDone := rfl
@[simp] theorem State.pushEvt_held : (s.pushEvt v).held = s.held := rfl
@[simp] theorem State.pushEvt_turns : (s.pushEvt v).turns = s.turns := rfl
@[simp] theorem State.pushEvt_inp : (s.pushEvt v).inp = s.inp := rfl
@[simp] theorem State.pushEvt_freeCount : (s.pushEvt v).freeCount = s.freeCount := rfl
end pushEvt

section pushRes
variable (s : State) (v : List LateResult)
@[simp] theorem State.pushRes_cfg : (s.pushRes v).cfg = s.cfg := rfl
@[simp] theorem State.pushRes_rail : (s.pushRes v).rail = s.rail := rfl
@[simp] theorem State.pushRes_rst : (s.pushRes v).rst = s.rst := rfl
@[simp] theorem State.pushRes_now : (s.pushRes v).now = s.now := rfl
@[simp] theorem State.pushRes_rx : (s.pushRes v).rx = s.rx := rfl
@[simp] theorem State.pushRes_rxq : (s.pushRes v).rxq = s.rxq := rfl
@[simp] theorem State.pushRes_reasm : (s.pushRes v).reasm = s.reasm := rfl
@[simp] theorem State.pushRes_mbusNextId : (s.pushRes v).mbusNextId = s.mbusNextId := rfl
@[simp] theorem State.pushRes_wait : (s.pushRes v).wait = s.wait := rfl
@[simp] theorem State.pushRes_recFail : (s.pushRes v).recFail = s.recFail := rfl
@[simp] theorem State.pushRes_tx : (s.pushRes v).tx = s.tx := rfl
@[simp] theorem State.pushRes_recLog : (s.pushRes v).recLog = s.recLog := rfl
@[simp] theorem State.pushRes_evt : (s.pushRes v).evt = s.evt := rfl
@[simp] theorem State.pushRes_res : (s.pushRes v).res = s.res ++ v := rfl
@[simp] theorem State.pushRes_ret : (s.pushRes v).ret = s.ret := rfl
@[simp] theorem State.pushRes_snoop : (s.pushRes v).snoop = s.snoop := rfl
@[simp] theorem State.pushRes_rxIn : (s.pushRes v).rxIn = s.rxIn := rfl
@[simp] theorem State.pushRes_rxDone : (s.pushRes v).rxDone = s.rxDone := rfl
@[simp] theorem State.pushRes_held : (s.pushRes v).held = s.held := rfl
@[simp] theorem State.pushRes_turns : (s.pushRes v).turns = s.turns := rfl
@[simp] theorem State.pushRes_inp : (s.pushRes v).inp = s.inp := rfl
@[simp] theorem State.pushRes_freeCount : (s.pushRes v).freeCount = s.freeCount := rfl
end pushRes

section pushRet
variable (s : State) (v : List Result)
@[simp] theorem State.pushRet_cfg : (s.pushRet v).cfg = s.cfg := rfl
@[simp] theorem State.pushRet_rail : (s.pushRet v).rail = s.rail := rfl
@[simp] theorem State.pushRet_rst : (s.pushRet v).rst = s.rst := rfl
@[simp] theorem State.pushRet_now : (s.pushRet v).now = s.now := rfl
@[simp] theorem State.pushRet_rx : (s.pushRet v).rx = s.rx := rfl
@[simp] theorem State.pushRet_rxq : (s.pushRet v).rxq = s.rxq := rfl
@[simp] theorem State.pushRet_reasm : (s.pushRet v).reasm = s.reasm := rfl
@[simp] theorem State.pushRet_mbusNextId : (s.pushRet v).mbusNextId = s.mbusNextId := rfl
@[simp] theorem State.pushRet_wait : (s.pushRet v).wait = s.wait := rfl
@[simp] theorem State.pushRet_recFail : (s.pushRet v).recFail = s.recFail := rfl
@[simp] theorem State.pushRet_tx : (s.pushRet v).tx = s.tx := rfl
@[simp] theorem State.pushRet_recLog : (s.pushRet v).recLog = s.recLog := rfl
@[simp] theorem State.pushRet_evt : (s.pushRet v).evt = s.evt := rfl
@[simp] theorem State.pushRet_res : (s.pushRet v).res = s.res := rfl
@[simp] theorem State.pushRet_ret : (s.pushRet v).ret = s.ret ++ v := rfl
@[simp] theorem State.pushRet_snoop : (s.pushRet v).snoop = s.snoop := rfl
@[simp] theorem State.pushRet_rxIn : (s.pushRet v).rxIn = s.rxIn := rfl
@[simp] theorem State.pushRet_rxDone : (s.pushRet v).rxDone = s.rxDone := rfl
@[simp] theorem State.pushRet_held : (s.pushRet v).held = s.held := rfl
@[simp] theorem State.pushRet_turns : (s.pushRet v).turns = s.turns := rfl
@[simp] theorem State.pushRet_inp : (s.pushRet v).inp = s.inp := rfl
@[simp] theorem State.pushRet_freeCount : (s.pushRet v).freeCount = s.freeCount := rfl
end pushRet

section pushSnoop
variable (s : State) (v : List SnoopRequest)
@[simp] theorem State.pushSnoop_cfg : (s.pushSnoop v).cfg = s.cfg := rfl
@[simp] theorem State.pushSnoop_rail : (s.pushSnoop v).rail = s.rail := rfl
@[simp] theorem State.pushSnoop_rst : (s.pushSnoop v).rst = s.rst := rfl
@[simp] theorem State.pushSnoop_now : (s.pushSnoop v).now = s.now := rfl
@[simp] theorem State.pushSnoop_rx : (s.pushSnoop v).rx = s.rx := rfl
@[simp] theorem State.pushSnoop_rxq : (s.pushSnoop v).rxq = s.rxq := rfl
@[simp] theorem State.pushSnoop_reasm : (s.pushSnoop v).reasm = s.reasm := rfl
@[simp] theorem State.pushSnoop_mbusNextId : (s.pushSnoop v).mbusNextId = s.mbusNextId := rfl
@[simp] theorem State.pushSnoop_wait : (s.pushSnoop v).wait = s.wait := rfl
@[simp] theorem State.pushSnoop_recFail : (s.pushSnoop v).recFail = s.recFail := rfl
@[simp] theorem State.pushSnoop_tx : (s.pushSnoop v).tx = s.tx := rfl
@[simp] theorem State.pushSnoop_recLog : (s.pushSnoop v).recLog = s.recLog := rfl
@[simp] theorem State.pushSnoop_evt : (s.pushSnoop v).evt = s.evt := rfl
@[simp] theorem State.pushSnoop_res : (s.pushSnoop v).res = s.res := rfl
@[simp] theorem State.pushSnoop_ret : (s.pushSnoop v).ret = s.ret := rfl
@[simp] theorem State.pushSnoop_snoop : (s.pushSnoop v).snoop = s.snoop ++ v := rfl
@[simp] theorem State.pushSnoop_rxIn : (s.pushSnoop v).rxIn = s.rxIn := rfl
@[simp] theorem State.pushSnoop_rxDone : (s.pushSnoop v).rxDone = s.rxDone := rfl
@[simp] theorem State.pushSnoop_held : (s.pushSnoop v).held = s.held := rfl
@[simp] theorem State.pushSnoop_turns : (s.pushSnoop v).turns = s.turns := rfl
@[simp] theorem State.pushSnoop_inp : (s.pushSnoop v).inp = s.inp := rfl
@[simp] theorem State.pushSnoop_freeCount : (s.pushSnoop v).freeCount = s.freeCount := rfl
end pushSnoop

section setRxIn
variable (s : State) (v : Bytes)
@[simp] theorem State.setRxIn_cfg : (s.setRxIn v).cfg = s.cfg := rfl
@[simp] theorem State.setRxIn_rail : (s.setRxIn v).rail = s.rail := rfl
@[simp] theorem State.setRxIn_rst : (s.setRxIn v).rst = s.rst := rfl
@[simp] theorem State.setRxIn_now : (s.setRxIn v).now = s.now := rfl
@[simp] theorem State.setRxIn_rx : (s.setRxIn v).rx = s.rx := rfl
@[simp] theorem State.setRxIn_rxq : (s.setRxIn v).rxq = s.rxq := rfl
@[simp] theorem State.setRxIn_reasm : (s.setRxIn v).reasm = s.reasm := rfl
@[simp] theorem State.setRxIn_mbusNextId : (s.setRxIn v).mbusNextId = s.mbusNextId := rfl
@[simp] theorem State.setRxIn_wait : (s.setRxIn v).wait = s.wait := rfl
@[simp] theorem State.setRxIn_recFail : (s.setRxIn v).recFail = s.recFail := rfl
@[simp] theorem State.setRxIn_tx : (s.setRxIn v).tx = s.tx := rfl
@[simp] theorem State.setRxIn_recLog : (s.setRxIn v).recLog = s.recLog := rfl
@[simp] theorem State.setRxIn_evt : (s.setRxIn v).evt = s.evt := rfl
@[simp] theorem State.setRxIn_res : (s.setRxIn v).res = s.res := rfl
@[simp] theorem State.setRxIn_ret : (s.setRxIn v).ret = s.ret := rfl
@[simp] theorem State.setRxIn_snoop : (s.setRxIn v).snoop = s.snoop := rfl
@[simp] theorem State.setRxIn_rxIn : (s.setRxIn v).rxIn = v := rfl
@[simp] theorem State.setRxIn_rxDone : (s.setRxIn v).rxDone = s.rxDone := rfl
@[simp] theorem State.setRxIn_held : (s.setRxIn v).held = s.held := rfl
@[simp] theorem State.setRxIn_turns : (s.setRxIn v).turns = s.turns := rfl
@[simp] theorem State.setRxIn_inp : (s.setRxIn v).inp = s.inp := rfl
@[simp] theorem State.setRxIn_freeCount : (s.setRxIn v).freeCount = s.freeCount := rfl
end setRxIn

section pushRxDone
variable (s : State) (v : Bytes)
@[simp] theorem State.pushRxDone_cfg : (s.pushRxDone v).cfg = s.cfg := rfl
@[simp] theorem State.pushRxDone_rail : (s.pushRxDone v).rail = s.rail := rfl
@[simp] theorem State.pushRxDone_rst : (s.pushRxDone v).rst = s.rst := rfl
@[simp] theorem State.pushRxDone_now : (s.pushRxDone v).now = s.now := rfl
@[simp] theorem State.pushRxDone_rx : (s.pushRxDone v).rx = s.rx := rfl
@[simp] theorem State.pushRxDone_rxq : (s.pushRxDone v).rxq = s.rxq := rfl
@[simp] theorem State.pushRxDone_reasm : (s.pushRxDone v).reasm = s.reasm := rfl
@[simp] theorem State.pushRxDone_mbusNextId : (s.pushRxDone v).mbusNextId = s.mbusNextId := rfl
@[simp] theorem State.pushRxDone_wait : (s.pushRxDone v).wait = s.wait := rfl
@[simp] theorem State.pushRxDone_recFail : (s.pushRxDone v).recFail = s.recFail := rfl
@[simp] theorem State.pushRxDone_tx : (s.pushRxDone v).tx = s.tx := rfl
@[simp] theorem State.pushRxDone_recLog : (s.pushRxDone v).recLog = s.recLog := rfl
@[simp] theorem State.pushRxDone_evt : (s.pushRxDone v).evt = s.evt := rfl
@[simp] theorem State.pushRxDone_res : (s.pushRxDone v).res = s.res := rfl
@[simp] theorem State.pushRxDone_ret : (s.pushRxDone v).ret = s.ret := rfl
@[simp] theorem State.pushRxDone_snoop : (s.pushRxDone v).snoop = s.snoop := rfl
@[simp] theorem State.pushRxDone_rxIn : (s.pushRxDone v).rxIn = s.rxIn := rfl
@[simp] theorem State.pushRxDone_rxDone : (s.pushRxDone v).rxDone = s.rxDone ++ v := rfl
@[simp] theorem State.pushRxDone_held : (s.pushRxDone v).held = s.held := rfl
@[simp] theorem State.pushRxDone_turns : (s.pushRxDone v).turns = s.turns := rfl
@[simp] theorem State.pushRxDone_inp : (s.pushRxDone v).inp = s.inp := rfl
@[simp] theorem State.pushRxDone_freeCount : (s.pushRxDone v).freeCount = s.freeCount := rfl
end pushRxDone

section setHeld
variable (s : State) (v : List HeldCall)
@[simp] theorem State.setHeld_cfg : (s.setHeld v).cfg = s.cfg := rfl
@[simp] theorem State.setHeld_rail : (s.setHeld v).rail = s.rail := rfl
@[simp] theorem State.setHeld_rst : (s.setHeld v).rst = s.rst := rfl
@[simp] theorem State.setHeld_now : (s.setHeld v).now = s.now := rfl
@[simp] theorem State.setHeld_rx : (s.setHeld v).rx = s.rx := rfl
@[simp] theorem State.setHeld_rxq : (s.setHeld v).rxq = s.rxq := rfl
@[simp] theorem State.setHeld_reasm : (s.setHeld v).reasm = s.reasm := rfl
@[simp] theorem State.setHeld_mbusNextId : (s.setHeld v).mbusNextId = s.mbusNextId := rfl
@[simp] theorem State.setHeld_wait : (s.setHeld v).wait = s.wait := rfl
@[simp] theorem State.setHeld_recFail : (s.setHeld v).recFail = s.recFail := rfl
@[simp] theorem State.setHeld_tx : (s.setHeld v).tx = s.tx := rfl
@[simp] theorem State.setHeld_recLog : (s.setHeld v).recLog = s.recLog := rfl
@[simp] theorem State.setHeld_evt : (s.setHeld v).evt = s.evt := rfl
@[simp] theorem State.setHeld_res : (s.setHeld v).res = s.res := rfl
@[simp] theorem State.setHeld_ret : (s.setHeld v).ret = s.ret := rfl
@[simp] theorem State.setHeld_snoop : (s.setHeld v).snoop = s.snoop := rfl
@[simp] theorem State.setHeld_rxIn : (s.setHeld v).rxIn = s.rxIn := rfl
@[simp] theorem State.setHeld_rxDone : (s.setHeld v).rxDone = s.rxDone := rfl
@[simp] theorem State.setHeld_held : (s.setHeld v).held = v := rfl
@[simp] theorem State.setHeld_turns : (s.setHeld v).turns = s.turns := rfl
@[simp] theorem State.setHeld_inp : (s.setHeld v).inp = s.inp := rfl
@[simp] theorem State.setHeld_freeCount : (s.setHeld v).freeCount = s.freeCount := rfl
end setHeld

section setTurns
variable (s : State) (v : List Turn)
@[simp] theorem State.setTurns_cfg : (s.setTurns v).cfg = s.cfg := rfl
@[simp] theorem State.setTurns_rail : (s.setTurns v).rail = s.rail := rfl
@[simp] theorem State.setTurns_rst : (s.setTurns v).rst = s.rst := rfl
@[simp] theorem State.setTurns_now : (s.setTurns v).now = s.now := rfl
@[simp] theorem State.setTurns_rx : (s.setTurns v).rx = s.rx := rfl
@[simp] theorem State.setTurns_rxq : (s.setTurns v).rxq = s.rxq := rfl
@[simp] theorem State.setTurns_reasm : (s.setTurns v).reasm = s.reasm := rfl
@[simp] theorem State.setTurns_mbusNextId : (s.setTurns v).mbusNextId = s.mbusNextId := rfl
@[simp] theorem State.setTurns_wait : (s.setTurns v).wait = s.wait := rfl
@[simp] theorem State.setTurns_recFail : (s.setTurns v).recFail = s.recFail := rfl
@[simp] theorem State.setTurns_tx : (s.setTurns v).tx = s.tx := rfl
@[simp] theorem State.setTurns_recLog : (s.setTurns v).recLog = s.recLog := rfl
@[simp] theorem State.setTurns_evt : (s.setTurns v).evt = s.evt := rfl
@[simp] theorem State.setTurns_res : (s.setTurns v).res = s.res := rfl
@[simp] theorem State.setTurns_ret : (s.setTurns v).ret = s.ret := rfl
@[simp] theorem State.setTurns_snoop : (s.setTurns v).snoop = s.snoop := rfl
@[simp] theorem State.setTurns_rxIn : (s.setTurns v).rxIn = s.rxIn := rfl
@[simp] theorem State.setTurns_rxDone : (s.setTurns v).rxDone = s.rxDone := rfl
@[simp] theorem State.setTurns_held : (s.setTurns v).held = s.held := rfl
@[simp] theorem State.setTurns_turns : (s.setTurns v).turns = v := rfl
@[simp] theorem State.setTurns_inp : (s.setTurns v).inp = s.inp := rfl
@[simp] theorem State.setTurns_freeCount : (s.setTurns v).freeCount = s.freeCount := rfl
end setTurns

section setInp
variable (s : State) (v : Bytes)
@[simp] theorem State.setInp_cfg : (s.setInp v).cfg = s.cfg := rfl
@[simp] theorem State.setInp_rail : (s.setInp v).rail = s.rail := rfl
@[simp] theorem State.setInp_rst : (s.setInp v).rst = s.rst := rfl
@[simp] theorem State.setInp_now : (s.setInp v).now = s.now := rfl
@[simp] theorem State.setInp_rx : (s.setInp v).rx = s.rx := rfl
@[simp] theorem State.setInp_rxq : (s.setInp v).rxq = s.rxq := rfl
@[simp] theorem State.setInp_reasm : (s.setInp v).reasm = s.reasm := rfl
@[simp] theorem State.setInp_mbusNextId : (s.setInp v).mbusNextId = s.mbusNextId := rfl
@[simp] theorem State.setInp_wait : (s.setInp v).wait = s.wait := rfl
@[simp] theorem State.setInp_recFail : (s.setInp v).recFail = s.recFail := rfl
@[simp] theorem State.setInp_tx : (s.setInp v).tx = s.tx := rfl
@[simp] theorem State.setInp_recLog : (s.setInp v).recLog = s.recLog := rfl
@[simp] theorem State.setInp_evt : (s.setInp v).evt = s.evt := rfl
@[simp] theorem State.setInp_res : (s.setInp v).res = s.res := rfl
@[simp] theorem State.setInp_ret : (s.setInp v).ret = s.ret := rfl
@[simp] theorem State.setInp_snoop : (s.setInp v).snoop = s.snoop := rfl
@[simp] theorem State.setInp_rxIn : (s.setInp v).rxIn = s.rxIn := rfl
@[simp] theorem State.setInp_rxDone : (s.setInp v).rxDone = s.rxDone := rfl
@[simp] theorem State.setInp_held : (s.setInp v).held = s.held := rfl
@[simp] theorem State.setInp_turns : (s.setInp v).turns = s.turns := rfl
@[simp] theorem State.setInp_inp : (s.setInp v).inp = v := rfl
@[simp] theorem State.setInp_freeCount : (s.setInp v).freeCount = s.freeCount := rfl
end setInp

section setFreeCount
variable (s : State) (v : Nat)
@[simp] theorem State.setFreeCount_cfg : (s.setFreeCount v).cfg = s.cfg := rfl
@[simp] theorem State.setFreeCount_rail : (s.setFreeCount v).rail = s.rail := rfl
@[simp] theorem State.setFreeCount_rst : (s.setFreeCount v).rst = s.rst := rfl
@[simp] theorem State.setFreeCount_now : (s.setFreeCount v).now = s.now := rfl
@[simp] theorem State.setFreeCount_rx : (s.setFreeCount v).rx = s.rx := rfl
@[simp] theorem State.setFreeCount_rxq : (s.setFreeCount v).rxq = s.rxq := rfl
@[simp] theorem State.setFreeCount_reasm : (s.setFreeCount v).reasm = s.reasm := rfl
@[simp] theorem State.setFreeCount_mbusNextId : (s.setFreeCount v).mbusNextId = s.mbusNextId := rfl
@[simp] theorem State.setFreeCount_wait : (s.setFreeCount v).wait = s.wait := rfl
@[simp] theorem State.setFreeCount_recFail : (s.setFreeCount v).recFail = s.recFail := rfl
@[simp] theorem State.setFreeCount_tx : (s.setFreeCount v).tx = s.tx := rfl
@[simp] theorem State.setFreeCount_recLog : (s.setFreeCount v).recLog = s.recLog := rfl
@[simp] theorem State.setFreeCount_evt : (s.setFreeCount v).evt = s.evt := rfl
@[simp] theorem State.setFreeCount_res : (s.setFreeCount v).res = s.res := rfl
@[simp] theorem State.setFreeCount_ret : (s.setFreeCount v).ret = s.ret := rfl
@[simp] theorem State.setFreeCount_snoop : (s.setFreeCount v).snoop = s.snoop := rfl
@[simp] theorem State.setFreeCount_rxIn : (s.setFreeCount v).rxIn = s.rxIn := rfl
@[simp] theorem State.setFreeCount_rxDone : (s.setFreeCount v).rxDone = s.rxDone := rfl
@[simp] theorem State.setFreeCount_held : (s.setFreeCount v).held = s.held := rfl
@[simp] theorem State.setFreeCount_turns : (s.setFreeCount v).turns = s.turns := rfl
@[simp] theorem State.setFreeCount_inp : (s.setFreeCount v).inp = s.inp := rfl
@[simp] theorem State.setFreeCount_freeCount : (s.setFreeCount v).freeCount = v := rfl
end setFreeCount

end Sys2Proof.Machine
end

