-- ==== Sys2Proof/Laws/Table.lean ====
section
/-! SUPPORT. The finite maps: what an insert and an erase hold, and that both keep the canonical form. -/

namespace Sys2Proof.Machine

variable {κ α : Type} (ord : κ → Nat)

@[simp] theorem Table.lookup_nil (k : κ) : Table.lookup ord k ([] : List (κ × α)) = none := rfl

/-- An entry below every entry of a table is not in it. -/
theorem Table.lookup_none_of_lt (k : κ) (l : List (κ × α)) (h : ∀ e ∈ l, ord k < ord e.1) :
    Table.lookup ord k l = none := by
  induction l with
  | nil => rfl
  | cons e rest ih =>
    have h1 := h e (by simp)
    simp only [Table.lookup]
    rw [if_neg (by omega)]
    exact ih (fun x hx => h x (by simp [hx]))

/-- What is looked up is in the table, under a key of the same place. -/
theorem Table.mem_of_lookup (k : κ) (v : α) (l : List (κ × α)) (h : Table.lookup ord k l = some v) :
    ∃ k', ord k' = ord k ∧ (k', v) ∈ l := by
  induction l with
  | nil => simp at h
  | cons e rest ih =>
    simp only [Table.lookup] at h
    split at h
    · rename_i he
      cases h; exact ⟨e.1, he, by simp⟩
    · obtain ⟨k', h1, h2⟩ := ih h
      exact ⟨k', h1, by simp [h2]⟩

/-- In canonical form, an entry of the table is what its key looks up. -/
theorem Table.lookup_of_mem (k : κ) (v : α) (l : List (κ × α)) (hw : Table.wf ord l) (h : (k, v) ∈ l) :
    Table.lookup ord k l = some v := by
  induction l with
  | nil => simp at h
  | cons e rest ih =>
    rw [Table.wf, List.pairwise_cons] at hw
    simp only [Table.lookup]
    rcases List.mem_cons.1 h with h | h
    · subst h; simp
    · have := hw.1 _ h
      rw [if_neg (by simp at this; omega)]
      exact ih hw.2 h

/-- Looking nothing up says no entry has that place. -/
theorem Table.not_mem_of_lookup_none (k : κ) (l : List (κ × α)) (h : Table.lookup ord k l = none) :
    ∀ e ∈ l, ord e.1 ≠ ord k := by
  induction l with
  | nil => simp
  | cons e rest ih =>
    simp only [Table.lookup] at h
    split at h
    · cases h
    · rename_i he
      intro x hx
      rcases List.mem_cons.1 hx with hx | hx
      · subst hx; exact he
      · exact ih h x hx

/-- What an insert holds: the new entry, and entries that were there. -/
theorem Table.mem_insert (k : κ) (v : α) (l : List (κ × α)) (x : κ × α) (h : x ∈ Table.insert ord k v l) :
    x = (k, v) ∨ x ∈ l := by
  induction l with
  | nil => simpa [Table.insert] using h
  | cons e rest ih =>
    simp only [Table.insert] at h
    split at h
    · simpa using h
    · split at h
      · rcases List.mem_cons.1 h with h | h
        · exact .inl h
        · exact .inr (by simp [h])
      · rcases List.mem_cons.1 h with h | h
        · exact .inr (by simp [h])
        · rcases ih h with h | h
          · exact .inl h
          · exact .inr (by simp [h])

/-- An insert keeps the canonical form. -/
theorem Table.insert_wf (k : κ) (v : α) (l : List (κ × α)) (h : Table.wf ord l) :
    Table.wf ord (Table.insert ord k v l) := by
  induction l with
  | nil => simp [Table.insert, Table.wf]
  | cons e rest ih =>
    rw [Table.wf, List.pairwise_cons] at h
    simp only [Table.insert]
    split
    · rename_i hlt
      rw [Table.wf, List.pairwise_cons, List.pairwise_cons]
      refine ⟨fun x hx => ?_, h⟩
      rcases List.mem_cons.1 hx with hx | hx
      · subst hx; exact hlt
      · have := h.1 x hx; simp only at *; omega
    · split
      · rename_i heq
        rw [Table.wf, List.pairwise_cons]
        exact ⟨fun x hx => by have := h.1 x hx; simp only at *; omega, h.2⟩
      · rename_i hge hne
        rw [Table.wf, List.pairwise_cons]
        refine ⟨fun x hx => ?_, ih h.2⟩
        rcases Table.mem_insert ord k v rest x hx with hx | hx
        · subst hx; simp only; omega
        · exact h.1 x hx

/-- An erase keeps the canonical form. -/
theorem Table.erase_wf (k : κ) (l : List (κ × α)) (h : Table.wf ord l) : Table.wf ord (Table.erase ord k l) :=
  List.Pairwise.sublist List.filter_sublist h

/-- Any filter keeps the canonical form. -/
theorem Table.filter_wf (p : κ × α → Bool) (l : List (κ × α)) (h : Table.wf ord l) : Table.wf ord (l.filter p) :=
  List.Pairwise.sublist List.filter_sublist h

/-- After an insert a key looks up the new value, any other what it looked up before. -/
theorem Table.lookup_insert (k j : κ) (v : α) (l : List (κ × α)) (h : Table.wf ord l) :
    Table.lookup ord j (Table.insert ord k v l) = if ord j = ord k then some v else Table.lookup ord j l := by
  induction l with
  | nil =>
    simp only [Table.insert, Table.lookup]
    by_cases hk : ord j = ord k
    · simp [hk]
    · rw [if_neg (by omega), if_neg hk]
  | cons e rest ih =>
    rw [Table.wf, List.pairwise_cons] at h
    simp only [Table.insert]
    split
    · simp only [Table.lookup]
      by_cases hk : ord j = ord k
      · simp [hk]
      · rw [if_neg (by omega), if_neg hk]
    · split
      · simp only [Table.lookup]
        by_cases hk : ord j = ord k
        · simp [hk]
        · rw [if_neg (by omega), if_neg hk, if_neg (by omega)]
      · simp only [Table.lookup]
        by_cases hk : ord j = ord k
        · rw [if_neg (by omega), ih h.2, if_pos hk, if_pos hk]
        · rw [ih h.2, if_neg hk, if_neg hk]

/-- After an erase a key looks up nothing, any other what it looked up before. -/
theorem Table.lookup_erase (k j : κ) (l : List (κ × α)) :
    Table.lookup ord j (Table.erase ord k l) = if ord j = ord k then none else Table.lookup ord j l := by
  induction l with
  | nil => simp [Table.erase]
  | cons e rest ih =>
    simp only [Table.erase] at ih
    simp only [Table.erase, List.filter_cons, Table.lookup]
    by_cases he : ord e.1 = ord k
    · simp only [he, ne_eq, not_true_eq_false, decide_false, Bool.false_eq_true, if_false, ih]
      by_cases hj : ord j = ord k
      · simp [hj]
      · rw [if_neg hj, if_neg hj, if_neg (by omega)]
    · simp only [he, ne_eq, not_false_eq_true, decide_true, if_true, Table.lookup, ih]
      by_cases hj : ord j = ord k
      · rw [if_neg (by omega), if_pos hj, if_pos hj]
      · simp [hj]

/-- Erasing a key that is not there leaves the table. -/
theorem Table.erase_of_lookup_none (k : κ) (l : List (κ × α)) (h : Table.lookup ord k l = none) :
    Table.erase ord k l = l := by
  have := Table.not_mem_of_lookup_none ord k l h
  rw [Table.erase, List.filter_eq_self]
  intro e he; simpa using this e he

/-- Erasing what was just inserted under a new key leaves the table as it was. -/
theorem Table.erase_insert (k : κ) (v : α) (l : List (κ × α)) (h : Table.lookup ord k l = none) :
    Table.erase ord k (Table.insert ord k v l) = l := by
  induction l with
  | nil => simp [Table.insert, Table.erase]
  | cons e rest ih =>
    have hn := Table.not_mem_of_lookup_none ord k _ h
    have he : ord e.1 ≠ ord k := hn e (by simp)
    have hr : Table.lookup ord k rest = none := by simpa [Table.lookup, he] using h
    simp only [Table.insert]
    split
    · have := Table.erase_of_lookup_none ord k (e :: rest) h
      simpa [Table.erase] using this
    · split
      · omega
      · have := ih hr
        simp only [Table.erase] at this ⊢
        rw [List.filter_cons, if_pos (by simpa using he), this]

/-- Inserting twice under one key is inserting the second value. -/
theorem Table.insert_insert (k : κ) (v w : α) (l : List (κ × α)) :
    Table.insert ord k w (Table.insert ord k v l) = Table.insert ord k w l := by
  induction l with
  | nil => simp [Table.insert]
  | cons e rest ih =>
    simp only [Table.insert]
    split
    · simp [Table.insert]
    · split
      · simp [Table.insert]
      · rename_i h1 h2
        simp [Table.insert, h1, h2, ih]

/-- A new key makes the table one longer. -/
theorem Table.length_insert (k : κ) (v : α) (l : List (κ × α)) (h : Table.lookup ord k l = none) :
    (Table.insert ord k v l).length = l.length + 1 := by
  induction l with
  | nil => rfl
  | cons e rest ih =>
    have he : ord e.1 ≠ ord k := Table.not_mem_of_lookup_none ord k _ h e (by simp)
    have hr : Table.lookup ord k rest = none := by simpa [Table.lookup, he] using h
    simp only [Table.insert]
    split
    · simp
    · split
      · omega
      · simp [ih hr]

/-- In canonical form with every key below `n`, at most `n` entries fit. -/
theorem Table.length_le (l : List (κ × α)) (n : Nat) (hw : Table.wf ord l) (h : ∀ e ∈ l, ord e.1 < n) :
    l.length ≤ n := by
  have hm : ((l.map (fun e => ord e.1))).Nodup := by
    rw [List.nodup_iff_pairwise_ne, List.pairwise_map]
    exact hw.imp (fun h => by omega)
  have hs : (l.map (fun e => ord e.1)) ⊆ List.range n := by
    intro x hx
    obtain ⟨e, he, rfl⟩ := List.mem_map.1 hx
    exact List.mem_range.2 (h e he)
  have := (List.subperm_of_subset hm hs).length_le
  simpa using this

/-- A canonical table of `n` entries with every index below `n` is full: its keys are 0 to n-1 in order. -/
theorem Table.full_keys {α : Type} (l : List (Nat × α)) (hw : Table.wf id l) (h : ∀ e ∈ l, e.1 < l.length) :
    l.map (fun e => e.1) = List.range l.length := by
  have hsorted : (l.map (fun e => e.1)).Pairwise (· < ·) := by
    rw [List.pairwise_map]; exact hw
  have hnd : (l.map (fun e => e.1)).Nodup := by
    rw [List.nodup_iff_pairwise_ne]; exact hsorted.imp (fun h => by omega)
  have hs : (l.map (fun e => e.1)) ⊆ List.range l.length := by
    intro x hx
    obtain ⟨e, he, rfl⟩ := List.mem_map.1 hx
    exact List.mem_range.2 (h e he)
  have hp : (l.map (fun e => e.1)).Perm (List.range l.length) :=
    (List.subperm_of_subset hnd hs).perm_of_length_le (by simp)
  exact hp.eq_of_pairwise (le := (· < ·)) (fun a b _ _ h1 h2 => by omega) hsorted List.pairwise_lt_range

/-- The place of a key says which key it is (00_scope.md R12). -/
theorem Key.ord_inj (j k : Key) (h : j.ord = k.ord) : j = k := by
  obtain ⟨a, b, c⟩ := j
  obtain ⟨a', b', c'⟩ := k
  have := a.isLt; have := b.isLt; have := c.isLt
  have := a'.isLt; have := b'.isLt; have := c'.isLt
  simp only [Key.ord] at h
  have h1 : a = a' := BitVec.eq_of_toNat_eq (by omega)
  have h2 : b = b' := BitVec.eq_of_toNat_eq (by omega)
  have h3 : c = c' := BitVec.eq_of_toNat_eq (by omega)
  subst h1 h2 h3; rfl

end Sys2Proof.Machine
end

