-- ==== Sys2Proof/Laws/Reassembly.lean ====
section
/-! SUPPORT. Reassembly: everything MBUS_REASSEMBLE can do, once, and what an entry is made of. -/

namespace Sys2Proof.Machine

/-- Everything MBUS_REASSEMBLE can do (R186 to R188): ignore the message and change nothing; complete, and remove the key;
or hold the chunk. -/
theorem reassemble_cases (m : MBusMessage) (s : State) :
    ((badNumbering s.cfg m = true
        ∨ entryWith s.cfg s.now m (Table.lookup Key.ord m.key s.reasm) = none) ∧ reassemble m s = (none, s))
      ∨ ∃ e, badNumbering s.cfg m = false
          ∧ entryWith s.cfg s.now m (Table.lookup Key.ord m.key s.reasm) = some e
          ∧ ((e.chunks.length = e.count
                ∧ reassemble m s
                  = (some ⟨m.src, m.dst, m.msgId, joinChunks e⟩, s.setReasm (Table.erase Key.ord m.key s.reasm)))
              ∨ (e.chunks.length ≠ e.count
                  ∧ reassemble m s = (none, s.setReasm (Table.insert Key.ord m.key e s.reasm)))) := by
  unfold reassemble
  by_cases hb : badNumbering s.cfg m = true
  · exact .inl ⟨.inl hb, by rw [if_pos hb]⟩
  · rw [if_neg hb]
    rw [Bool.not_eq_true] at hb
    cases he : entryWith s.cfg s.now m (Table.lookup Key.ord m.key s.reasm) with
    | none => exact .inl ⟨.inr rfl, rfl⟩
    | some e =>
      refine .inr ⟨e, hb, rfl, ?_⟩
      by_cases hl : e.chunks.length = e.count
      · exact .inl ⟨hl, by simp [hl]⟩
      · exact .inr ⟨hl, by simp [hl]⟩

/-- Reassembly changes nothing but the table. -/
theorem reassemble_state (m : MBusMessage) (s : State) : ∃ t, (reassemble m s).2 = s.setReasm t := by
  rcases reassemble_cases m s with ⟨-, h⟩ | ⟨e, -, -, ⟨-, h⟩ | ⟨-, h⟩⟩ <;> rw [h]
  · exact ⟨s.reasm, rfl⟩
  · exact ⟨_, rfl⟩
  · exact ⟨_, rfl⟩

/-- Good numbering: the index is below the count, and a broadcast has one fragment (R187). -/
theorem badNumbering_false (c : Cfg) (m : MBusMessage) (h : badNumbering c m = false) :
    m.fragIndex.toNat < m.fragCount.toNat ∧ (m.dst = c.mbusBcast → m.fragCount = 1) := by
  simp only [badNumbering, Bool.or_eq_false_iff, Bool.and_eq_false_iff, decide_eq_false_iff_not, not_not] at h
  exact ⟨by omega, fun hd => h.2.resolve_left (fun h' => h' hd)⟩

theorem badNumbering_of (c : Cfg) (m : MBusMessage) (h1 : m.fragIndex.toNat < m.fragCount.toNat)
    (h2 : m.dst = c.mbusBcast → m.fragCount = 1) : badNumbering c m = false := by
  simp only [badNumbering, Bool.or_eq_false_iff, Bool.and_eq_false_iff, decide_eq_false_iff_not, not_not]
  refine ⟨⟨fun h => ?_, by omega⟩, ?_⟩
  · rw [h] at h1; simp at h1
  · by_cases hd : m.dst = c.mbusBcast
    · exact .inr (h2 hd)
    · exact .inl hd

/-- In a full entry the chunks stand at their indices, so they are joined in index order (R186, R75). -/
theorem full_getElem? {α : Type} (l : List (Nat × α)) (hw : Table.wf id l) (h : ∀ e ∈ l, e.1 < l.length) (j : Nat)
    (hj : j < l.length) : (l.map (fun x => x.2))[j]? = Table.lookup id j l := by
  have hk := Table.full_keys l hw h
  have h1 : (l[j]).1 = j := by
    have : (l.map (fun e => e.1))[j]? = some j := by rw [hk, List.getElem?_range hj]
    rw [List.getElem?_map, List.getElem?_eq_getElem hj] at this
    simpa using this
  rw [List.getElem?_map, List.getElem?_eq_getElem hj]
  exact (Table.lookup_of_mem id j _ l hw (by
    have := List.getElem_mem hj
    rw [show l[j] = (j, l[j].2) from Prod.ext h1 rfl] at this
    exact this)).symm

/-- The entry a well-numbered message gives: its count, its chunks in canonical form below the count, one more than
before, and the deadline of the entry held or a new one (R186). -/
theorem entryWith_some (c : Cfg) (now : Nat) (m : MBusMessage) (held : Option ReasmEntry) (e : ReasmEntry)
    (h : entryWith c now m held = some e) :
    e.count = m.fragCount.toNat
      ∧ ((held = none ∧ e.chunks = [(m.fragIndex.toNat, m.chunk)] ∧ e.deadline = now + c.reasmTimeout)
          ∨ ∃ e0, held = some e0 ∧ e0.count = e.count ∧ Table.lookup id m.fragIndex.toNat e0.chunks = none
              ∧ e.chunks = Table.insert id m.fragIndex.toNat m.chunk e0.chunks ∧ e.deadline = e0.deadline) := by
  cases held with
  | none => simp [entryWith] at h; subst h; exact ⟨rfl, .inl ⟨rfl, rfl, rfl⟩⟩
  | some e0 =>
    simp only [entryWith] at h
    split at h
    · cases h
    · rename_i hc
      rw [ne_eq, not_not] at hc
      split at h
      · cases h
      · rename_i hl
        rw [Bool.not_eq_true, Option.isSome_eq_false_iff, Option.isNone_iff_eq_none] at hl
        cases h
        exact ⟨hc, .inr ⟨e0, rfl, rfl, hl, rfl, rfl⟩⟩

/-- Bytes have a byte's range. -/
theorem byte_le (b : Byte) : b.toNat ≤ 255 := by have := b.isLt; omega

end Sys2Proof.Machine
end

