-- ==== Sys2Proof/Laws/Ops.lean ====
section
/-! SUPPORT. For each shared operation what it can do, said once: the ports, the rails, the power-down, the parser, the
clock's checks. -/

namespace Sys2Proof.Machine

/-- A channel is decodable when its governing rail is not OFF (R233). -/
theorem decodable_eq_true (s : State) (c : Channel) : decodable s c = true ↔ railAt s (s.cfg.gov c) ≠ .off := by
  simp [decodable]

theorem decodable_eq_false (s : State) (c : Channel) : decodable s c = false ↔ railAt s (s.cfg.gov c) = .off := by
  simp [decodable]

/-- `Decodable` reads the rails and the configuration only. -/
theorem decodable_congr (s t : State) (c : Channel) (h1 : t.rail = s.rail) (h2 : t.cfg = s.cfg) :
    decodable t c = decodable s c := by
  simp [decodable, railAt, h1, h2]

/-- Everything MUX_SEND's body can do (R202): fail at the gate, refuse the size, or one write with one observation. -/
theorem muxWrite_cases (c : Channel) (body : Bytes) (s : State) :
    (decodable s c = false ∧ muxWrite c body s = .error (.raised (notEnergized s c)))
      ∨ (decodable s c = true ∧ 65535 < body.length ∧ muxWrite c body s = .error (.outside .bodyTooLong))
      ∨ (decodable s c = true ∧ body.length ≤ 65535
          ∧ muxWrite c body s = .ok ((s.pushTx (recordBytes (preamble s.cfg c) body)).pushRec
              [⟨.tx, .chan c, recordBytes (preamble s.cfg c) body⟩])) := by
  unfold muxWrite
  cases h : decodable s c with
  | false => exact .inl ⟨rfl, by simp⟩
  | true =>
    by_cases hl : 65535 < body.length
    · exact .inr (.inl ⟨rfl, hl, by simp [hl]⟩)
    · exact .inr (.inr ⟨rfl, by omega, by simp [hl, observe]⟩)

theorem muxWrite_ok (c : Channel) (body : Bytes) (s : State) (h : decodable s c = true) (hl : body.length ≤ 65535) :
    muxWrite c body s = .ok ((s.pushTx (recordBytes (preamble s.cfg c) body)).pushRec
      [⟨.tx, .chan c, recordBytes (preamble s.cfg c) body⟩]) := by
  rcases muxWrite_cases c body s with ⟨h', -⟩ | ⟨-, h', -⟩ | ⟨-, -, h'⟩
  · rw [h] at h'; cases h'
  · omega
  · exact h'

/-- A rail register after a write (R236). -/
theorem railAt_writeRail (s : State) (r q : Nat) (st : RailState) :
    railAt (writeRail s r st) q = if q = r ∧ r < s.rail.length then st else railAt s q := by
  simp only [railAt, writeRail, State.setRail, List.getD_eq_getElem?_getD, List.getElem?_set]
  by_cases h : r = q
  · subst h
    by_cases hl : r < s.rail.length
    · simp [hl]
    · simp [hl]
  · have : q ≠ r := fun h' => h h'.symm
    simp [h, this]

@[simp] theorem railAt_past (s : State) (r : Nat) (h : s.rail.length ≤ r) : railAt s r = .off := by
  simp [railAt, h]

/-- Restoring writes the rails and nothing else (R243). -/
theorem restoreRails_eq (pairs : List (Nat × RailState)) (s : State) :
    restoreRails pairs s = s.setRail (restoreRails pairs s).rail
      ∧ (restoreRails pairs s).rail.length = s.rail.length := by
  induction pairs generalizing s with
  | nil => exact ⟨rfl, rfl⟩
  | cons x pairs ih =>
    obtain ⟨h1, h2⟩ := ih (writeRail s x.1 x.2)
    exact ⟨h1, by rw [restoreRails, List.foldl_cons] at *; simpa [writeRail, State.setRail] using h2⟩

/-- The rails after restoring a map whose rails are distinct (R243). -/
theorem railAt_restoreRails (pairs : List (Nat × RailState)) (s : State) (q : Nat)
    (hd : (pairs.map Prod.fst).Nodup) :
    railAt (restoreRails pairs s) q
      = match pairs.find? (fun x => x.1 == q) with
        | some x => if q < s.rail.length then x.2 else railAt s q
        | none => railAt s q := by
  induction pairs generalizing s with
  | nil => rfl
  | cons x pairs ih =>
    rw [List.map_cons, List.nodup_cons] at hd
    have := ih (writeRail s x.1 x.2) hd.2
    rw [restoreRails] at this
    rw [restoreRails, List.foldl_cons, this, railAt_writeRail, List.find?_cons]
    have hlen : (writeRail s x.1 x.2).rail.length = s.rail.length := by simp [writeRail, State.setRail]
    by_cases hx : x.1 = q
    · have : pairs.find? (fun y => y.1 == q) = none := by
        rw [List.find?_eq_none]
        intro y hy hyq
        apply hd.1
        rw [hx, ← of_decide_eq_true (by simpa using hyq : decide (y.1 = q) = true)]
        exact List.mem_map_of_mem hy
      rw [this]
      simp only [hx, beq_self_eq_true, true_and]
    · rw [hlen]
      have hq : ¬ q = x.1 := fun h => hx h.symm
      have : (x.1 == q) = false := by simpa using hx
      rw [this]
      simp only [hq, false_and, if_false]

/-- Switching rails off is restoring them all to OFF. -/
theorem railsOff_eq (rails : List Nat) (s : State) : railsOff rails s = restoreRails (rails.map (fun r => (r, .off))) s := by
  induction rails generalizing s with
  | nil => rfl
  | cons r rails ih =>
    have := ih (writeRail s r .off)
    rw [railsOff, restoreRails] at this
    rw [railsOff, List.foldl_cons, this]
    rfl

/-- The rails after switching some off (R240). -/
theorem railAt_railsOff (rails : List Nat) (s : State) (q : Nat) :
    railAt (railsOff rails s) q = if q ∈ rails then .off else railAt s q := by
  induction rails generalizing s with
  | nil => rfl
  | cons r rails ih =>
    have := ih (writeRail s r .off)
    rw [railsOff] at this
    rw [railsOff, List.foldl_cons, this, railAt_writeRail]
    by_cases h1 : q ∈ rails
    · simp [h1]
    · by_cases h2 : q = r
      · subst h2
        simp only [h1, if_false, List.mem_cons, true_or, if_true, true_and]
        split
        · rfl
        · rename_i h; exact railAt_past s q (by omega)
      · simp [h1, h2]

/-- What `power_down(R)` does to each part (R234): `down c` says the channel's governing rail went OFF. -/
def powerDownTo (downs : List Nat) (s : State) : State :=
  let down := fun c : Channel => downs.contains (s.cfg.gov c)
  { s with
    rx := { s.rx with poisoned := s.rx.poisoned || (decide (s.rx.phase ≠ .idle) && down s.rx.chan) }
    rxq := s.rxq.filter (fun x => !down x.1)
    wait := if down .ein then none else s.wait
    res := s.res ++ (if down .ein = true ∧ s.wait.isSome = true then
      [.einSend (.err (.railNotEnergized .ein s.cfg.govEin))] else [])
    reasm := if down .mbus then [] else s.reasm
    evt := s.evt ++ (if down .mbus then s.reasm.map timeoutEvent else []) }

/-- Poisoning touches the flag alone (R234). -/
theorem poisonRx_eq (s : State) (c : Channel) :
    poisonRx s c = s.setRx { s.rx with
      poisoned := s.rx.poisoned || (decide (s.rx.phase ≠ .idle) && decide (s.rx.chan = c)) } := by
  unfold poisonRx
  by_cases h : s.rx.phase ≠ .idle ∧ s.rx.chan = c
  · simp [h]
  · rw [if_neg h]
    have : (decide (s.rx.phase ≠ .idle) && decide (s.rx.chan = c)) = false := by
      rw [← Bool.decide_and]; exact decide_eq_false h
    rw [this, Bool.or_false]; rfl

/-- One channel of `power_down(R)`, when its rail is among those gone OFF (R234). -/
def channelDown (d : Bool) (c : Channel) (s : State) : State :=
  { s with
    rx := { s.rx with poisoned := s.rx.poisoned || (decide (s.rx.phase ≠ .idle) && (d && decide (s.rx.chan = c))) }
    rxq := s.rxq.filter (fun x => !(d && decide (x.1 = c)))
    wait := if d = true ∧ c = .ein then none else s.wait
    res := s.res ++ (if d = true ∧ c = .ein ∧ s.wait.isSome = true then
      [.einSend (.err (.railNotEnergized .ein s.cfg.govEin))] else [])
    reasm := if d = true ∧ c = .mbus then [] else s.reasm
    evt := s.evt ++ (if d = true ∧ c = .mbus then s.reasm.map timeoutEvent else []) }

theorem channelDown_false (c : Channel) (s : State) : channelDown false c s = s := by
  have : s.rxq.filter (fun _ => true) = s.rxq := List.filter_eq_self.2 (fun _ _ => rfl)
  simp [channelDown, this]

theorem channelDown_true (c : Channel) (s : State) : channelDown true c s = powerDownChannel s c := by
  obtain ⟨cfg, rail, rst, now, rx, rxq, reasm, nid, w, rf, tx, rl, evt, res, ret, sn, ri, rd, held, turns, inp, fc⟩ := s
  have hf : rxq.filter (fun x => !(true && decide (x.1 = c))) = rxq.filter (fun x => decide (x.1 ≠ c)) := by
    apply List.filter_congr; intro x _; simp
  simp only [powerDownChannel, poisonRx_eq, channelDown, hf]
  cases c
  · simp [State.setRx, State.setRxq]
  · cases w <;> simp [State.setRx, State.setRxq, State.setWait, State.pushRes, endWait, notEnergized, Cfg.gov]
  · simp [State.setRx, State.setRxq, flushReasm, State.pushEvt, State.setReasm]

/-- Everything `power_down(R)` does (R234). -/
theorem powerDown_eq (downs : List Nat) (s : State) : powerDown downs s = powerDownTo downs s := by
  have h : ∀ (c : Channel) (t : State),
      (if downs.contains (t.cfg.gov c) then powerDownChannel t c else t)
        = channelDown (downs.contains (t.cfg.gov c)) c t := by
    intro c t
    cases hd : downs.contains (t.cfg.gov c)
    · rw [channelDown_false]; rfl
    · rw [channelDown_true]; rfl
  have hf : powerDown downs s = [Channel.goc, Channel.ein, Channel.mbus].foldl
      (fun s c => channelDown (downs.contains (s.cfg.gov c)) c s) s := by
    unfold powerDown; congr 1; funext t c; exact h c t
  obtain ⟨cfg, rail, rst, now, rx, rxq, reasm, nid, w, rf, tx, rl, evt, res, ret, sn, ri, rd, held, turns, inp, fc⟩ := s
  rw [hf]
  simp only [List.foldl_cons, List.foldl_nil, powerDownTo, channelDown, List.filter_filter, Cfg.gov]
  congr 1
  · congr 1
    cases rx.chan <;> cases decide (rx.phase ≠ .idle) <;> simp
  · apply List.filter_congr
    intro x _
    cases x.1 <;> simp
  · by_cases h : downs.contains cfg.govMbus = true <;> simp
  · by_cases h : downs.contains cfg.govEin = true <;> simp
  · by_cases h : downs.contains cfg.govMbus = true <;> simp
  · by_cases h : downs.contains cfg.govEin = true <;> simp

/-- Everything reset completion can do (R243): nothing, or restore the rails, clear busy and report. -/
theorem completeReset_cases (s : State) :
    (¬ (s.rst.busy = true ∧ s.rst.deadline ≤ s.now) ∧ completeReset s = s)
      ∨ (s.rst.busy = true ∧ s.rst.deadline ≤ s.now
          ∧ completeReset s = { s with
              rail := (restoreRails (restorePairs s.rst) s).rail
              rst := { s.rst with busy := false }
              res := s.res ++ [.reset] }) := by
  unfold completeReset
  by_cases h : s.rst.busy = true ∧ s.rst.deadline ≤ s.now
  · refine .inr ⟨h.1, h.2, ?_⟩
    rw [if_pos h, (restoreRails_eq (restorePairs s.rst) s).1]
    rfl
  · exact .inl ⟨h, by rw [if_neg h]⟩

/-- Everything the response timeout can do (R267): nothing, or end a due wait with its error. -/
theorem expireWait_cases (s : State) :
    ((∀ w, s.wait = some w → s.now < w.deadline) ∧ expireWait s = s)
      ∨ ∃ w, s.wait = some w ∧ w.deadline ≤ s.now
          ∧ expireWait s = { s with res := s.res ++ [.einSend (.err (.responseTimeout w.addr))], wait := none } := by
  unfold expireWait
  cases h : s.wait with
  | none => exact .inl ⟨by simp, rfl⟩
  | some w =>
    by_cases hd : w.deadline ≤ s.now
    · exact .inr ⟨w, rfl, hd, by simp only [if_pos hd]; rfl⟩
    · exact .inl ⟨fun v hv => by cases hv; omega, by simp only [if_neg hd]⟩

/-- Expiry touches the table and EVT alone (R190). -/
theorem expireReasm_eq (s : State) :
    expireReasm s = { s with
      reasm := s.reasm.filter (fun x => !entryDue s.now x)
      evt := s.evt ++ (s.reasm.filter (entryDue s.now)).map timeoutEvent } := rfl

/-- An accepted RESET, part by part (R240). -/
theorem acceptReset_eq (kind : ResetKind) (s : State) :
    acceptReset kind s =
      (let targets := resetTargets s.cfg kind
       let s1 := powerDownTo (targets.filter (fun r => decide (railAt s r ≠ .off))) (railsOff targets s)
       { s1 with
         reasm := []
         evt := s1.evt ++ s1.reasm.map timeoutEvent
         rst := ⟨true, s.now + s.cfg.settleTicks, targets, targets.map (fun r => (r, railAt s r))⟩ }) := by
  simp only [acceptReset, powerDown_eq]
  rw [railsOff_eq, (restoreRails_eq _ s).1]
  rfl

/-- Writing fragments touches TX and REC alone: one record and one observation each, in order (R270). -/
theorem sendFragments_ok (c : Cfg) (ms : List MBusMessage) (s : State) (hc : s.cfg = c) (hd : decodable s .mbus = true)
    (hl : ∀ m ∈ ms, m.chunk.length ≤ 255) (hk : c.mbusCrcLen ≤ 65000) :
    sendFragments ms s = .ok
      ((s.pushTx (ms.flatMap (fun m => recordBytes c.preMbus (mbusHead m ++ mbusCrc c (mbusHead m))))).pushRec
        (ms.map (fun m => ⟨.tx, .chan .mbus, recordBytes c.preMbus (mbusHead m ++ mbusCrc c (mbusHead m))⟩))) := by
  induction ms generalizing s with
  | nil => simp [sendFragments, State.pushTx, State.pushRec]
  | cons m ms ih =>
    have h1 := hl m (by simp)
    have h2 : (mbusHead m ++ mbusCrc c (mbusHead m)).length ≤ 65535 := by simp [mbusHead]; omega
    rw [sendFragments, hc, mbusBuild_ok c m h1]
    simp only [muxWrite_ok .mbus _ s hd h2]
    rw [hc, ih _ (by simpa using hc) (by rw [← hd]; exact decodable_congr _ _ _ rfl rfl) (fun x hx => hl x (by simp [hx]))]
    simp [State.pushTx, State.pushRec, preamble]

/-- Writing fragments changes TX and REC alone, whatever the fragments: what was written is what was observed (R270). -/
theorem sendFragments_state (ms : List MBusMessage) (s t : State) (h : sendFragments ms s = .ok t) :
    ∃ bs : List Bytes, t = (s.pushTx bs.flatten).pushRec (bs.map (fun b => ⟨.tx, .chan .mbus, b⟩)) := by
  induction ms generalizing s with
  | nil => cases h; exact ⟨[], by simp [State.pushTx, State.pushRec]⟩
  | cons m ms ih =>
    rw [sendFragments] at h
    split at h
    · cases h
    · rename_i body hb
      rcases muxWrite_cases .mbus body s with ⟨-, hw⟩ | ⟨-, -, hw⟩ | ⟨-, -, hw⟩
      · simp only [hw] at h; cases h
      · simp only [hw] at h; cases h
      · simp only [hw] at h
        obtain ⟨bs, rfl⟩ := ih _ h
        exact ⟨recordBytes (preamble s.cfg .mbus) body :: bs, by simp [State.pushTx, State.pushRec]⟩

/-- Everything `complete()` does (R206, R208 to R210). -/
theorem completeRecord_eq (s : State) :
    completeRecord s = { s with
      rx := ⟨.idle, s.rx.chan, s.rx.len, [], [], false⟩
      recLog := s.recLog ++ [⟨.rx, if notGocRecord s.rx = true then .unrec else .chan s.rx.chan, s.rx.raw⟩]
      rxq := s.rxq ++ (if notGocRecord s.rx = false ∧ s.rx.poisoned = false ∧ decodable s s.rx.chan = true then
        [(s.rx.chan, s.rx.buf)] else []) } := by
  unfold completeRecord
  cases hb : notGocRecord s.rx with
  | true => simp [observe, State.pushRec, State.setRx]
  | false =>
    by_cases h : s.rx.poisoned = false ∧ decodable s s.rx.chan = true
    · simp [h, observe, State.pushRec, State.setRx, State.setRxq]
    · simp only [Bool.false_eq_true, if_false, true_and, if_neg h, observe, State.pushRec, State.setRx, List.append_nil]

/-- RX_BYTE at a record boundary: a preamble begins a record, any other byte is UNREC (R206, R207). -/
theorem rxByte_idle (b : Byte) (s : State) (h : s.rx.phase = .idle) :
    rxByte b s = match channelOfPreamble s.cfg b with
      | some c => (s.pushRxDone [b]).setRx ⟨.lenHi, c, 0, [], [b], !decodable s c⟩
      | none => (s.pushRxDone [b]).pushRec [⟨.rx, .unrec, [b]⟩] := by
  simp only [rxByte, State.pushRxDone_rx, State.pushRxDone_cfg, h]
  cases channelOfPreamble s.cfg b <;> rfl

/-- The first length byte. -/
theorem rxByte_lenHi (b : Byte) (s : State) (h : s.rx.phase = .lenHi) :
    rxByte b s = (s.pushRxDone [b]).setRx
      ⟨.lenLo, s.rx.chan, b.toNat * 256, s.rx.buf, s.rx.raw ++ [b], s.rx.poisoned⟩ := by
  simp only [rxByte, State.pushRxDone_rx, h]

/-- The second length byte of a record with a body. -/
theorem rxByte_lenLo_more (b : Byte) (s : State) (h : s.rx.phase = .lenLo) (hn : s.rx.len + b.toNat ≠ 0) :
    rxByte b s = (s.pushRxDone [b]).setRx
      ⟨.body, s.rx.chan, s.rx.len + b.toNat, s.rx.buf, s.rx.raw ++ [b], s.rx.poisoned⟩ := by
  simp only [rxByte, State.pushRxDone_rx, h, State.setRx_rx]
  exact if_neg hn

/-- The second length byte of an empty record: the record is complete. -/
theorem rxByte_lenLo_last (b : Byte) (s : State) (h : s.rx.phase = .lenLo) (hn : s.rx.len + b.toNat = 0) :
    rxByte b s = completeRecord ((s.pushRxDone [b]).setRx
      ⟨.body, s.rx.chan, s.rx.len + b.toNat, s.rx.buf, s.rx.raw ++ [b], s.rx.poisoned⟩) := by
  simp only [rxByte, State.pushRxDone_rx, h, State.setRx_rx]
  exact if_pos hn

/-- A body byte that is not the last. -/
theorem rxByte_body_more (b : Byte) (s : State) (h : s.rx.phase = .body) (hn : s.rx.buf.length + 1 ≠ s.rx.len) :
    rxByte b s = (s.pushRxDone [b]).setRx
      ⟨.body, s.rx.chan, s.rx.len, s.rx.buf ++ [b], s.rx.raw ++ [b], s.rx.poisoned⟩ := by
  simp only [rxByte, State.pushRxDone_rx, h, State.setRx_rx, List.length_append, List.length_cons, List.length_nil]
  exact if_neg hn

/-- The last body byte: the record is complete. -/
theorem rxByte_body_last (b : Byte) (s : State) (h : s.rx.phase = .body) (hn : s.rx.buf.length + 1 = s.rx.len) :
    rxByte b s = completeRecord ((s.pushRxDone [b]).setRx
      ⟨.body, s.rx.chan, s.rx.len, s.rx.buf ++ [b], s.rx.raw ++ [b], s.rx.poisoned⟩) := by
  simp only [rxByte, State.pushRxDone_rx, h, State.setRx_rx, List.length_append, List.length_cons, List.length_nil]
  exact if_pos hn

end Sys2Proof.Machine
end

