-- ==== Sys2Proof/Laws/Exec.lean ====
section
/-! SUPPORT. Everything an instruction and a step can do, said once: the inversion of `exec` and of `step`. -/

namespace Sys2Proof.Machine

/-- The state after the records of `c` with bytes `bs` have been written and observed (R202, R270). -/
def sent (c : Channel) (bs : List Bytes) (s : State) : State :=
  (s.pushTx bs.flatten).pushRec (bs.map (fun b => ⟨.tx, .chan c, b⟩))

/-- Every next state `exec` can answer, by what it does. -/
inductive Effect (s : State) : Instr → State → Prop
  /-- A result and nothing else: a pure operation, a failed one, one with nothing to do. -/
  | result (i : Instr) (r : Result) (hr : ∀ e, r = .err e → e.reportable = true)
      (hn : r = .notGoc → ∃ body, i = .gocDeser body) : Effect s i (s.pushRet [r])
  /-- MBUS_REASSEMBLE (R186). -/
  | reassembled (m : MBusMessage) :
    Effect s (reassembleInstr m) ((reassemble m s).2.pushRet [reasmResult (reassemble m s).1])
  /-- MUX_SEND, GOC_SEND or MBUS_SEND that wrote (R202, R262, R270). -/
  | wrote (i : Instr) (c : Channel) (bs : List Bytes) (nid : Byte) (r : Result) (hr : ∀ e, r ≠ .err e) (hn : r ≠ .notGoc) :
    Effect s i (((sent c bs s).setNextId nid).pushRet [r])
  /-- MUX_RECEIVE of a unit (R214). -/
  | received (c : Channel) (body : Bytes) (rest : List (Channel × Bytes)) (h : s.rxq = (c, body) :: rest) :
    Effect s .muxReceive ((s.setRxq rest).pushRet [.unit c body])
  /-- SET_RAIL that only writes the register (R236). -/
  | railWritten (r : Nat) (st : RailState) (h : r < s.cfg.nrails) (hb : s.rst.busy = false)
      (hd : railAt s r = .off ∨ st ≠ .off) : Effect s (.setRail r st) ((writeRail s r st).pushRet [.ok])
  /-- SET_RAIL that powers down (R234, R236). -/
  | railDown (r : Nat) (h : r < s.cfg.nrails) (hb : s.rst.busy = false) (hd : railAt s r ≠ .off) :
    Effect s (.setRail r .off) ((powerDownTo [r] (writeRail s r .off)).pushRet [.ok])
  /-- An accepted RESET (R240). -/
  | resetBegun (k : ResetKind) (hb : s.rst.busy = false) : Effect s (.reset k) (acceptReset k s)
  /-- EIN_SEND that issued (R265). -/
  | issued (a o : Byte) (p : Bytes) (b : Bytes) (hw : s.wait = none) (hd : decodable s .ein = true) :
    Effect s (.einSend a o p) ((sent .ein [b] s).setWait (some ⟨a, s.now + s.cfg.respTimeout⟩))
  /-- EIN_SEND that is held (R266). -/
  | held (a o : Byte) (p : Bytes) (hw : s.wait.isSome = true) :
    Effect s (.einSend a o p) (s.setHeld (s.held ++ [⟨a, o, p⟩]))
  /-- CANCEL of a pending wait (R268). -/
  | cancelled (hw : s.wait.isSome = true) : Effect s .cancel ((endWait s .cancelled).pushRet [.ok])
  /-- A snoop operation (R275). -/
  | forwarded (i : Instr) (q : SnoopRequest) (n : Nat) (a : Bytes) :
    Effect s i (((s.pushSnoop [q]).setFreeCount n).pushRet [.fromRecorder a])
  /-- RX_BYTE (R206). -/
  | byteTaken (b : Byte) : Effect s (.rxByte b) (rxByte b s)
  /-- DISPATCH with nothing queued (R215). -/
  | nothingQueued (h : s.rxq = []) : Effect s .dispatch s
  /-- DISPATCH of a unit (R215). -/
  | dispatched (c : Channel) (body : Bytes) (rest : List (Channel × Bytes)) (h : s.rxq = (c, body) :: rest) :
    Effect s .dispatch (dispatchUnit c body (s.setRxq rest))
  /-- TICK (R345). -/
  | ticked : Effect s .tick (tick s)
  /-- REC_FAIL (R328). -/
  | recorderFailed : Effect s .recFail (s.setRecFail true)
  /-- The transport peer's bytes (R60). -/
  | peerSent (i : Instr) (bs : Bytes) : Effect s i (s.setRxIn (s.rxIn ++ bs))

/-- A pure operation answers with a result, or is refused. -/
theorem answer_next (r : Except Stop Result) (s t : State) (h : answer r s = .next t) :
    (∃ v, r = .ok v ∧ t = s.pushRet [v]) ∨ ∃ e, r = .error (.raised e) ∧ t = s.pushRet [.err e] := by
  cases r with
  | ok v => cases h; exact .inl ⟨v, rfl, rfl⟩
  | error st =>
    cases st with
    | raised e => cases h; exact .inr ⟨e, rfl, rfl⟩
    | outside r => cases h

/-- A parser answers with its result or its error. -/
theorem answerErr_next (r : Except Err Result) (s t : State) (h : answerErr r s = .next t) :
    (∃ v, r = .ok v ∧ t = s.pushRet [v]) ∨ ∃ e, r = .error e ∧ t = s.pushRet [.err e] := by
  cases r with
  | ok v => cases h; exact .inl ⟨v, rfl, rfl⟩
  | error e => cases h; exact .inr ⟨e, rfl, rfl⟩

/-- `Except.map` and its argument. -/
theorem map_ok {ε α β : Type} (f : α → β) (x : Except ε α) (v : β) (h : x.map f = .ok v) : ∃ y, x = .ok y ∧ f y = v := by
  cases x with
  | ok y => cases h; exact ⟨y, rfl, rfl⟩
  | error e => cases h

theorem map_error {ε α β : Type} (f : α → β) (x : Except ε α) (e : ε) (h : x.map f = .error e) : x = .error e := by
  cases x with
  | ok y => cases h
  | error e' => cases h; rfl

/-- The encoder, the serialiser and the builders never raise; they refuse (93_implementation_defined.md U2 to U5). -/
theorem gocEncode_error (c : Cfg) (bits : List Bit) (st : Stop) (h : gocEncode c bits = .error st) :
    ∃ r, st = .outside r := by
  unfold gocEncode at h
  split at h
  · cases h; exact ⟨_, rfl⟩
  · cases h

theorem gocSer_error_outside (es : List PulseEvent) (st : Stop) (h : gocSer es = .error st) : ∃ r, st = .outside r := by
  induction es generalizing st with
  | nil => cases h
  | cons e es ih =>
    rw [gocSer] at h
    split at h
    · cases h; exact ⟨_, rfl⟩
    · split at h
      · rename_i st' hst
        cases h; exact ih _ hst
      · cases h

theorem gocBody_error (c : Cfg) (bits : List Bit) (st : Stop) (h : gocBody c bits = .error st) : ∃ r, st = .outside r := by
  unfold gocBody at h
  split at h
  · rename_i st' hst
    cases h; exact gocEncode_error _ _ _ hst
  · exact gocSer_error_outside _ _ h

theorem einBuild_error (c : Cfg) (d o : Byte) (p : Bytes) (st : Stop) (h : einBuild c d o p = .error st) :
    ∃ r, st = .outside r := by
  unfold einBuild at h
  split at h
  · cases h; exact ⟨_, rfl⟩
  · cases h

theorem mbusBuild_error (c : Cfg) (m : MBusMessage) (st : Stop) (h : mbusBuild c m = .error st) :
    ∃ r, st = .outside r := by
  unfold mbusBuild at h
  split at h
  · cases h; exact ⟨_, rfl⟩
  · cases h

/-- What fragmentation may raise (R180). -/
theorem mbusFragment_raised (c : Cfg) (a b m : Byte) (p : Bytes) (e : Err) (h : mbusFragment c a b m p = .error (.raised e)) :
    e.reportable = true := by
  unfold mbusFragment at h
  split at h
  · cases h
  · split at h
    · cases h; rfl
    · split at h <;> cases h

/-- What the decoder and the parsers may report (R320). -/
theorem einParse_reportable (c : Cfg) (body : Bytes) (e : Err) (h : einParse c body = .error e) : e.reportable = true := by
  unfold einParse at h
  repeat' split at h
  all_goals cases h; try rfl

theorem mbusParse_reportable (c : Cfg) (body : Bytes) (e : Err) (h : mbusParse c body = .error e) :
    e.reportable = true := by
  unfold mbusParse at h
  repeat' split at h
  all_goals cases h; try rfl

theorem decodeFrom_reportable (c : Cfg) (es : List PulseEvent) (k prev : Nat) (fin : Bool) (acc : List Bit) (e : Err)
    (h : decodeFrom c es k prev fin acc = .error e) : e.reportable = true := by
  induction es generalizing k prev fin acc with
  | nil =>
    rw [decodeFrom] at h
    split at h <;> cases h
    rfl
  | cons x es ih =>
    rw [decodeFrom] at h
    repeat' split at h
    all_goals first | exact ih _ _ _ _ h | (cases h; rfl)

/-- Building then writing: an early stop, or one record written (R262, R265). -/
theorem buildAndWrite_cases (c : Channel) (build : Except Stop Bytes) (s : State)
    (hb : ∀ st, build = .error st → ∃ r, st = .outside r) :
    buildAndWrite c build s = .error (.raised (notEnergized s c)) ∨ (∃ r, buildAndWrite c build s = .error (.outside r))
      ∨ ∃ body, build = .ok body ∧ decodable s c = true
          ∧ buildAndWrite c build s = .ok (sent c [recordBytes (preamble s.cfg c) body] s) := by
  unfold buildAndWrite
  cases hd : decodable s c with
  | false => exact .inl (by simp)
  | true =>
    simp only [Bool.true_eq_false, if_false]
    cases build with
    | error st => obtain ⟨r, rfl⟩ := hb st rfl; exact .inr (.inl ⟨r, rfl⟩)
    | ok body =>
      rcases muxWrite_cases c body s with ⟨h, -⟩ | ⟨-, -, h⟩ | ⟨-, -, h⟩
      · rw [hd] at h; cases h
      · exact .inr (.inl ⟨_, h⟩)
      · exact .inr (.inr ⟨body, rfl, trivial, by simp only [h]; simp [sent]⟩)

/-- Fragments of a decodable channel are written or refused (R270). -/
theorem sendFragments_cases (ms : List MBusMessage) (s : State) (hd : decodable s .mbus = true) :
    (∃ r, sendFragments ms s = .error (.outside r)) ∨ ∃ bs, sendFragments ms s = .ok (sent .mbus bs s) := by
  induction ms generalizing s with
  | nil => exact .inr ⟨[], by simp [sendFragments, sent, State.pushTx, State.pushRec]⟩
  | cons m ms ih =>
    rw [sendFragments]
    cases hm : mbusBuild s.cfg m with
    | error st => obtain ⟨r, rfl⟩ := mbusBuild_error _ _ _ hm; exact .inl ⟨r, rfl⟩
    | ok body =>
      rcases muxWrite_cases .mbus body s with ⟨h, -⟩ | ⟨-, -, h⟩ | ⟨-, -, h⟩
      · rw [hd] at h; cases h
      · exact .inl ⟨.bodyTooLong, by simp only [h]⟩
      · simp only [h]
        rcases ih ((s.pushTx (recordBytes (preamble s.cfg .mbus) body)).pushRec
            [⟨.tx, .chan .mbus, recordBytes (preamble s.cfg .mbus) body⟩])
            (by rw [← hd]; exact decodable_congr _ _ _ rfl rfl) with ⟨r, hr⟩ | ⟨bs, hbs⟩
        · exact .inl ⟨r, hr⟩
        · refine .inr ⟨recordBytes (preamble s.cfg .mbus) body :: bs, hbs.trans ?_⟩
          simp [sent, State.pushTx, State.pushRec]

/-- The inversion of `exec`: every next state is one of the effects. -/
theorem exec_effect (i : Instr) (s t : State) (h : exec i s = .next t) : Effect s i t := by
  have pure : ∀ (i : Instr) (r : Except Stop Result), answer r s = .next t →
      (∀ e, r = .error (.raised e) → e.reportable = true) → (∀ v, r = .ok v → (∀ e, v ≠ .err e) ∧ v ≠ .notGoc) → Effect s i t := by
    intro i r ha he hv
    rcases answer_next r s t ha with ⟨v, h1, rfl⟩ | ⟨e, h1, rfl⟩
    · exact .result i v (fun e h => absurd h ((hv v h1).1 e)) (fun h => absurd h (hv v h1).2)
    · exact .result i _ (fun e' h => by cases h; exact he e h1) (fun h => by cases h)
  have parse : ∀ (i : Instr) (r : Except Err Result), answerErr r s = .next t →
      (∀ e, r = .error e → e.reportable = true) → (∀ v, r = .ok v → (∀ e, v ≠ .err e) ∧ v ≠ .notGoc) → Effect s i t := by
    intro i r ha he hv
    rcases answerErr_next r s t ha with ⟨v, h1, rfl⟩ | ⟨e, h1, rfl⟩
    · exact .result i v (fun e h => absurd h ((hv v h1).1 e)) (fun h => absurd h (hv v h1).2)
    · exact .result i _ (fun e' h => by cases h; exact he e h1) (fun h => by cases h)
  have raised : ∀ (i : Instr) (e : Err), e.reportable = true → raise e s = .next t → Effect s i t := by
    intro i e he h
    cases h; exact .result i _ (fun e' h => by cases h; exact he) (fun h => by cases h)
  have single : ∀ (i : Instr) (c : Channel) (x : Except Stop State), settle .ok x s = .next t →
      (x = .error (.raised (notEnergized s c)) ∨ (∃ r, x = .error (.outside r)) ∨ ∃ bs, x = .ok (sent c bs s)) →
        Effect s i t := by
    intro i c x hx hc
    rcases hc with rfl | ⟨r, rfl⟩ | ⟨bs, rfl⟩
    · exact raised i _ rfl hx
    · cases hx
    · cases hx
      exact .wrote i c bs s.mbusNextId .ok (fun e h => by cases h) (fun h => by cases h)
  cases i with
  | gocEncode bits =>
    refine pure _ _ h (fun e he => ?_) (fun v hv => ?_)
    · obtain ⟨r, hr⟩ := gocEncode_error _ _ _ (map_error _ _ _ he); cases hr
    · obtain ⟨y, -, rfl⟩ := map_ok _ _ _ hv; exact ⟨fun _ => nofun, nofun⟩
  | gocDecode es =>
    refine parse _ _ h (fun e he => decodeFrom_reportable _ _ _ _ _ _ _ (map_error _ _ _ he)) (fun v hv => ?_)
    obtain ⟨y, -, rfl⟩ := map_ok _ _ _ hv; exact ⟨fun _ => nofun, nofun⟩
  | gocSer es =>
    refine pure _ _ h (fun e he => ?_) (fun v hv => ?_)
    · obtain ⟨r, hr⟩ := gocSer_error_outside _ _ (map_error _ _ _ he); cases hr
    · obtain ⟨y, -, rfl⟩ := map_ok _ _ _ hv; exact ⟨fun _ => nofun, nofun⟩
  | gocDeser body =>
    simp only [exec, execGocDeser] at h
    split at h <;> cases h
    all_goals exact .result _ _ (fun e h => by cases h) (fun _ => ⟨body, rfl⟩)
  | einBuild d o p =>
    refine pure _ _ h (fun e he => ?_) (fun v hv => ?_)
    · obtain ⟨r, hr⟩ := einBuild_error _ _ _ _ _ (map_error _ _ _ he); cases hr
    · obtain ⟨y, -, rfl⟩ := map_ok _ _ _ hv; exact ⟨fun _ => nofun, nofun⟩
  | einParse body =>
    refine parse _ _ h (fun e he => einParse_reportable _ _ _ (map_error _ _ _ he)) (fun v hv => ?_)
    obtain ⟨y, -, rfl⟩ := map_ok _ _ _ hv; exact ⟨fun _ => nofun, nofun⟩
  | mbusBuild a b c d e p =>
    refine pure _ _ h (fun e he => ?_) (fun v hv => ?_)
    · obtain ⟨r, hr⟩ := mbusBuild_error _ _ _ (map_error _ _ _ he); cases hr
    · obtain ⟨y, -, rfl⟩ := map_ok _ _ _ hv; exact ⟨fun _ => nofun, nofun⟩
  | mbusParse body =>
    refine parse _ _ h (fun e he => mbusParse_reportable _ _ _ (map_error _ _ _ he)) (fun v hv => ?_)
    obtain ⟨y, -, rfl⟩ := map_ok _ _ _ hv; exact ⟨fun _ => nofun, nofun⟩
  | mbusFragment a b m p =>
    refine pure _ _ h (fun e he => mbusFragment_raised _ _ _ _ _ _ (map_error _ _ _ he)) (fun v hv => ?_)
    obtain ⟨y, -, rfl⟩ := map_ok _ _ _ hv; exact ⟨fun _ => nofun, nofun⟩
  | mbusReassemble a b m x n p =>
    cases h
    exact .reassembled ⟨a, b, m, x, n, p, []⟩
  | muxSend c body =>
    refine single _ c _ h ?_
    rcases muxWrite_cases c body s with ⟨-, h⟩ | ⟨-, -, h⟩ | ⟨-, -, h⟩
    · exact .inl h
    · exact .inr (.inl ⟨_, h⟩)
    · exact .inr (.inr ⟨[recordBytes (preamble s.cfg c) body], by rw [h]; simp [sent]⟩)
  | muxReceive =>
    simp only [exec, execMuxReceive] at h
    split at h
    · cases h; exact .result _ _ (fun e h => by cases h) (fun h => by cases h)
    · rename_i hq; cases h; exact .received _ _ _ hq
  | setRail r st =>
    simp only [exec, execSetRail] at h
    split at h
    · cases h
    · rename_i hr
      split at h
      · exact raised _ _ rfl h
      · rename_i hb
        rw [Bool.not_eq_true] at hb
        by_cases hd : railAt s r ≠ .off ∧ st = .off
        · rw [if_pos hd, powerDown_eq] at h
          obtain ⟨hd, rfl⟩ := hd
          cases h
          exact .railDown r (by omega) hb hd
        · rw [if_neg hd] at h
          cases h
          exact .railWritten r st (by omega) hb (by tauto)
  | reset k =>
    simp only [exec, execReset] at h
    split at h
    · exact raised _ _ rfl h
    · rename_i hb; cases h; exact .resetBegun k (by simpa using hb)
  | gocSend bits =>
    refine single _ .goc _ h ?_
    rcases buildAndWrite_cases .goc (gocBody s.cfg bits) s (gocBody_error _ _) with h | h | ⟨body, -, -, h⟩
    · exact .inl h
    · exact .inr (.inl h)
    · exact .inr (.inr ⟨_, h⟩)
  | einSend a o p =>
    simp only [exec, execEinSend] at h
    split at h
    · rename_i hw; cases h; exact .held a o p hw
    · rename_i hw
      rw [Bool.not_eq_true, Option.isSome_eq_false_iff, Option.isNone_iff_eq_none] at hw
      rcases buildAndWrite_cases .ein (einBuild s.cfg a o p) s (einBuild_error _ _ _ _) with hx | ⟨r, hx⟩ | ⟨body, -, hd, hx⟩ <;>
        simp only [hx] at h
      · exact raised _ _ rfl h
      · cases h
      · cases h; exact .issued a o p _ hw hd
  | mbusSend a b p =>
    simp only [exec, execMbusSend] at h
    split at h
    · exact raised _ _ rfl h
    · rename_i hd
      rw [Bool.not_eq_false] at hd
      split at h
      · rename_i st hf
        cases st with
        | raised e => exact raised _ e (mbusFragment_raised _ _ _ _ _ _ hf) h
        | outside r => cases h
      · rename_i ms hf
        rcases sendFragments_cases ms s hd with ⟨r, hx⟩ | ⟨bs, hx⟩ <;> simp only [hx] at h <;> cases h
        exact .wrote _ .mbus bs _ _ (fun e h => by cases h) (fun h => by cases h)
  | cancel =>
    simp only [exec, execCancel] at h
    by_cases hw : s.wait = none
    · rw [if_pos hw] at h; cases h; exact .result _ _ (fun e h => by cases h) (fun h => by cases h)
    · rw [if_neg hw] at h; cases h; exact .cancelled (by rw [Option.isSome_iff_ne_none]; exact hw)
  | snoopStart => cases h; exact .forwarded _ _ _ _
  | snoopStop => cases h; exact .forwarded _ _ _ _
  | snoopExport => cases h; exact .forwarded _ _ _ _
  | rxByte b => cases h; exact .byteTaken b
  | dispatch =>
    simp only [exec, execDispatch] at h
    split at h
    · rename_i hq; cases h; exact .nothingQueued hq
    · rename_i hq; cases h; exact .dispatched _ _ _ hq
  | tick => cases h; exact .ticked
  | recFail => cases h; exact .recorderFailed
  | record pre body =>
    simp only [exec, execRecord] at h
    split at h <;> cases h
    exact .peerSent _ _
  | pulseWord e d =>
    simp only [exec, execPulseWord] at h
    split at h <;> cases h
    exact .peerSent _ _
  | einBody d o p ck =>
    simp only [exec, execEinBody] at h
    split at h <;> cases h
    exact .peerSent _ _
  | mbusBody a b m x n p ck =>
    simp only [exec, execMbusBody] at h
    split at h <;> cases h
    exact .peerSent _ _

/-- Everything DISPATCH can do with a unit (R216 to R218): an event, the end of a pending wait, nothing, or what
reassembly does, with an event when it completes. -/
theorem dispatchUnit_cases (c : Channel) (body : Bytes) (s t : State) (h : dispatchUnit c body s = t) :
    t = s
      ∨ (∃ e, (∀ x, e = .error x → x.reportable = true) ∧ t = s.pushEvt [e])
      ∨ (∃ r, s.wait.isSome = true ∧ (∀ x, r = .err x → x.reportable = true) ∧ t = endWait s r)
      ∨ ∃ m l, (∀ x, Event.error x ∉ l) ∧ t = (reassemble m s).2.pushEvt l := by
  subst h
  cases c with
  | goc =>
    simp only [dispatchUnit, dispatchGoc]
    split
    · exact .inl rfl
    · split
      · exact .inr (.inl ⟨_, fun x h => by (cases h), rfl⟩)
      · rename_i hx
        exact .inr (.inl ⟨_, fun x h => by (cases h; exact decodeFrom_reportable _ _ _ _ _ _ _ hx), rfl⟩)
  | ein =>
    simp only [dispatchUnit, dispatchEin]
    split
    · rename_i hx hw
      exact .inr (.inr (.inl ⟨_, by rw [hw]; rfl, fun x h => by (cases h; exact einParse_reportable _ _ _ hx), rfl⟩))
    · rename_i hx hw
      exact .inr (.inl ⟨_, fun x h => by (cases h; exact einParse_reportable _ _ _ hx), rfl⟩)
    · rename_i hx hw
      split
      · exact .inr (.inr (.inl ⟨_, by rw [hw]; rfl, fun x h => by (cases h), rfl⟩))
      · exact .inr (.inl ⟨_, fun x h => by (cases h), rfl⟩)
    · exact .inr (.inl ⟨_, fun x h => by (cases h), rfl⟩)
  | mbus =>
    simp only [dispatchUnit, dispatchMbus]
    split
    · rename_i hx
      exact .inr (.inl ⟨_, fun x h => by (cases h; exact mbusParse_reportable _ _ _ hx), rfl⟩)
    · rename_i m _
      split
      · rename_i v s' hr
        exact .inr (.inr (.inr ⟨m, [.mbusMessage v], by simp, by rw [hr]⟩))
      · rename_i s' hr
        exact .inr (.inr (.inr ⟨m, [], by simp, by rw [hr]; simp [State.pushEvt]⟩))

/-- RX_BYTE touches the parser, the queue, REC and the bytes taken (R206). -/
theorem rxByte_frame (b : Byte) (s : State) :
    ∃ rx q r, rxByte b s = { s with rx := rx, rxq := q, recLog := s.recLog ++ r, rxDone := s.rxDone ++ [b] } := by
  cases hp : s.rx.phase with
  | idle =>
    rw [rxByte_idle _ _ hp]
    split
    · exact ⟨_, s.rxq, [], by simp only [State.pushRxDone, State.setRx, List.append_nil]; rfl⟩
    · exact ⟨s.rx, s.rxq, _, rfl⟩
  | lenHi =>
    rw [rxByte_lenHi _ _ hp]
    exact ⟨_, s.rxq, [], by simp only [State.pushRxDone, State.setRx, List.append_nil]; rfl⟩
  | lenLo =>
    by_cases h : s.rx.len + b.toNat = 0
    · rw [rxByte_lenLo_last _ _ hp h, completeRecord_eq]; exact ⟨_, _, _, rfl⟩
    · rw [rxByte_lenLo_more _ _ hp h]
      exact ⟨_, s.rxq, [], by simp only [State.pushRxDone, State.setRx, List.append_nil]; rfl⟩
  | body =>
    by_cases h : s.rx.buf.length + 1 = s.rx.len
    · rw [rxByte_body_last _ _ hp h, completeRecord_eq]; exact ⟨_, _, _, rfl⟩
    · rw [rxByte_body_more _ _ hp h]
      exact ⟨_, s.rxq, [], by simp only [State.pushRxDone, State.setRx, List.append_nil]; rfl⟩

/-- TICK touches the counter, what a reset completes, what ends a wait, and what expires (R345). -/
theorem tick_frame (s : State) :
    ∃ rail rst res w reasm evt,
      tick s = { s with
        now := s.now + 1, rail := rail, rst := rst, res := s.res ++ res, wait := w, reasm := reasm,
        evt := s.evt ++ evt } := by
  rcases expireWait_cases (completeReset (s.setNow (s.now + 1))) with ⟨-, h⟩ | ⟨w, -, -, h⟩ <;>
    rcases completeReset_cases (s.setNow (s.now + 1)) with ⟨-, h'⟩ | ⟨-, -, h'⟩ <;>
    rw [tick, h, expireReasm_eq, h']
  · exact ⟨s.rail, s.rst, [], s.wait, _, _, by simp only [List.append_nil]; rfl⟩
  · exact ⟨_, _, _, s.wait, _, _, rfl⟩
  · exact ⟨s.rail, s.rst, _, _, _, _, rfl⟩
  · exact ⟨_, _, _, _, _, _, by simp only [List.append_assoc]; rfl⟩

/-- An accepted RESET touches the rails, the sequencer, and what the power-down and the flush touch (R240). -/
theorem acceptReset_frame (k : ResetKind) (s : State) :
    ∃ rail rx rxq w res evt,
      acceptReset k s = { s with
        rail := rail, rx := rx, rxq := rxq, wait := w, res := s.res ++ res, evt := s.evt ++ evt, reasm := [],
        rst := ⟨true, s.now + s.cfg.settleTicks, resetTargets s.cfg k,
          (resetTargets s.cfg k).map (fun r => (r, railAt s r))⟩ } := by
  have h := acceptReset_eq k s
  dsimp only at h
  rw [h, railsOff_eq, (restoreRails_eq _ s).1]
  exact ⟨_, _, _, _, _, _, by simp only [powerDownTo, State.setRail, List.append_assoc]; rfl⟩

/-- What taking a turn and its input touches: the schedule, the input, the unread bytes, the held calls. -/
def Taken (s s' : State) : Prop :=
  ∃ ts inp rx hs, s' = (((s.setTurns ts).setInp inp).setRxIn rx).setHeld hs

theorem taken_refl (s : State) : Taken s s := ⟨s.turns, s.inp, s.rxIn, s.held, rfl⟩

theorem taken_setTurns (s : State) (ts : List Turn) : Taken s (s.setTurns ts) := ⟨ts, s.inp, s.rxIn, s.held, rfl⟩

/-- A turn that decodes: it passes, or runs an instruction on a state with the turn and the input taken. -/
theorem fetchTurn_cases (tn : Turn) (s0 s : State) (h0 : Taken s0 s) :
    (∃ s', fetchTurn tn s = .idle s' ∧ Taken s0 s') ∨ (∃ r, fetchTurn tn s = .refuse (.notAnOperation r))
      ∨ ∃ i s', fetchTurn tn s = .run i s' ∧ Taken s0 s' := by
  obtain ⟨ts, inp, rx, hs, rfl⟩ := h0
  unfold fetchTurn
  split
  · exact .inl ⟨_, rfl, ts, inp, rx, hs, rfl⟩
  · split
    · exact .inr (.inl ⟨_, rfl⟩)
    · rename_i i rest _
      refine .inr (.inr ⟨i, _, rfl, ?_⟩)
      cases tn
      case reader => exact ⟨ts, inp, rest, hs, rfl⟩
      case client => exact ⟨ts, rest, rx, hs, rfl⟩
      case peer => exact ⟨ts, rest, rx, hs, rfl⟩
      all_goals exact ⟨ts, inp, rx, hs, rfl⟩

/-- The inversion of `fetch`. -/
theorem fetch_cases (s : State) :
    (∃ s', fetch s = .idle s' ∧ Taken s s') ∨ (∃ r, fetch s = .refuse (.notAnOperation r))
      ∨ ∃ i s', fetch s = .run i s' ∧ Taken s s' := by
  unfold fetch
  split
  · exact .inr (.inr ⟨_, s, rfl, taken_refl s⟩)
  · rename_i t ts _
    have h := taken_setTurns s ts
    cases t with
    | resume =>
      simp only [fetchHeld]
      split
      · exact .inl ⟨_, rfl, h⟩
      · split
        · exact .inr (.inr ⟨_, _, rfl, ts, s.inp, s.rxIn, _, rfl⟩)
        · exact .inl ⟨_, rfl, h⟩
    | client => exact fetchTurn_cases .client s _ h
    | peer f => exact fetchTurn_cases (.peer f) s _ h
    | reader => exact fetchTurn_cases .reader s _ h
    | dispatcher => exact fetchTurn_cases .dispatcher s _ h
    | clock => exact fetchTurn_cases .clock s _ h
    | recorder => exact fetchTurn_cases .recorder s _ h

/-- DISPATCH returns nothing: what it finds goes to EVT or RES (R215). -/
theorem dispatchUnit_ret (c : Channel) (body : Bytes) (s : State) : (dispatchUnit c body s).ret = s.ret := by
  rcases dispatchUnit_cases c body s _ rfl with h | ⟨e, -, h⟩ | ⟨r, -, -, h⟩ | ⟨m, l, -, h⟩ <;> rw [h]
  · rfl
  · rfl
  · obtain ⟨t, ht⟩ := reassemble_state m s
    rw [ht]
    rfl

/-- TICK returns nothing (R345). -/
theorem tick_ret (s : State) : (tick s).ret = s.ret := by
  rcases expireWait_cases (completeReset (s.setNow (s.now + 1))) with ⟨-, h⟩ | ⟨w, -, -, h⟩ <;>
    rcases completeReset_cases (s.setNow (s.now + 1)) with ⟨-, h'⟩ | ⟨-, -, h'⟩ <;>
      rw [tick, h, h', expireReasm_eq] <;> rfl

/-- NOT_GOC is the result of a GOC_DESER call and of nothing else (R138, R321; log entry 23). -/
theorem notGoc_of_gocDeser (i : Instr) (s t : State) (h : exec i s = .next t) (hn : .notGoc ∈ t.ret) :
    .notGoc ∈ s.ret ∨ ∃ body, i = .gocDeser body := by
  cases exec_effect i s t h with
  | result _ r _ hr =>
    simp only [State.pushRet_ret, List.mem_append, List.mem_singleton] at hn
    exact hn.imp_right (fun h => hr h.symm)
  | reassembled m =>
    obtain ⟨tbl, ht⟩ := reassemble_state m s
    rw [ht] at hn
    cases hx : (reassemble m s).1 <;> exact .inl (by simpa [hx, reasmResult] using hn)
  | wrote _ c bs nid r _ hr => exact .inl (by simpa [sent, Ne.symm hr] using hn)
  | resetBegun k =>
    obtain ⟨_, _, _, _, _, _, h⟩ := acceptReset_frame k s
    rw [h] at hn
    exact .inl (by simpa using hn)
  | byteTaken b =>
    obtain ⟨_, _, _, h⟩ := rxByte_frame b s
    rw [h] at hn
    exact .inl (by simpa using hn)
  | dispatched c body rest =>
    rw [dispatchUnit_ret] at hn
    exact .inl (by simpa using hn)
  | ticked => rw [tick_ret] at hn; exact .inl hn
  | _ => exact .inl (by simpa [sent, endWait, powerDownTo, writeRail] using hn)

/-- The inversion of `step`: the turn passes, or one instruction has its effect. -/
theorem step_effect (s t : State) (h : step s = .next t) : Taken s t ∨ ∃ i s', Taken s s' ∧ Effect s' i t := by
  rcases fetch_cases s with ⟨s', hf, ht⟩ | ⟨r, hf⟩ | ⟨i, s', hf, ht⟩ <;> simp only [step, hf] at h
  · cases h; exact .inl ht
  · cases h
  · exact .inr ⟨i, s', ht, exec_effect i s' t h⟩

end Sys2Proof.Machine
end

