-- ==== Sys2Proof/Laws/Goc.lean ====
section
/-! SUPPORT. The GOC codec: the train and its times, what the decoder does with a valid beginning of a train, and what the
serial form holds. -/

namespace Sys2Proof.Machine

@[simp] theorem timed_length (t : Nat) (l : List (Edge × Nat)) : (timed t l).length = l.length := by
  induction l generalizing t with
  | nil => rfl
  | cons x l ih => simp [timed, ih]

/-- Edge and duration of an event are those it was made from (R95). -/
theorem timed_getElem? (t : Nat) (l : List (Edge × Nat)) (k : Nat) (e : PulseEvent) (h : (timed t l)[k]? = some e) :
    l[k]? = some (e.edge, e.dur) := by
  induction l generalizing t k with
  | nil => simp [timed] at h
  | cons x l ih =>
    obtain ⟨a, b⟩ := x
    cases k with
    | zero => simp [timed] at h; subst h; rfl
    | succ k => simpa using ih (t + b) k (by simpa [timed] using h)

/-- The first event stands at the time the train begins at (R95). -/
theorem timed_first (t : Nat) (l : List (Edge × Nat)) (e : PulseEvent) (h : (timed t l)[0]? = some e) : e.t = t := by
  cases l with
  | nil => simp [timed] at h
  | cons x l => obtain ⟨a, b⟩ := x; simp [timed] at h; subst h; rfl

/-- Every event begins where the one before it ends (R95). -/
theorem timed_next (t : Nat) (l : List (Edge × Nat)) (k : Nat) (e e' : PulseEvent) (h : (timed t l)[k]? = some e)
    (h' : (timed t l)[k + 1]? = some e') : e'.t = e.t + e.dur := by
  induction l generalizing t k with
  | nil => simp [timed] at h
  | cons x l ih =>
    obtain ⟨a, b⟩ := x
    simp only [timed, List.getElem?_cons_succ] at h'
    cases k with
    | zero =>
      simp [timed] at h; subst h
      exact timed_first _ _ _ h'
    | succ k => exact ih (t + b) k (by simpa [timed] using h) h'

theorem timed_map_dur (t : Nat) (l : List (Edge × Nat)) : (timed t l).map (fun e => e.dur) = l.map (fun x => x.2) := by
  induction l generalizing t with
  | nil => rfl
  | cons x l ih => simp [timed, ih]

theorem timed_le (t : Nat) (l : List (Edge × Nat)) : ∀ e ∈ timed t l, t ≤ e.t := by
  induction l generalizing t with
  | nil => simp [timed]
  | cons x l ih =>
    intro e he
    simp only [timed, List.mem_cons] at he
    rcases he with rfl | he
    · exact Nat.le_refl t
    · have := ih _ e he; omega

/-- The times of a train never decrease. -/
theorem timed_pairwise (t : Nat) (l : List (Edge × Nat)) : (timed t l).Pairwise (fun a b => a.t ≤ b.t) := by
  induction l generalizing t with
  | nil => simp [timed]
  | cons x l ih =>
    simp only [timed, List.pairwise_cons]
    exact ⟨fun e he => by have := timed_le _ l e he; omega, ih _⟩

/-- Deserialising rebuilds exactly the times of a train (R138). -/
theorem timed_map (t : Nat) (es : List PulseEvent) (l : List (Edge × Nat)) (h : es = timed t l) :
    timed t (es.map (fun e => (e.edge, e.dur))) = es := by
  subst h
  induction l generalizing t with
  | nil => rfl
  | cons x l ih => obtain ⟨a, b⟩ := x; simp [timed, ih]

/-- The symbols of the bits, each with its gap. -/
def bitSymbols (bits : List Bit) : List Symbol := bits.flatMap (fun b => [bitSymbol b, .gap])

theorem trainSymbols_eq (bits : List Bit) :
    trainSymbols bits = (Symbol.start :: Symbol.gap :: bitSymbols bits) ++ [Symbol.stop] := rfl

@[simp] theorem bitSymbols_length (bits : List Bit) : (bitSymbols bits).length = 2 * bits.length := by
  simp [bitSymbols, List.length_flatMap]; omega

/-- A train of `n` bits has `2n + 3` events (R94). -/
@[simp] theorem trainSymbols_length (bits : List Bit) : (trainSymbols bits).length = 2 * bits.length + 3 := by
  simp [trainSymbols_eq]

@[simp] theorem trainOf_length (c : Cfg) (bits : List Bit) : (trainOf c bits).length = 2 * bits.length + 3 := by
  simp [trainOf]

theorem bitSymbols_even (bits : List Bit) (i : Nat) (b : Bit) (h : bits[i]? = some b) :
    (bitSymbols bits)[2 * i]? = some (bitSymbol b) := by
  induction bits generalizing i with
  | nil => simp at h
  | cons x bits ih =>
    cases i with
    | zero => simp at h; subst h; rfl
    | succ i => simpa [bitSymbols, Nat.mul_succ] using ih i (by simpa using h)

theorem bitSymbols_odd (bits : List Bit) (i : Nat) (h : i < bits.length) :
    (bitSymbols bits)[2 * i + 1]? = some .gap := by
  induction bits generalizing i with
  | nil => simp at h
  | cons x bits ih =>
    cases i with
    | zero => rfl
    | succ i => simpa [bitSymbols, Nat.mul_succ] using ih i (by simpa using h)

/-- The symbol a train has at a place: the start marker, gaps at the odd places, a bit, the stop marker (R94). -/
theorem trainSymbols_odd (bits : List Bit) (k : Nat) (h : k ≤ bits.length) :
    (trainSymbols bits)[2 * k + 1]? = some .gap := by
  rw [trainSymbols_eq, List.getElem?_append_left (by simp; omega)]
  cases k with
  | zero => rfl
  | succ k => simpa [Nat.mul_succ] using bitSymbols_odd bits k (by omega)

theorem trainSymbols_bit (bits : List Bit) (i : Nat) (b : Bit) (h : bits[i]? = some b) :
    (trainSymbols bits)[2 * i + 2]? = some (bitSymbol b) := by
  have := (List.getElem?_eq_some_iff.1 h).1
  rw [trainSymbols_eq, List.getElem?_append_left (by simp; omega)]
  simpa using bitSymbols_even bits i b h

theorem trainSymbols_stop (bits : List Bit) : (trainSymbols bits)[2 * bits.length + 2]? = some .stop := by
  rw [trainSymbols_eq, List.getElem?_append_right (by simp)]
  simp

/-- A symbol's own nominal duration lies in its window. -/
theorem inWindow_nominal (c : Cfg) (x : Symbol) : inWindow c (nominal c x) x = true := by
  simp [inWindow]

/-- In a well-formed configuration a duration is in the window of at most one pulse symbol (R9 clause (b)). -/
theorem pulseClass_of_inWindow (c : Cfg) (d : Nat) (x : Symbol) (hw : c.windowsDisjoint = true) (hx : x ≠ .gap)
    (h : inWindow c d x = true) : pulseClass c d = [x] := by
  simp only [Cfg.windowsDisjoint, windowsApart, Bool.and_eq_true, Bool.or_eq_true, decide_eq_true_eq] at hw
  simp only [inWindow, Bool.and_eq_true, decide_eq_true_eq] at h
  obtain ⟨⟨⟨⟨⟨h1, h2⟩, h3⟩, h4⟩, h5⟩, h6⟩ := hw
  have no : ∀ y, (nominal c y - tolerance c y ≤ d → d ≤ nominal c y + tolerance c y → False) → inWindow c d y = false := by
    intro y hy
    by_contra hh
    simp only [Bool.not_eq_false, inWindow, Bool.and_eq_true, decide_eq_true_eq] at hh
    exact hy hh.1 hh.2
  have yes : inWindow c d x = true := by simp only [inWindow, Bool.and_eq_true, decide_eq_true_eq]; exact h
  simp only [pulseClass, List.filter_cons, List.filter_nil]
  cases x <;> simp only [nominal, tolerance] at h
  · rw [yes, no .long (by simp only [nominal, tolerance]; omega), no .start (by simp only [nominal, tolerance]; omega),
      no .stop (by simp only [nominal, tolerance]; omega)]; rfl
  · rw [yes, no .short (by simp only [nominal, tolerance]; omega), no .start (by simp only [nominal, tolerance]; omega),
      no .stop (by simp only [nominal, tolerance]; omega)]; rfl
  · rw [yes, no .short (by simp only [nominal, tolerance]; omega), no .long (by simp only [nominal, tolerance]; omega),
      no .stop (by simp only [nominal, tolerance]; omega)]; rfl
  · rw [yes, no .short (by simp only [nominal, tolerance]; omega), no .long (by simp only [nominal, tolerance]; omega),
      no .start (by simp only [nominal, tolerance]; omega)]; rfl
  · exact absurd rfl hx

/-- An event that is a valid instance of a symbol (R131, R135). -/
def Fits (c : Cfg) (x : Symbol) (e : PulseEvent) : Prop := e.edge = symbolEdge x ∧ inWindow c e.dur x = true

/-- The time of the last event, or `prev` before the first. -/
def lastTime (prev : Nat) (es : List PulseEvent) : Nat := es.foldl (fun _ e => e.t) prev

/-- The bit a symbol stands for; a marker or a gap stands for none. -/
def symbolBits : Symbol → List Bit
  | .short => [false]
  | .long => [true]
  | _ => []

/-- Whether symbol `x` may stand at place `k` before the stop marker (R94). -/
def placeOk (k : Nat) (x : Symbol) : Prop :=
  if k % 2 = 1 then x = .gap else if k = 0 then x = .start else x = .short ∨ x = .long

theorem lastTime_append (prev : Nat) (a b : List PulseEvent) : lastTime prev (a ++ b) = lastTime (lastTime prev a) b := by
  simp [lastTime]

/-- In a well-formed configuration a valid instance of a symbol is that symbol's alone (R9 clause (b)). -/
theorem Fits.alone {c : Cfg} {x : Symbol} {e : PulseEvent} (hw : c.windowsDisjoint = true) (hf : Fits c x e) :
    AloneIn c x e := by
  refine ⟨hf.1, ?_⟩
  split
  · next h => subst h; exact hf.2
  · next h => exact pulseClass_of_inWindow c e.dur x hw h hf.2

/-- One event that is a symbol's alone, short of the stop marker: the decoder takes its bit and goes on. -/
theorem decodeFrom_alone (c : Cfg) (e : PulseEvent) (rest : List PulseEvent) (x : Symbol) (k prev : Nat) (acc : List Bit)
    (hf : AloneIn c x e) (hk : placeOk k x) (ht : prev ≤ e.t) :
    decodeFrom c (e :: rest) k prev false acc = decodeFrom c rest (k + 1) e.t false (acc ++ symbolBits x) := by
  rw [decodeFrom, if_neg (by omega)]
  obtain ⟨h1, h2⟩ := hf
  unfold placeOk at hk
  by_cases hodd : k % 2 = 1
  · rw [if_pos hodd] at hk; subst hk
    have : e.edge = expectedEdge k := by rw [h1, expectedEdge, if_neg (by omega)]; rfl
    simp only [if_true] at h2
    simp [this, hodd, h2, symbolBits]
  · rw [if_neg hodd] at hk
    have he : expectedEdge k = .rise := by rw [expectedEdge, if_pos (by omega)]
    by_cases h0 : k = 0
    · rw [if_pos h0] at hk; subst hk h0
      have : e.edge = expectedEdge 0 := by rw [h1, he]; rfl
      simp only [reduceCtorEq, if_false] at h2
      simp [this, h2, symbolBits]
    · rw [if_neg h0] at hk
      rcases hk with rfl | rfl
      all_goals
        have : e.edge = expectedEdge k := by rw [h1, he]; rfl
        simp only [reduceCtorEq, if_false] at h2
        simp [this, hodd, h0, h2, symbolBits]

/-- The stop marker ends the train. -/
theorem decodeFrom_stop (c : Cfg) (hw : c.windowsDisjoint = true) (e : PulseEvent) (rest : List PulseEvent)
    (k prev : Nat) (acc : List Bit) (hf : Fits c .stop e) (hk : k % 2 = 0) (h0 : k ≠ 0) (ht : prev ≤ e.t) :
    decodeFrom c (e :: rest) k prev false acc = decodeFrom c rest (k + 1) e.t true acc := by
  have : e.edge = expectedEdge k := by rw [hf.1, expectedEdge, if_pos hk]; rfl
  rw [decodeFrom, if_neg (by omega)]
  simp [this, hk, h0, pulseClass_of_inWindow c e.dur .stop hw (by simp) hf.2]

/-- A beginning of a train, each event a symbol's alone, short of the stop marker: the decoder has its bits and stands at
the event after it. -/
theorem decodeFrom_good_alone (c : Cfg) (good rest : List PulseEvent) (xs : List Symbol) (k prev : Nat) (acc : List Bit)
    (hf : List.Forall₂ (AloneIn c) xs good) (hk : ∀ j x, xs[j]? = some x → placeOk (k + j) x)
    (hp : good.Pairwise (fun a b => a.t ≤ b.t)) (ht : ∀ e ∈ good, prev ≤ e.t) :
    decodeFrom c (good ++ rest) k prev false acc
      = decodeFrom c rest (k + good.length) (lastTime prev good) false (acc ++ xs.flatMap symbolBits) := by
  induction hf generalizing k prev acc with
  | nil => simp [lastTime]
  | @cons x e xs good hx hf ih =>
    rw [List.pairwise_cons] at hp
    rw [List.cons_append, decodeFrom_alone c e _ x k prev acc hx (hk 0 x rfl) (ht e (by simp)),
      ih (k + 1) e.t _ (fun j y hy => by simpa [Nat.add_assoc, Nat.add_comm 1] using hk (j + 1) y (by simpa using hy))
        hp.2 hp.1]
    simp only [List.length_cons, List.flatMap_cons, List.append_assoc, lastTime, List.foldl_cons]
    congr 1
    omega

/-- The same in a well-formed configuration, for valid events. -/
theorem decodeFrom_good (c : Cfg) (hw : c.windowsDisjoint = true) (good rest : List PulseEvent) (xs : List Symbol)
    (k prev : Nat) (acc : List Bit) (hf : List.Forall₂ (Fits c) xs good)
    (hk : ∀ j x, xs[j]? = some x → placeOk (k + j) x) (hp : good.Pairwise (fun a b => a.t ≤ b.t))
    (ht : ∀ e ∈ good, prev ≤ e.t) :
    decodeFrom c (good ++ rest) k prev false acc
      = decodeFrom c rest (k + good.length) (lastTime prev good) false (acc ++ xs.flatMap symbolBits) :=
  decodeFrom_good_alone c good rest xs k prev acc (hf.imp (fun _ _ h => h.alone hw)) hk hp ht

/-- Before the stop marker every symbol of a train stands where it may. -/
theorem placeOk_trainSymbols (bits : List Bit) (j : Nat) (x : Symbol) (hj : j < 2 * bits.length + 2)
    (h : (trainSymbols bits)[j]? = some x) : placeOk j x := by
  unfold placeOk
  split
  · rename_i h1
    have := trainSymbols_odd bits (j / 2) (by omega)
    rw [show 2 * (j / 2) + 1 = j by omega, h] at this
    simpa using this
  · rename_i h1
    split
    · rename_i h0; subst h0
      simpa [trainSymbols] using h.symm
    · rename_i h0
      have hb : j / 2 - 1 < bits.length := by omega
      have := trainSymbols_bit bits (j / 2 - 1) bits[j / 2 - 1] (List.getElem?_eq_getElem hb)
      rw [show 2 * (j / 2 - 1) + 2 = j by omega, h] at this
      simp only [Option.some.injEq] at this
      rw [this]
      cases bits[j / 2 - 1] <;> simp [bitSymbol]

/-- The bits of a train before its stop marker. -/
theorem symbolBits_train (bits : List Bit) :
    (Symbol.start :: Symbol.gap :: bitSymbols bits).flatMap symbolBits = bits := by
  have h : ∀ l : List Bit, (l.flatMap (fun b => [bitSymbol b, Symbol.gap])).flatMap symbolBits = l := by
    intro l
    induction l with
    | nil => rfl
    | cons b l ih =>
      rw [List.flatMap_cons, List.flatMap_append, ih]
      cases b <;> rfl
  simpa [symbolBits, bitSymbols] using h bits

/-- A whole valid train: the decoder has its bits and is done; only the end of the events may follow. -/
theorem decodeFrom_train (c : Cfg) (hw : c.windowsDisjoint = true) (bits : List Bit) (events rest : List PulseEvent)
    (hf : List.Forall₂ (Fits c) (trainSymbols bits) events) (hp : events.Pairwise (fun a b => a.t ≤ b.t)) :
    decodeFrom c (events ++ rest) 0 0 false []
      = decodeFrom c rest (2 * bits.length + 3) (lastTime 0 events) true bits := by
  rw [trainSymbols_eq] at hf
  obtain ⟨good, last, h1, h2, rfl⟩ : ∃ good last, List.Forall₂ (Fits c) (Symbol.start :: Symbol.gap :: bitSymbols bits) good
      ∧ List.Forall₂ (Fits c) [Symbol.stop] last ∧ events = good ++ last :=
    ⟨_, _, (List.forall₂_take_append _ _ _ hf.flip).flip, (List.forall₂_drop_append _ _ _ hf.flip).flip,
      (List.take_append_drop _ _).symm⟩
  cases h2 with
  | @cons _ e _ _ he h2 =>
  cases h2
  have hlen : good.length = 2 * bits.length + 2 := by simpa using h1.length_eq.symm
  rw [List.pairwise_append] at hp
  rw [List.append_assoc, decodeFrom_good c hw good ([e] ++ rest) _ 0 0 [] h1 ?_ hp.1 (by simp)]
  · rw [List.singleton_append, decodeFrom_stop c hw e rest _ _ _ he (by omega) (by omega) ?_]
    · rw [List.nil_append, symbolBits_train, lastTime_append]
      simp [hlen, lastTime]
    · cases hg : good.getLast? with
      | none => simp at hg; subst hg; simp at hlen
      | some y =>
        obtain ⟨ys, rfl⟩ := List.getLast?_eq_some_iff.1 hg
        simp only [lastTime, List.foldl_append, List.foldl_cons, List.foldl_nil]
        exact hp.2.2 y (by simp) e (by simp)
  · intro j x hx
    have hj := (List.getElem?_eq_some_iff.1 hx).1
    rw [Nat.zero_add]
    refine placeOk_trainSymbols bits j x (by simp at hj; omega) ?_
    rw [trainSymbols_eq, List.getElem?_append_left hj, hx]

/-- The encoded train is valid (R132, R135). -/
theorem trainOf_fits (c : Cfg) (bits : List Bit) : List.Forall₂ (Fits c) (trainSymbols bits) (trainOf c bits) := by
  rw [List.forall₂_iff_get]
  refine ⟨by simp, fun k h1 h2 => ?_⟩
  have h : (trainOf c bits)[k]? = some ((trainOf c bits).get ⟨k, h2⟩) := by simp
  have := timed_getElem? _ _ _ _ h
  rw [List.getElem?_map, List.getElem?_eq_getElem h1] at this
  simp only [Option.map_some, Option.some.injEq, Prod.mk.injEq] at this
  refine ⟨this.1.symm, ?_⟩
  rw [← this.2]
  exact inWindow_nominal c _

theorem trainOf_pairwise (c : Cfg) (bits : List Bit) : (trainOf c bits).Pairwise (fun a b => a.t ≤ b.t) :=
  timed_pairwise _ _

/-- The decoder answers bits, or a TimingViolation whose index is not past the events (R135). -/
theorem decodeFrom_answers (c : Cfg) (events : List PulseEvent) (k prev : Nat) (fin : Bool) (acc : List Bit) :
    (∃ bits, decodeFrom c events k prev fin acc = .ok bits)
      ∨ ∃ kind j, k ≤ j ∧ j ≤ k + events.length ∧ decodeFrom c events k prev fin acc = .error (.timingViolation kind j) := by
  induction events generalizing k prev fin acc with
  | nil =>
    cases fin with
    | true => exact .inl ⟨acc, rfl⟩
    | false => exact .inr ⟨.truncated, k, Nat.le_refl k, Nat.le_refl _, rfl⟩
  | cons e rest ih =>
    have stop : ∀ kind, ∃ kind' j, k ≤ j ∧ j ≤ k + (e :: rest).length
        ∧ (Except.error (Err.timingViolation kind k) : Except Err (List Bit)) = .error (.timingViolation kind' j) :=
      fun kind => ⟨kind, k, Nat.le_refl k, by omega, rfl⟩
    have go : ∀ prev fin acc,
        (∃ bits, decodeFrom c rest (k + 1) prev fin acc = .ok bits)
          ∨ ∃ kind j, k ≤ j ∧ j ≤ k + (e :: rest).length
              ∧ decodeFrom c rest (k + 1) prev fin acc = .error (.timingViolation kind j) := by
      intro prev fin acc
      rcases ih (k + 1) prev fin acc with h | ⟨kind, j, h1, h2, h3⟩
      · exact .inl h
      · exact .inr ⟨kind, j, by omega, by simp only [List.length_cons]; omega, h3⟩
    rw [decodeFrom]
    split
    · exact .inr (stop _)
    · split
      · exact .inr (stop _)
      · split
        · exact .inr (stop _)
        · split
          · split
            · exact go _ _ _
            · exact .inr (stop _)
          · split
            · exact .inr (stop _)
            · exact .inr (stop _)
            · split
              · split
                · exact go _ _ _
                · exact .inr (stop _)
              · split
                · exact go _ _ _
                · exact go _ _ _
                · exact go _ _ _
                · exact .inr (stop _)

/-- Serialising durations below 2^24 gives the pulse words back to back (R137). -/
theorem gocSer_ok (events : List PulseEvent) (h : ∀ e ∈ events, e.dur < 2 ^ 24) :
    gocSer events = .ok (events.flatMap (fun e => pulseWordBytes e.edge e.dur)) := by
  induction events with
  | nil => rfl
  | cons e rest ih =>
    have he := h e (by simp)
    rw [gocSer, if_neg (by omega), ih (fun x hx => h x (by simp [hx]))]
    rfl

/-- A duration of 2^24 or more has no wire form (R137). -/
theorem gocSer_error (events : List PulseEvent) (h : ∃ e ∈ events, 2 ^ 24 ≤ e.dur) :
    gocSer events = .error (.outside .durationTooLong) := by
  induction events with
  | nil => simp at h
  | cons e rest ih =>
    rw [gocSer]
    split
    · rfl
    · rename_i he
      rw [ih ?_]
      obtain ⟨x, hx, hd⟩ := h
      rcases List.mem_cons.1 hx with rfl | hx
      · exact absurd hd he
      · exact ⟨x, hx, hd⟩

/-- Deserialising serialised words gives their edges and durations, with the times rebuilt (R138). -/
theorem deserFrom_words (t : Nat) (l : List (Edge × Nat)) (h : ∀ x ∈ l, x.2 < 2 ^ 24) :
    deserFrom t (l.flatMap (fun x => pulseWordBytes x.1 x.2)) = some (timed t l) := by
  induction l generalizing t with
  | nil => rfl
  | cons x l ih =>
    obtain ⟨e, d⟩ := x
    have hd : ofBe [byteAt d 2, byteAt d 1, byteAt d 0] = d := ofBe_be24 d (h (e, d) (by simp))
    have := ih (t + d) (fun y hy => h y (by simp [hy]))
    simp only [List.flatMap_cons, pulseWordBytes, be24, List.cons_append, List.nil_append] at this ⊢
    rw [deserFrom, hd]
    simp only [this]
    cases e <;> simp [encodeEdge, timed]

end Sys2Proof.Machine
end

