-- ==== Sys2Proof/Laws/PerInstr.lean ====
section
/-! SUPPORT. Statements made per instruction: the family of LAWS.json, with one lemma per constructor of Instr. -/

namespace Sys2Proof.Laws

/-- An instruction whose agent takes bytes has an encoding of at least one byte, so no turn can run it on an empty input
(spec 30_encoding.md R120: the op code; R96, R100, R102, R104: the fixed bytes). -/
def EncodingNonempty.Statement (i : Instr) : Prop := Machine.takesBytes i.turn = true → ∀ c, encode c i ≠ []

theorem EncodingNonempty.gocEncode (bits : List Bit) : EncodingNonempty.Statement (.gocEncode bits) := by
  simp [EncodingNonempty.Statement, Machine.takesBytes, Instr.turn, encode]

theorem EncodingNonempty.gocDecode (events : List PulseEvent) : EncodingNonempty.Statement (.gocDecode events) := by
  simp [EncodingNonempty.Statement, Machine.takesBytes, Instr.turn, encode]

theorem EncodingNonempty.gocSer (events : List PulseEvent) : EncodingNonempty.Statement (.gocSer events) := by
  simp [EncodingNonempty.Statement, Machine.takesBytes, Instr.turn, encode]

theorem EncodingNonempty.gocDeser (body : Bytes) : EncodingNonempty.Statement (.gocDeser body) := by
  simp [EncodingNonempty.Statement, Machine.takesBytes, Instr.turn, encode]

theorem EncodingNonempty.einBuild (dest opcode : Byte) (payload : Bytes) : EncodingNonempty.Statement (.einBuild dest opcode payload) := by
  simp [EncodingNonempty.Statement, Machine.takesBytes, Instr.turn, encode]

theorem EncodingNonempty.einParse (body : Bytes) : EncodingNonempty.Statement (.einParse body) := by
  simp [EncodingNonempty.Statement, Machine.takesBytes, Instr.turn, encode]

theorem EncodingNonempty.mbusBuild (src dst msgId fragIndex fragCount : Byte) (chunk : Bytes) : EncodingNonempty.Statement (.mbusBuild src dst msgId fragIndex fragCount chunk) := by
  simp [EncodingNonempty.Statement, Machine.takesBytes, Instr.turn, encode]

theorem EncodingNonempty.mbusParse (body : Bytes) : EncodingNonempty.Statement (.mbusParse body) := by
  simp [EncodingNonempty.Statement, Machine.takesBytes, Instr.turn, encode]

theorem EncodingNonempty.mbusFragment (src dst msgId : Byte) (payload : Bytes) : EncodingNonempty.Statement (.mbusFragment src dst msgId payload) := by
  simp [EncodingNonempty.Statement, Machine.takesBytes, Instr.turn, encode]

theorem EncodingNonempty.mbusReassemble (src dst msgId fragIndex fragCount : Byte) (chunk : Bytes) : EncodingNonempty.Statement (.mbusReassemble src dst msgId fragIndex fragCount chunk) := by
  simp [EncodingNonempty.Statement, Machine.takesBytes, Instr.turn, encode]

theorem EncodingNonempty.muxSend (chan : Channel) (body : Bytes) : EncodingNonempty.Statement (.muxSend chan body) := by
  simp [EncodingNonempty.Statement, Machine.takesBytes, Instr.turn, encode]

theorem EncodingNonempty.muxReceive : EncodingNonempty.Statement (.muxReceive) := by
  simp [EncodingNonempty.Statement, Machine.takesBytes, Instr.turn, encode]

theorem EncodingNonempty.setRail (rail : Nat) (st : RailState) : EncodingNonempty.Statement (.setRail rail st) := by
  simp [EncodingNonempty.Statement, Machine.takesBytes, Instr.turn, encode]

theorem EncodingNonempty.reset (kind : ResetKind) : EncodingNonempty.Statement (.reset kind) := by
  simp [EncodingNonempty.Statement, Machine.takesBytes, Instr.turn, encode]

theorem EncodingNonempty.gocSend (bits : List Bit) : EncodingNonempty.Statement (.gocSend bits) := by
  simp [EncodingNonempty.Statement, Machine.takesBytes, Instr.turn, encode]

theorem EncodingNonempty.einSend (addr opcode : Byte) (payload : Bytes) : EncodingNonempty.Statement (.einSend addr opcode payload) := by
  simp [EncodingNonempty.Statement, Machine.takesBytes, Instr.turn, encode]

theorem EncodingNonempty.mbusSend (src dst : Byte) (payload : Bytes) : EncodingNonempty.Statement (.mbusSend src dst payload) := by
  simp [EncodingNonempty.Statement, Machine.takesBytes, Instr.turn, encode]

theorem EncodingNonempty.cancel : EncodingNonempty.Statement (.cancel) := by
  simp [EncodingNonempty.Statement, Machine.takesBytes, Instr.turn, encode]

theorem EncodingNonempty.snoopStart : EncodingNonempty.Statement (.snoopStart) := by
  simp [EncodingNonempty.Statement, Machine.takesBytes, Instr.turn, encode]

theorem EncodingNonempty.snoopStop : EncodingNonempty.Statement (.snoopStop) := by
  simp [EncodingNonempty.Statement, Machine.takesBytes, Instr.turn, encode]

theorem EncodingNonempty.snoopExport : EncodingNonempty.Statement (.snoopExport) := by
  simp [EncodingNonempty.Statement, Machine.takesBytes, Instr.turn, encode]

theorem EncodingNonempty.rxByte (b : Byte) : EncodingNonempty.Statement (.rxByte b) := by
  simp [EncodingNonempty.Statement, Machine.takesBytes, Instr.turn, encode]

theorem EncodingNonempty.dispatch : EncodingNonempty.Statement (.dispatch) := by
  simp [EncodingNonempty.Statement, Machine.takesBytes, Instr.turn, encode]

theorem EncodingNonempty.tick : EncodingNonempty.Statement (.tick) := by
  simp [EncodingNonempty.Statement, Machine.takesBytes, Instr.turn, encode]

theorem EncodingNonempty.recFail : EncodingNonempty.Statement (.recFail) := by
  simp [EncodingNonempty.Statement, Machine.takesBytes, Instr.turn, encode]

theorem EncodingNonempty.record (pre : Byte) (body : Bytes) : EncodingNonempty.Statement (.record pre body) := by
  simp [EncodingNonempty.Statement, Machine.takesBytes, Instr.turn, encode]

theorem EncodingNonempty.pulseWord (edge : Edge) (dur : Nat) : EncodingNonempty.Statement (.pulseWord edge dur) := by
  simp [EncodingNonempty.Statement, Machine.takesBytes, Instr.turn, encode]

theorem EncodingNonempty.einBody (dest opcode : Byte) (payload checksum : Bytes) : EncodingNonempty.Statement (.einBody dest opcode payload checksum) := by
  simp [EncodingNonempty.Statement, Machine.takesBytes, Instr.turn, encode]

theorem EncodingNonempty.mbusBody (src dst msgId fragIndex fragCount : Byte) (chunk crc : Bytes) : EncodingNonempty.Statement (.mbusBody src dst msgId fragIndex fragCount chunk crc) := by
  simp [EncodingNonempty.Statement, Machine.takesBytes, Instr.turn, encode]

end Sys2Proof.Laws
end

