-- ==== Sys2Proof/Tests/Slice0.lean ====
section
/-! SUPPORT. The model's own tests: the refusals of WellFormed, words written out from the encodings of 30_encoding.md, the
vectors of 95_test_vectors.md, one step each, and the witnesses of the statements' hypotheses. -/

namespace Sys2Proof.Tests

open Machine

/-- The next state of an instruction, if it has one. -/
def after (i : Instr) (s : State) : Option State :=
  match exec i s with
  | .next t => some t
  | _ => none

/-- What an instruction returns. -/
def returns (i : Instr) (s : State) : Option (List Result) := (after i s).map (fun t => t.ret)

/-- The refusal of an instruction, if it is refused. -/
def refusalOf (i : Instr) (s : State) : Option Refusal :=
  match exec i s with
  | .refused r => some r
  | _ => none

/-- The block after reset with its rails in given states. -/
def withRails (l : List RailState) : State := State.reset.setRail l

/-- The block with rails LOW, HIGH, OFF, the start of the vectors V-P2 and V-P6. -/
def powered : State := withRails [.low, .high, .off]

/-- What a decoded turn gives, the bytes all taken. -/
def decodesTo (t : Turn) (bs : Bytes) (i : Instr) : Bool := decode cfgRef t bs == .ok (i, [])

/-! ## WellFormed: each check refuses an ill-formed term -/

/-- CFG_REF is well formed (00_scope.md R9, R10). -/
theorem test_wf_cfgRef : cfgRef.wf = true := by decide

/-- SHORT [0, 20] and LONG [18, 42] overlap: clause (b) alone is broken. -/
theorem test_wf_windows : let c := { cfgRef with tolShort := 10, tolLong := 12 }
    c.wf = false ∧ c.windowsDisjoint = false ∧ c.wfButWindows = true := by decide

theorem test_wf_durations : { cfgRef with tGap := 2 ^ 24 }.durationsOk = false
    ∧ { cfgRef with tolStop := 91 }.durationsOk = false := by decide

theorem test_wf_preambles : { cfgRef with preMbus := 0x45 }.preamblesDistinct = false := by decide

theorem test_wf_sizes : { cfgRef with einMaxPayload := 256 }.sizesOk = false ∧ { cfgRef with mbusMaxChunk := 0 }.sizesOk = false
    ∧ { cfgRef with mbusMaxChunk := 256 }.sizesOk = false ∧ { cfgRef with mbusMaxFrags := 0 }.sizesOk = false
    ∧ { cfgRef with mbusMaxFrags := 256 }.sizesOk = false ∧ { cfgRef with gocMaxBits := 8191 }.sizesOk = false := by decide

theorem test_wf_rails : { cfgRef with govMbus := 3 }.railsOk = false ∧ { cfgRef with softRail := 3 }.railsOk = false
    ∧ { cfgRef with nrails := 1, govMbus := 0 }.railsOk = false := by decide

theorem test_wf_checks : { cfgRef with einCkLen := 0 }.checksOk = false := by decide

/-- A block is not constructed from an ill-formed configuration, clause (b) excepted (93_implementation_defined.md U6). -/
theorem test_construct : State.constructChecked { cfgRef with preMbus := 0x45 } = .error .badConfig
    ∧ (State.constructChecked { cfgRef with tolShort := 10, tolLong := 12 }).isOk = true := by decide

theorem test_wf_operands : (Instr.pulseWord .rise (2 ^ 24)).wf cfgRef = false
    ∧ (Instr.setRail 64 .low).wf cfgRef = false ∧ (Instr.setRail 64 .low).wf { cfgRef with nrails := 65 } = true
    ∧ (Instr.einBody 1 2 [] []).wf cfgRef = false ∧ (Instr.mbusBody 1 2 3 0 1 [] [0]).wf cfgRef = false := by decide

theorem test_wf_lengths : (Instr.record 0x45 (List.replicate 65536 0)).wf cfgRef = false
    ∧ (Instr.einBody 1 2 (List.replicate 256 0) [0]).wf cfgRef = false
    ∧ (Instr.mbusBody 1 2 3 0 1 (List.replicate 256 0) [0, 0]).wf cfgRef = false := by
  simp only [Instr.wf, List.length_replicate]
  decide

theorem test_wf_preamble : (Instr.record 0x46 []).wf cfgRef = false ∧ (Instr.record 0x4D []).wf cfgRef = true := by decide

/-! ## Decoding: a word for every constructor, from R96, R100, R102, R104, R120, R121 -/

theorem test_decode_gocEncode : decodesTo .client [0x01, 2, 1, 0] (.gocEncode [true, false]) = true := by decide

theorem test_decode_gocDecode :
    decodesTo .client [0x02, 1, 0x81, 0x02, 0x01, 60] (.gocDecode [⟨258, .rise, 60⟩]) = true := by decide

theorem test_decode_gocSer :
    decodesTo .client [0x03, 1, 60, 0x00, 10] (.gocSer [⟨60, .fall, 10⟩]) = true := by decide

/-- A time of more than 32 bits comes through the port (40_goc_codec.md R142). -/
theorem test_decode_longTime : let i := Instr.gocDecode [⟨2 ^ 40 + 1, .rise, 60⟩]
    decodesTo .client (encode cfgRef i) i = true := by decide

theorem test_decode_gocDeser : decodesTo .client [0x04, 1, 0xAB] (.gocDeser [0xAB]) = true := by decide

theorem test_decode_einBuild : decodesTo .client [0x05, 0xA5, 0x10, 1, 0xDE] (.einBuild 0xA5 0x10 [0xDE]) = true := by
  decide

theorem test_decode_einParse : decodesTo .client [0x06, 0] (.einParse []) = true := by decide

theorem test_decode_mbusBuild : decodesTo .client [0x07, 0x21, 0x35, 7, 2, 3, 1, 0x18]
    (.mbusBuild 0x21 0x35 7 2 3 [0x18]) = true := by decide

theorem test_decode_mbusParse : decodesTo .client [0x08, 1, 0x21] (.mbusParse [0x21]) = true := by decide

theorem test_decode_mbusFragment : decodesTo .client [0x09, 0x21, 0x35, 7, 1, 0x10]
    (.mbusFragment 0x21 0x35 7 [0x10]) = true := by decide

theorem test_decode_mbusReassemble : decodesTo .client [0x0A, 0x21, 0x35, 9, 0, 2, 1, 0xAA]
    (.mbusReassemble 0x21 0x35 9 0 2 [0xAA]) = true := by decide

theorem test_decode_muxSend : decodesTo .client [0x10, 0x00, 1, 9] (.muxSend .goc [9]) = true
    ∧ decodesTo .client [0x10, 0x01, 0] (.muxSend .ein []) = true
    ∧ decodesTo .client [0x10, 0x02, 0] (.muxSend .mbus []) = true := by decide

theorem test_decode_muxReceive : decodesTo .client [0x11] .muxReceive = true := by decide

/-- The rail in bits 7..2, the state in bits 1..0 (R110, R121): P1's `20 01`, P2's `20 07`, and the last rail. -/
theorem test_decode_setRail : decodesTo .client [0x20, 0x01] (.setRail 0 .low) = true
    ∧ decodesTo .client [0x20, 0x07] (.setRail 1 .high) = true ∧ decodesTo .client [0x20, 0x02] (.setRail 0 .mid) = true
    ∧ decodesTo .client [0x20, 0xFC] (.setRail 63 .off) = true := by decide

/-- Rails beyond 63, where the configuration has them: P1's `20 01` is then followed by a high part (R42, log entry 6). -/
theorem test_decode_setRail_wide : let c := { cfgRef with nrails := 65 }
    decode c .client [0x20, 0x01, 0x00] = .ok (.setRail 0 .low, []) ∧ decode c .client [0x20, 0x01, 0x01] = .ok (.setRail 64 .low, [])
    ∧ encode c (.setRail 64 .low) = [0x20, 0x01, 0x01] ∧ decode c .client [0x20, 0x01] = .error .truncated := by decide

theorem test_decode_reset : decodesTo .client [0x21, 0x00] (.reset .soft) = true
    ∧ decodesTo .client [0x21, 0x01] (.reset .hard) = true
    ∧ decode cfgRef .client [0x21, 0x02] = .error (.reservedKind 0x02) := by decide

theorem test_decode_gocSend : decodesTo .client [0x30, 1, 1] (.gocSend [true]) = true
    ∧ decode cfgRef .client [0x30, 1, 2] = .error (.badBit 2) := by decide

theorem test_decode_einSend : decodesTo .client [0x31, 0x12, 0x01, 0] (.einSend 0x12 0x01 []) = true := by decide

theorem test_decode_mbusSend : decodesTo .client [0x32, 0x21, 0x35, 1, 1] (.mbusSend 0x21 0x35 [1]) = true := by
  decide

theorem test_decode_cancel : decodesTo .client [0x33] .cancel = true := by decide

theorem test_decode_snoopStart : decodesTo .client [0x34] .snoopStart = true := by decide

theorem test_decode_snoopStop : decodesTo .client [0x35] .snoopStop = true := by decide

theorem test_decode_snoopExport : decodesTo .client [0x36] .snoopExport = true := by decide

theorem test_decode_rxByte : decodesTo .reader [0x45] (.rxByte 0x45) = true := by decide

theorem test_decode_dispatch : decodesTo .dispatcher [] .dispatch = true := by decide

theorem test_decode_tick : decodesTo .clock [] .tick = true := by decide

theorem test_decode_recFail : decodesTo .recorder [] .recFail = true := by decide

theorem test_decode_record : decodesTo (.peer .record) [0x45, 0x00, 0x01, 0xAB] (.record 0x45 [0xAB]) = true
    ∧ decode cfgRef (.peer .record) [0x46, 0, 0] = .error (.badPreamble 0x46) := by decide

/-- A pulse word of duration 0x010203, and an edge byte above 0x01 (R96, R112). -/
theorem test_decode_pulseWord : decodesTo (.peer .pulseWord) [0x00, 1, 2, 3] (.pulseWord .fall 66051) = true
    ∧ decode cfgRef (.peer .pulseWord) [0x02, 0, 0, 0x3C] = .error (.badEdge 0x02) := by decide

theorem test_decode_einBody : decodesTo (.peer .einBody) [0x12, 0x02, 0x01, 0xEE, 0x14] (.einBody 0x12 0x02 [0xEE] [0x14])
    = true := by decide

theorem test_decode_mbusBody : decodesTo (.peer .mbusBody) [0x21, 0x35, 7, 2, 3, 2, 0x18, 0x19, 0x5D, 0x13]
    (.mbusBody 0x21 0x35 7 2 3 [0x18, 0x19] [0x5D, 0x13]) = true := by decide

/-- Nothing falls through: a reserved op code, channel code 3, and bytes that end too soon. -/
theorem test_decode_refuses : decode cfgRef .client [0x37] = .error (.reservedOpcode 0x37)
    ∧ decode cfgRef .client [0x00] = .error (.reservedOpcode 0x00)
    ∧ decode cfgRef .client [0x10, 0x03, 0] = .error (.reservedChannel 0x03)
    ∧ decode cfgRef .client [0x04, 2, 1] = .error .truncated ∧ decode cfgRef .client [] = .error .truncated := by
  decide

/-- The host's two entries: a word of the table, and the first step after reset that runs it. -/
theorem test_table_word : decodeTableWord 8 0x31 = some (.einSend 0 0 []) ∧ decodeTableWord 16 0x0720 = some (.setRail 1 .high)
    ∧ decodeTableWord 32 0x0000000A = some (.pulseWord .fall 10) ∧ decodeTableWord 8 0x37 = none := by decide

theorem test_withFetchWord : fetch (State.reset.withFetchWord 8 0x20) = .run (.setRail 0 .off) State.reset
    ∧ fetch (State.reset.withFetchWord 32 0x0100003C) = .run (.pulseWord .rise 60) State.reset := by decide

/-! ## The vectors of 95_test_vectors.md, one step each -/

/-- V-G3. -/
theorem test_gocEncode : returns (.gocEncode [true]) State.reset
    = some [.events [⟨0, .rise, 60⟩, ⟨60, .fall, 10⟩, ⟨70, .rise, 30⟩, ⟨100, .fall, 10⟩, ⟨110, .rise, 90⟩]] := by decide

/-- V-G6: every duration at an end of its own window. -/
theorem test_gocDecode_accepts : returns
      (.gocDecode [⟨0, .rise, 56⟩, ⟨56, .fall, 6⟩, ⟨62, .rise, 14⟩, ⟨76, .fall, 14⟩, ⟨90, .rise, 86⟩]) State.reset
    = some [.bits [false]] := by decide

/-- V-G25: under overlapping windows 20 is ambiguous. -/
theorem test_gocDecode_ambiguous : returns
      (.gocDecode [⟨0, .rise, 60⟩, ⟨60, .fall, 10⟩, ⟨70, .rise, 20⟩, ⟨90, .fall, 10⟩, ⟨100, .rise, 90⟩])
      (State.construct { cfgRef with tolShort := 12, tolLong := 12 })
    = some [.err (.timingViolation .ambiguous 2)] := by decide

/-- V-G3's body. -/
theorem test_gocSer : returns
      (.gocSer [⟨0, .rise, 60⟩, ⟨60, .fall, 10⟩, ⟨70, .rise, 30⟩, ⟨100, .fall, 10⟩, ⟨110, .rise, 90⟩]) State.reset
    = some [.bytes [1, 0, 0, 0x3C, 0, 0, 0, 0x0A, 1, 0, 0, 0x1E, 0, 0, 0, 0x0A, 1, 0, 0, 0x5A]] := by decide

/-- V-G29. -/
theorem test_gocDeser : returns (.gocDeser [1, 0xFF, 0xFF, 0xFF]) State.reset = some [.events [⟨0, .rise, 16777215⟩]] := by
  decide

/-- V-G27. -/
theorem test_gocDeser_short : returns (.gocDeser [1, 0, 0]) State.reset = some [.notGoc] := by decide

/-- V-E4: the carry out of bit 7 is discarded. -/
theorem test_einBuild : returns (.einBuild 0xFF 0xFF [0xFF]) State.reset = some [.bytes [0xFF, 0xFF, 1, 0xFF, 0xFE]] := by
  decide

/-- V-E6: the length test comes before the checksum test. -/
theorem test_einParse_length : returns (.einParse [0xA5, 0x10, 3, 0xDE, 0xAD, 0xBE, 0xEF, 0xF1]) State.reset
    = some [.err (.frameLength .ein (some 3) 4)] := by decide

/-- V-E11: the address is covered. -/
theorem test_einParse_checksum : returns (.einParse [0xA4, 0x10, 4, 0xDE, 0xAD, 0xBE, 0xEF, 0xF1]) State.reset
    = some [.err (.frameChecksum .ein)] := by decide

/-- G1's check values. -/
theorem test_crc16 : crc16 [] = 0xFFFF ∧ crc16 [0x31, 0x32, 0x33, 0x34, 0x35, 0x36, 0x37, 0x38, 0x39] = 0x29B1 := by
  decide +kernel

/-- V-M1, the last fragment. -/
theorem test_mbusBuild : returns (.mbusBuild 0x21 0x35 7 2 3 [0x18, 0x19]) State.reset
    = some [.bytes [0x21, 0x35, 7, 2, 3, 2, 0x18, 0x19, 0x5D, 0x13]] := by decide +kernel

/-- V-M6. -/
theorem test_mbusParse : returns (.mbusParse [0x21, 0x35, 7, 2, 3, 2, 0x18, 0x19, 0x5D, 0x13]) State.reset
    = some [.mbusMessage ⟨0x21, 0x35, 7, 2, 3, [0x18, 0x19], [0x5D, 0x13]⟩] := by decide +kernel

/-- V-M9. -/
theorem test_mbusParse_short : returns (.mbusParse [0x21, 0x35, 7, 2, 3, 2, 0x18]) State.reset
    = some [.err (.frameLength .mbus none 7)] := by decide

/-- V-M5: five bytes are cut 4 and 1. -/
theorem test_mbusFragment : returns (.mbusFragment 0x21 0x35 0 [1, 2, 3, 4, 5]) State.reset
    = some [.fragments [⟨0x21, 0x35, 0, 0, 2, [1, 2, 3, 4], []⟩, ⟨0x21, 0x35, 0, 1, 2, [5], []⟩]] := by decide

/-- V-M2. -/
theorem test_mbusFragment_broadcast : returns (.mbusFragment 0x21 0x00 1 [1, 2, 3, 4, 5]) State.reset
    = some [.err (.broadcastTooLarge 5 4)] := by decide

/-- The entry of V-M16: index 0 of 2 held for (0x21, 0x35, 9). -/
def entryHeld : State := State.reset.setReasm [(⟨0x21, 0x35, 9⟩, ⟨2, [(0, [0xAA])], 20⟩)]

/-- V-M16: the last index completes, in index order. -/
theorem test_mbusReassemble : (after (.mbusReassemble 0x21 0x35 9 1 2 [0xCC]) entryHeld).map (fun t => (t.reasm, t.ret))
    = some ([], [.complete ⟨0x21, 0x35, 9, [0xAA, 0xCC]⟩]) := by decide

/-- V-M16: a duplicate index is ignored, the first wins. -/
theorem test_mbusReassemble_duplicate : after (.mbusReassemble 0x21 0x35 9 0 2 [0xBB]) entryHeld
    = some (entryHeld.pushRet [.incomplete]) := by decide

/-- V-X5. -/
theorem test_muxSend : (after (.muxSend .ein []) powered).map (fun t => (t.tx, t.recLog))
    = some ([0x45, 0, 0], [⟨.tx, .chan .ein, [0x45, 0, 0]⟩]) := by decide

theorem test_muxReceive : (after .muxReceive (State.reset.setRxq [(.ein, [1]), (.goc, [])])).map (fun t => (t.rxq, t.ret))
    = some ([(.goc, [])], [.unit .ein [1]]) := by decide

/-- V-P6's reassembly entry. -/
def oneOfThree : List (Key × ReasmEntry) := [(⟨0x21, 0x35, 7⟩, ⟨3, [(0, [1])], 120⟩)]

/-- V-P6. -/
theorem test_setRail_down : (after (.setRail 1 .off) (powered.setReasm oneOfThree)).map
      (fun t => (t.rail, t.reasm, t.evt, t.ret))
    = some ([.low, .off, .off], [], [.error (.reassemblyTimeout ⟨0x21, 0x35, 7⟩ 1 3)], [.ok]) := by decide

/-- R236: a rail at or above nrails is no operation. -/
theorem test_setRail_range : refusalOf (.setRail 3 .low) powered = some (.railOutOfRange 3) := by decide

/-- V-P2. -/
theorem test_reset : (after (.reset .soft) (powered.setNow 100)).map (fun t => (t.rail, t.rst, t.ret))
    = some ([.off, .high, .off], ⟨true, 105, [0], [(0, .low)]⟩, []) := by decide

/-- V-P3: while a reset settles another is refused with ResetInProgress. -/
theorem test_reset_busy : returns (.reset .hard) (powered.setRst ⟨true, 105, [0], [(0, .low)]⟩)
    = some [.err .resetInProgress] := by decide

/-- V-X2. -/
theorem test_gocSend : (after (.gocSend [true, false]) powered).map (fun t => t.tx)
    = some [0x47, 0, 0x1C, 1, 0, 0, 0x3C, 0, 0, 0, 0x0A, 1, 0, 0, 0x1E, 0, 0, 0, 0x0A, 1, 0, 0, 0x0A, 0, 0, 0, 0x0A,
        1, 0, 0, 0x5A] := by decide

/-- V-X3 and P1's deadline. -/
theorem test_einSend : (after (.einSend 0x12 0x01 []) (powered.setNow 5)).map (fun t => (t.tx, t.wait, t.ret))
    = some ([0x45, 0, 4, 0x12, 1, 0, 0x13], some ⟨0x12, 55⟩, []) := by decide

/-- V-P1: with the rail OFF the error is all. -/
theorem test_einSend_gated : after (.einSend 0x12 0x01 []) State.reset
    = some (State.reset.pushRet [.err (.railNotEnergized .ein 0)]) := by decide

/-- V-X6: the identity 255 is followed by 0. -/
theorem test_mbusSend : (after (.mbusSend 0x21 0x35 []) (powered.setNextId 255)).map (fun t => (t.mbusNextId, t.ret))
    = some (0, [.sent 255 1]) := by decide

/-- V-X4, its last record: two bytes left over. -/
theorem test_mbusSend_bytes : (after (.mbusSend 0x21 0x35 [1, 2, 3, 4, 5]) powered).map (fun t => (t.recLog.length, t.tx.take 9))
    = some (2, [0x4D, 0, 12, 0x21, 0x35, 0, 0, 2, 4]) := by decide

/-- V-P8. -/
theorem test_cancel : (after .cancel (powered.setWait (some ⟨0x12, 50⟩))).map (fun t => (t.wait, t.res, t.ret))
    = some (none, [.einSend .cancelled], [.ok]) := by decide

/-- V-P11. -/
theorem test_cancel_idle : after .cancel powered = some (powered.pushRet [.ok]) := by decide

theorem test_snoopStart : (after .snoopStart powered).map (fun t => (t.snoop, t.tx, t.recLog)) = some ([.start], [], []) := by
  decide

theorem test_snoopStop : (after .snoopStop powered).map (fun t => t.snoop) = some [.stop] := by decide

theorem test_snoopExport : (after .snoopExport powered).map (fun t => t.snoop) = some [.exportTrace] := by decide

/-- V-X7: a byte that is no preamble. -/
theorem test_rxByte_unrec : (after (.rxByte 0xFF) powered).map (fun t => (t.recLog, t.rxq, t.rx.phase))
    = some ([⟨.rx, .unrec, [0xFF]⟩], [], .idle) := by decide

/-- The parser with `45 00 04 12 02 00` read, poisoned or not. -/
def midRecord (poisoned : Bool) : RxParser :=
  ⟨.body, .ein, 4, [0x12, 2, 0], [0x45, 0, 4, 0x12, 2, 0], poisoned⟩

/-- V-X16: a poisoned record is observed and not queued. -/
theorem test_rxByte_poisoned : (after (.rxByte 0x14) (powered.setRx (midRecord true))).map (fun t => (t.recLog, t.rxq))
    = some ([⟨.rx, .chan .ein, [0x45, 0, 4, 0x12, 2, 0, 0x14]⟩], []) := by decide

/-- V-P7: a bad frame ends the wait. -/
theorem test_dispatch_ends_wait : (after .dispatch
      ((powered.setWait (some ⟨0x12, 50⟩)).setRxq [(.ein, [0x12, 2, 0, 0x15])])).map (fun t => (t.wait, t.res, t.rxq))
    = some (none, [.einSend (.err (.frameChecksum .ein))], []) := by decide

/-- P5, step 5: a good frame for another address leaves the wait. -/
theorem test_dispatch_unsolicited : (after .dispatch
      ((powered.setWait (some ⟨0x12, 50⟩)).setRxq [(.ein, [0x13, 2, 0, 0x15])])).map (fun t => (t.wait, t.evt))
    = some (some ⟨0x12, 50⟩, [.einFrame ⟨0x13, 2, [], [0x15]⟩]) := by decide

/-- V-P4, the fifth tick. -/
theorem test_tick_completes : (after .tick
      (((withRails [.off, .high, .off]).setNow 104).setRst ⟨true, 105, [0], [(0, .low)]⟩)).map
      (fun t => (t.now, t.rail, t.rst.busy, t.res))
    = some (105, [.low, .high, .off], false, [.reset]) := by decide

/-- V-P10 and P5, step 4: a due wait and a due entry. -/
theorem test_tick_expires : (after .tick (((powered.setNow 119).setWait (some ⟨0x12, 120⟩)).setReasm oneOfThree)).map
      (fun t => ((t.wait, t.res), t.reasm, t.evt))
    = some ((none, [.einSend (.err (.responseTimeout 0x12))]), [], [.error (.reassemblyTimeout ⟨0x21, 0x35, 7⟩ 1 3)]) := by
  decide

/-- V-P12. -/
theorem test_recFail : after .recFail powered = some (powered.setRecFail true) := by decide

theorem test_record : (after (.record 0x45 [1, 2]) powered).map (fun t => t.rxIn) = some [0x45, 0, 2, 1, 2] := by decide

theorem test_pulseWord : (after (.pulseWord .rise 60) powered).map (fun t => t.rxIn) = some [1, 0, 0, 0x3C] := by decide

theorem test_einBody : (after (.einBody 0x12 2 [] [0x14]) powered).map (fun t => t.rxIn) = some [0x12, 2, 0, 0x14] := by
  decide

theorem test_mbusBody : (after (.mbusBody 0x21 0x35 0 0 1 [] [0x62, 0x30]) powered).map (fun t => t.rxIn)
    = some [0x21, 0x35, 0, 0, 1, 0, 0x62, 0x30] := by decide

/-- 20_memory.md R65: bit 7 first. -/
theorem test_bitsOf : bitsOf [0x81] = [true, false, false, false, false, false, false, true] := by decide

/-! ## Witnesses: states and operands that meet the hypotheses of the statements, clause by clause, at the ends of ranges -/

theorem next_of_after (i : Instr) (s t : State) (h : after i s = some t) : exec i s = .next t := by
  unfold after at h
  split at h
  · next e => rw [e]; exact congrArg _ (Option.some.inj h)
  · cases h

/-- A configuration whose bounds are small. -/
def smallCfg : Cfg := { cfgRef with gocMaxBits := 1, einMaxPayload := 1, mbusMaxChunk := 1, mbusMaxFrags := 2 }

/-- A block of that configuration, its rails on. -/
def small : State := (State.construct smallCfg).setRail [.low, .high, .off]

/-- A scheduled turn with its input. -/
def scheduled (t : Turn) (bs : Bytes) : State := (powered.setTurns [t]).setInp bs

theorem test_witness_DecodeEncodeAgree : (Instr.setRail 63 .off).wf cfgRef = true
    ∧ (Instr.setRail (2 ^ 40) .off).wf { cfgRef with nrails := 65 } = true
    ∧ (Instr.pulseWord .fall (2 ^ 24 - 1)).wf cfgRef = true ∧ (Instr.gocSer [⟨2 ^ 40, .rise, 2 ^ 40⟩]).wf cfgRef = true
    ∧ (Instr.mbusBody 1 2 3 0 0 [] [0, 0]).wf cfgRef = true := by decide

theorem test_witness_EncodeDecodeAgree : decode cfgRef .client [0x20, 0xFC, 0x20] = .ok (.setRail 63 .off, [0x20])
    ∧ decode { cfgRef with nrails := 65 } .client [0x20, 0x01, 0x01, 0x20] = .ok (.setRail 64 .low, [0x20]) := by decide

theorem test_witness_StepRunsDecoded : let i := Instr.gocSend [true]; let s := scheduled .client (encode powered.cfg i ++ [0x33])
    i.wf s.cfg = true ∧ s.turns = i.turn :: [] ∧ s.source i.turn = encode s.cfg i ++ [0x33] := by decide

theorem test_witness_StepOtherTurns : powered.turns = []
    ∧ (scheduled .client []).turns = .client :: [] ∧ (scheduled .client []).source .client = []
    ∧ (scheduled .reader []).turns = .reader :: [] ∧ (scheduled .reader []).source .reader = []
    ∧ (scheduled (.peer .einBody) []).turns = .peer .einBody :: []
    ∧ (scheduled (.peer .einBody) []).source (.peer .einBody) = [] := by decide

theorem test_witness_StepOtherTurns_resume : let s := (scheduled .resume []).setHeld [⟨0x12, 1, []⟩]
    s.turns = .resume :: [] ∧ s.held = ⟨0x12, 1, []⟩ :: [] ∧ s.wait = none
    ∧ (s.setWait (some ⟨0x12, 50⟩)).turns = .resume :: [] ∧ (s.setWait (some ⟨0x12, 50⟩)).wait.isSome = true
    ∧ (s.setHeld []).turns = .resume :: [] ∧ (s.setHeld []).held = [] := by decide

theorem test_witness_ReservedCodesRefused :
    (∀ op ∈ [0x00, 0x0B, 0x0F, 0x12, 0x1F, 0x22, 0x2F, 0x37, 0xFF], (scheduled .client [op]).turns = .client :: []
      ∧ (scheduled .client [op]).inp = op :: [] ∧ op.toNat ∉ [0x01, 0x02, 0x03, 0x04, 0x05, 0x06, 0x07, 0x08, 0x09, 0x0A,
        0x10, 0x11, 0x20, 0x21, 0x30, 0x31, 0x32, 0x33, 0x34, 0x35, 0x36])
    ∧ (scheduled .client [0x10, 0x03]).turns = .client :: [] ∧ (scheduled .client [0x10, 0x03]).inp = 0x10 :: 0x03 :: []
    ∧ (scheduled (.peer .pulseWord) [0x02]).turns = .peer .pulseWord :: [] ∧ (1 : Nat) < (0x02 : Byte).toNat
    ∧ (scheduled (.peer .record) [0x46]).turns = .peer .record :: [] := by
  decide

theorem test_witness_ReservedCodesRefused_preamble : ∀ c, (0x46 : Byte) ≠ preamble powered.cfg c := by
  intro c; cases c <;> decide

theorem test_witness_GocEncodeTrain : [true].length ≤ small.cfg.gocMaxBits ∧ small.cfg.gocMaxBits < [true, false].length := by
  decide

theorem test_witness_GocRoundTrip : small.cfg.wf = true ∧ [true].length ≤ small.cfg.gocMaxBits := by decide

/-- V-G6's train: every duration an end of its window. -/
def edgeTrain : List PulseEvent :=
  [⟨0, .rise, 56⟩, ⟨56, .fall, 6⟩, ⟨62, .rise, 14⟩, ⟨62, .fall, 14⟩, ⟨90, .rise, 94⟩]

theorem test_witness_GocTolerance_accepts : powered.cfg.wf = true
    ∧ List.Forall₂ (fun x e => e.edge = symbolEdge x ∧ inWindow powered.cfg e.dur x = true) (trainSymbols [false]) edgeTrain
    ∧ edgeTrain.Pairwise (fun a b => a.t ≤ b.t) := by
  refine ⟨by decide, ?_, by decide⟩
  repeat' constructor

theorem test_witness_GocTolerance_gap : let good := edgeTrain.take 3; let e : PulseEvent := ⟨62, .fall, 15⟩
    List.Forall₂ (fun x e => e.edge = symbolEdge x ∧ inWindow powered.cfg e.dur x = true)
      ((trainSymbols [false]).take good.length) good
    ∧ good.length < (trainSymbols [false]).length ∧ (good ++ [e]).Pairwise (fun a b => a.t ≤ b.t)
    ∧ e.edge = expectedEdge good.length
    ∧ (if good.length % 2 = 1 then inWindow powered.cfg e.dur .gap = false else pulseClass powered.cfg e.dur = []) := by
  refine ⟨?_, by decide, by decide, by decide, by decide⟩
  repeat' constructor

theorem test_witness_GocTolerance_pulse : ∀ e ∈ [(⟨62, .rise, 15⟩ : PulseEvent), ⟨62, .rise, 95⟩],
    let good := edgeTrain.take 4
    List.Forall₂ (fun x e => e.edge = symbolEdge x ∧ inWindow powered.cfg e.dur x = true)
      ((trainSymbols [false]).take good.length) good
    ∧ good.length < (trainSymbols [false]).length ∧ (good ++ [e]).Pairwise (fun a b => a.t ≤ b.t)
    ∧ e.edge = expectedEdge good.length
    ∧ (if good.length % 2 = 1 then inWindow powered.cfg e.dur .gap = false else pulseClass powered.cfg e.dur = []) := by
  intro e he
  refine ⟨?_, by decide, ?_, ?_, ?_⟩
  · repeat' constructor
  all_goals revert e; decide

theorem test_witness_GocDecodeRejections : powered.cfg.wf = true ∧ 4 < 2 * [false].length + 3
    ∧ (⟨200, .fall, 10⟩ : PulseEvent).edge = .fall ∧ (∀ x ∈ trainOf powered.cfg [false], x.t ≤ 200)
    ∧ 5 ≤ 2 * [false].length + 3 ∧ (⟨200, .rise, 10⟩ : PulseEvent).edge ≠ expectedEdge 5
    ∧ (⟨0, .fall, 60⟩ : PulseEvent).edge ≠ expectedEdge 0
    ∧ (∃ x ∈ (trainOf powered.cfg [false]).take 2, (⟨50, .rise, 90⟩ : PulseEvent).t < x.t) := by decide

/-- A configuration that breaks only clause (b) of CFG_WF: SHORT [0,20] and LONG [18,42] overlap. -/
def overlapping : State := State.construct { cfgRef with tolShort := 10, tolLong := 12 }

/-- A duration in two windows, at place 2 (as V-G25) and at place 0. -/
theorem test_witness_GocDecodeRejections_ambiguous : let good : List PulseEvent := [⟨0, .rise, 60⟩, ⟨60, .fall, 10⟩]
    List.Forall₂ (AloneIn overlapping.cfg) ((trainSymbols [false]).take good.length) good
    ∧ good.length < (trainSymbols [false]).length ∧ good.length % 2 = 0
    ∧ (good ++ [(⟨70, .rise, 20⟩ : PulseEvent)]).Pairwise (fun a b => a.t ≤ b.t) ∧ ([] : List PulseEvent).length = 0
    ∧ 2 ≤ (pulseClass overlapping.cfg 20).length ∧ overlapping.cfg.wfButWindows = true := by
  refine ⟨.cons ⟨rfl, by decide⟩ (.cons ⟨rfl, by decide⟩ .nil), ?_⟩
  decide

/-- A start pulse at place 4, the last, and a stop pulse at place 0 (V-G20). -/
theorem test_witness_GocDecodeRejections_unexpected : let good := (trainOf powered.cfg [false]).take 4
    List.Forall₂ (AloneIn powered.cfg) ((trainSymbols [false]).take good.length) good
    ∧ good.length < (trainSymbols [false]).length ∧ good.length % 2 = 0
    ∧ (good ++ [(⟨110, .rise, 60⟩ : PulseEvent)]).Pairwise (fun a b => a.t ≤ b.t)
    ∧ pulseClass powered.cfg 60 = [.start] ∧ (if good.length = 0 then Symbol.start ≠ .start else Symbol.start = .start)
    ∧ pulseClass powered.cfg 90 = [.stop] ∧ Symbol.stop ≠ .start := by
  refine ⟨.cons ⟨rfl, by decide⟩ (.cons ⟨rfl, by decide⟩ (.cons ⟨rfl, by decide⟩ (.cons ⟨rfl, by decide⟩ .nil))), ?_⟩
  decide

theorem test_witness_GocSerWords : (∀ e ∈ [(⟨0, .rise, 2 ^ 24 - 1⟩ : PulseEvent)], e.dur < 2 ^ 24)
    ∧ ∃ e ∈ [(⟨0, .rise, 2 ^ 24⟩ : PulseEvent)], 2 ^ 24 ≤ e.dur := by decide

theorem test_witness_GocDeserVerdict : ([1, 0, 0] : Bytes).length % 4 ≠ 0
    ∧ (∃ k b, ([1, 0, 0, 1, 2, 0, 0, 1] : Bytes)[4 * k]? = some b ∧ 1 < b.toNat)
    ∧ ([1, 0, 0, 1] : Bytes).length % 4 = 0 ∧ (∀ k b, ([1, 0, 0, 1] : Bytes)[4 * k]? = some b → b.toNat ≤ 1) := by
  refine ⟨by decide, ⟨1, 2, by decide, by decide⟩, by decide, ?_⟩
  intro k b h
  rcases k with _ | k
  · cases h; decide
  · rw [List.getElem?_eq_none (by simp)] at h; cases h

theorem test_witness_EinBuildFrame : ([7] : Bytes).length ≤ small.cfg.einMaxPayload
    ∧ small.cfg.einMaxPayload < ([7, 8] : Bytes).length := by decide

theorem test_witness_EinParseVerdict : ([1, 2, 0] : Bytes).length < 3 + powered.cfg.einCkLen
    ∧ ([3] : Bytes).length = powered.cfg.einCkLen ∧ ([1, 2, 0, 3] : Bytes) = [1, 2, 0] ++ [] ++ [3]
    ∧ (1 : Byte).toNat ≠ ([] : Bytes).length ∧ (0 : Byte).toNat = ([] : Bytes).length
    ∧ einCk powered.cfg ([1, 2, 0] ++ []) = [3] ∧ einCk powered.cfg ([1, 2, 0] ++ []) ≠ [4] := by decide

theorem test_witness_EinRoundTrip : let f : EinFrame := ⟨0x12, 1, [0xEE], [0x02]⟩
    small.cfg.sizesOk = true ∧ f.payload.length ≤ small.cfg.einMaxPayload
    ∧ f.checksum = einCk small.cfg ([f.dest, f.opcode, BitVec.ofNat 8 f.payload.length] ++ f.payload) := by decide

theorem test_witness_EinRoundTrip_back : let f : EinFrame := ⟨0x12, 1, [0xEE, 0x01], [0x04]⟩
    exec (.einParse [0x12, 1, 2, 0xEE, 0x01, 0x04]) powered = .next (powered.pushRet [.einFrame f])
    ∧ powered.cfg.einMaxPayload = 255 ∧ f.payload.length ≤ powered.cfg.einMaxPayload :=
  ⟨next_of_after _ _ _ (by decide), by decide, by decide⟩

theorem test_witness_EinSumRejectsBitFlips : powered.cfg.einCkAlg = .sum8 ∧ powered.cfg.einCkLen = 1
    ∧ ([0xEE] : Bytes).length ≤ 255 ∧ ([0xEE] : Bytes).length ≤ powered.cfg.einMaxPayload
    ∧ exec (.einBuild 0x12 1 [0xEE]) powered = .next (powered.pushRet [.bytes [0x12, 1, 1, 0xEE, 0x02]])
    ∧ 3 < 3 + ([0xEE] : Bytes).length ∧ 3 ≠ 2 ∧ 7 < 8 ∧ ([0x12, 1, 1, 0xEE, 0x02] : Bytes)[3]? = some 0xEE :=
  ⟨by decide, by decide, by decide, by decide, next_of_after _ _ _ (by decide), by decide, by decide, by decide, by decide⟩

theorem test_witness_MbusBuildMessage : (List.replicate 255 (0 : Byte)).length ≤ 255
    ∧ 255 < (List.replicate 256 (0 : Byte)).length := by
  rw [List.length_replicate, List.length_replicate]; decide

theorem test_witness_MbusParseVerdict : ([1, 2, 3, 4, 5, 0, 0] : Bytes).length < 6 + powered.cfg.mbusCrcLen
    ∧ ([0x62, 0x30] : Bytes).length = powered.cfg.mbusCrcLen
    ∧ ([0x21, 0x35, 0, 0, 1, 0, 0x62, 0x30] : Bytes) = [0x21, 0x35, 0, 0, 1, 0] ++ [] ++ [0x62, 0x30]
    ∧ (1 : Byte).toNat ≠ ([] : Bytes).length ∧ (0 : Byte).toNat = ([] : Bytes).length
    ∧ mbusCrc powered.cfg ([0x21, 0x35, 0, 0, 1, 0] ++ []) = [0x62, 0x30]
    ∧ mbusCrc powered.cfg ([0x21, 0x35, 0, 0, 1, 0] ++ []) ≠ [0x62, 0x31] := by decide +kernel

theorem test_witness_MbusFragmentShape : small.cfg.sizesOk = true ∧ ([1] : Bytes).length ≤ small.cfg.mbusMaxChunk
    ∧ small.cfg.mbusMaxChunk < ([1, 2] : Bytes).length ∧ (0x00 : Byte) = small.cfg.mbusBcast
    ∧ (0x35 : Byte) ≠ small.cfg.mbusBcast
    ∧ ([1, 2] : Bytes).length ≤ small.cfg.mbusMaxFrags * small.cfg.mbusMaxChunk
    ∧ small.cfg.mbusMaxFrags * small.cfg.mbusMaxChunk < ([1, 2, 3] : Bytes).length := by decide

/-- The two fragments of a two-byte payload cut every byte. -/
def twoFragments : List MBusMessage := [⟨0x21, 0x35, 7, 0, 2, [1], []⟩, ⟨0x21, 0x35, 7, 1, 2, [2], []⟩]

theorem test_witness_ReassembleAnyOrder : small.cfg.sizesOk = true ∧ (0x35 : Byte) ≠ small.cfg.mbusBcast ∧ ReasmInv small
    ∧ Table.lookup Key.ord ⟨0x21, 0x35, 7⟩ small.reasm = none
    ∧ exec (.mbusFragment 0x21 0x35 7 [1, 2]) small = .next (small.pushRet [.fragments twoFragments])
    ∧ twoFragments.reverse.Perm twoFragments :=
  ⟨by decide, by decide, ⟨by decide, by intro x h; cases h⟩, by decide, next_of_after _ _ _ (by decide),
    List.reverse_perm _⟩

theorem test_witness_MbusWireRoundTrip : (List.replicate 255 (0 : Byte)).length ≤ 255 := by
  rw [List.length_replicate]

/-- Each of the five cases: count 0, index at the count, a fragmented broadcast, another count, a held index. -/
theorem test_witness_ReassembleIgnores : (0 : Byte) = 0 ∧ (2 : Byte).toNat ≤ (2 : Byte).toNat
    ∧ ((0x00 : Byte) = entryHeld.cfg.mbusBcast ∧ (2 : Byte) ≠ 1)
    ∧ Table.lookup Key.ord ⟨0x21, 0x35, 9⟩ entryHeld.reasm = some ⟨2, [(0, [0xAA])], 20⟩
    ∧ (⟨2, [(0, [0xAA])], 20⟩ : ReasmEntry).count ≠ (3 : Byte).toNat
    ∧ (Table.lookup id (0 : Byte).toNat [(0, ([0xAA] : Bytes))]).isSome = true := by decide

theorem entryHeld_inv : ReasmInv entryHeld := by
  refine ⟨by decide, ?_⟩
  intro x h
  cases List.mem_singleton.mp h
  exact ⟨by decide, by decide, by decide, by decide, by decide, by decide, by decide⟩

theorem test_witness_ReassembleFragment : ReasmInv entryHeld ∧ (0 : Byte).toNat < (1 : Byte).toNat
    ∧ (1 : Byte).toNat < (2 : Byte).toNat ∧ (254 : Byte).toNat < (255 : Byte).toNat
    ∧ Table.lookup Key.ord ⟨0x21, 0x35, 8⟩ entryHeld.reasm = none ∧ (255 : Byte) ≠ 1
    ∧ (0x35 : Byte) ≠ entryHeld.cfg.mbusBcast
    ∧ Table.lookup Key.ord ⟨0x21, 0x35, 9⟩ entryHeld.reasm = some ⟨2, [(0, [0xAA])], 20⟩
    ∧ (⟨2, [(0, [0xAA])], 20⟩ : ReasmEntry).count = (2 : Byte).toNat
    ∧ Table.lookup id (1 : Byte).toNat [(0, ([0xAA] : Bytes))] = none
    ∧ ([(0, ([0xAA] : Bytes))]).length + 1 = (⟨2, [(0, [0xAA])], 20⟩ : ReasmEntry).count :=
  ⟨entryHeld_inv, by decide, by decide, by decide, by decide, by decide, by decide, by decide, by decide, by decide,
    by decide⟩

/-- The clause of a fragment that is not the last: index 2 of 3 after index 0. -/
theorem test_witness_ReassembleFragment_middle : let e : ReasmEntry := ⟨3, [(0, [1])], 120⟩
    ReasmInv (powered.setReasm oneOfThree) ∧ (2 : Byte).toNat < (3 : Byte).toNat
    ∧ Table.lookup Key.ord ⟨0x21, 0x35, 7⟩ oneOfThree = some e ∧ e.count = (3 : Byte).toNat
    ∧ Table.lookup id (2 : Byte).toNat e.chunks = none ∧ e.chunks.length + 1 < e.count := by
  refine ⟨⟨by decide, ?_⟩, by decide, by decide, by decide, by decide, by decide⟩
  intro x h
  cases List.mem_singleton.mp h
  exact ⟨by decide, by decide, by decide, by decide, by decide, by decide, by decide⟩

theorem test_witness_MuxSendWrites : railAt State.reset (State.reset.cfg.gov .ein) = .off
    ∧ railAt powered (powered.cfg.gov .ein) ≠ .off ∧ 65535 < (List.replicate 65536 (0 : Byte)).length
    ∧ (List.replicate 65535 (0 : Byte)).length ≤ 65535 := by
  rw [List.length_replicate, List.length_replicate]; decide

theorem test_witness_PowerGating : railAt State.reset State.reset.cfg.govGoc = .off
    ∧ railAt State.reset State.reset.cfg.govEin = .off ∧ State.reset.wait = none
    ∧ railAt State.reset State.reset.cfg.govMbus = .off := by decide

theorem test_witness_MuxReceivePops : powered.rxq = [] ∧ (powered.setRxq [(.goc, [])]).rxq = (.goc, []) :: [] := by decide

/-- The parser in each phase of an EIN record. -/
def parser (p : RxPhase) (len : Nat) (buf raw : Bytes) : State := powered.setRx ⟨p, .ein, len, buf, raw, false⟩

theorem test_witness_RxByteAdvances : powered.rx.phase = .idle ∧ powered.cfg.preamblesDistinct = true
    ∧ 0x45 = preamble powered.cfg .ein ∧ (∀ c, (0x46 : Byte) ≠ preamble powered.cfg c)
    ∧ (parser .lenHi 0 [] [0x45]).rx.phase = .lenHi
    ∧ (parser .lenLo 0 [] [0x45, 0]).rx.phase = .lenLo ∧ (parser .lenLo 0 [] [0x45, 0]).rx.len + (1 : Byte).toNat ≠ 0
    ∧ (parser .body 2 [] [0x45, 0, 2]).rx.phase = .body
    ∧ (parser .body 2 [] [0x45, 0, 2]).rx.buf.length + 1 ≠ (parser .body 2 [] [0x45, 0, 2]).rx.len := by
  refine ⟨by decide, by decide, by decide, ?_, by decide, by decide, by decide, by decide, by decide⟩
  intro c; cases c <;> decide

/-- Both ends of a record; the GOC clause's premise, that a body is no GOC structure; and both ways to queue nothing. -/
theorem test_witness_RxRecordCompletes : (parser .body 2 [9] [0x45, 0, 2, 9]).rx.phase = .body
    ∧ (parser .body 2 [9] [0x45, 0, 2, 9]).rx.buf.length + 1 = (parser .body 2 [9] [0x45, 0, 2, 9]).rx.len
    ∧ (parser .lenLo 0 [] [0x45, 0]).rx.phase = .lenLo ∧ (parser .lenLo 0 [] [0x45, 0]).rx.len + (0 : Byte).toNat = 0
    ∧ exec (.gocDeser [9]) powered = .next (powered.pushRet [.notGoc])
    ∧ (parser .body 2 [9] [0x45, 0, 2, 9]).rx.poisoned = false ∧ (powered.setRx (midRecord true)).rx.poisoned = true
    ∧ railAt powered (powered.cfg.gov .ein) ≠ .off ∧ railAt State.reset (State.reset.cfg.gov .ein) = .off :=
  ⟨by decide, by decide, by decide, by decide, next_of_after _ _ _ (by decide), by decide, by decide, by decide, by decide⟩

theorem test_witness_FramingRoundTrip : powered.cfg = powered.cfg ∧ powered.cfg.preamblesDistinct = true
    ∧ ([1, 0, 0, 60] : Bytes).length ≤ 65535 ∧ railAt powered (powered.cfg.gov .goc) ≠ .off ∧ powered.rx.phase = .idle
    ∧ exec (.gocDeser [1, 0, 0, 60]) powered = .next (powered.pushRet [.events [⟨0, .rise, 60⟩]]) :=
  ⟨rfl, by decide, by decide, by decide, by decide, next_of_after _ _ _ (by decide)⟩

theorem test_witness_DispatchGocUnit :
    let s := fun body => powered.setRxq [(.goc, body)]
    let cut : Bytes := [1, 0, 0, 60]
    let train : Bytes := [1, 0, 0, 60, 0, 0, 0, 10, 1, 0, 0, 90]
    powered.rxq = [] ∧ (s cut).rxq = (.goc, cut) :: []
    ∧ exec (.gocDeser cut) (s cut) = .next ((s cut).pushRet [.events [⟨0, .rise, 60⟩]])
    ∧ exec (.gocDecode [⟨0, .rise, 60⟩]) (s cut) = .next ((s cut).pushRet [.err (.timingViolation .truncated 1)])
    ∧ exec (.gocDeser train) (s train)
        = .next ((s train).pushRet [.events [⟨0, .rise, 60⟩, ⟨60, .fall, 10⟩, ⟨70, .rise, 90⟩]])
    ∧ exec (.gocDecode [⟨0, .rise, 60⟩, ⟨60, .fall, 10⟩, ⟨70, .rise, 90⟩]) (s train)
        = .next ((s train).pushRet [.bits []]) :=
  ⟨by decide, by decide, next_of_after _ _ _ (by decide +kernel), next_of_after _ _ _ (by decide +kernel),
    next_of_after _ _ _ (by decide +kernel), next_of_after _ _ _ (by decide +kernel)⟩

theorem test_witness_DispatchEinUnit :
    let s := fun body w => (powered.setRxq [(.ein, body)]).setWait w
    let good : Bytes := [0x12, 2, 0, 0x14]
    (∀ w, exec (.einParse good) (s good w) = .next ((s good w).pushRet [.einFrame ⟨0x12, 2, [], [0x14]⟩])
        ∧ exec (.einParse [0x12]) (s [0x12] w) = .next ((s [0x12] w).pushRet [.err (.frameLength .ein none 1)])
        ∧ (s good w).rxq = (.ein, good) :: [] ∧ (s good w).wait = w)
    ∧ (∀ w, (s good (some ⟨0x13, 50⟩)).wait = some w → (0x12 : Byte) ≠ w.addr) := by
  refine ⟨fun w => ⟨rfl, rfl, rfl, rfl⟩, ?_⟩
  intro w h; cases h; decide

/-- The unit that completes `entryHeld`, one it ignores, and a body that is too short. -/
theorem test_witness_DispatchMbusUnit :
    let s := fun body => entryHeld.setRxq [(.mbus, body)]
    let last : Bytes := [0x21, 0x35, 9, 1, 2, 0, 0xF3, 0x24]
    let again : Bytes := [0x21, 0x35, 9, 0, 2, 0, 0xC4, 0x14]
    (s last).rxq = (.mbus, last) :: []
    ∧ exec (.mbusParse last) (s last) = .next ((s last).pushRet [.mbusMessage ⟨0x21, 0x35, 9, 1, 2, [], [0xF3, 0x24]⟩])
    ∧ exec (reassembleInstr ⟨0x21, 0x35, 9, 1, 2, [], [0xF3, 0x24]⟩) (s last)
        = .next (((s last).setReasm []).pushRet [.complete ⟨0x21, 0x35, 9, [0xAA]⟩])
    ∧ exec (.mbusParse again) (s again) = .next ((s again).pushRet [.mbusMessage ⟨0x21, 0x35, 9, 0, 2, [], [0xC4, 0x14]⟩])
    ∧ exec (reassembleInstr ⟨0x21, 0x35, 9, 0, 2, [], [0xC4, 0x14]⟩) (s again)
        = .next (((s again).setReasm entryHeld.reasm).pushRet [.incomplete])
    ∧ exec (.mbusParse []) (s []) = .next ((s []).pushRet [.err (.frameLength .mbus none 0)]) :=
  ⟨by decide +kernel, next_of_after _ _ _ (by decide +kernel), next_of_after _ _ _ (by decide +kernel),
    next_of_after _ _ _ (by decide +kernel), next_of_after _ _ _ (by decide +kernel), next_of_after _ _ _ (by decide +kernel)⟩

/-- A block whose reset settles: P2's, two ticks in. -/
def settling : State := ((withRails [.off, .high, .off]).setNow 102).setRst ⟨true, 105, [0], [(0, .low)]⟩

theorem test_witness_SetRailWrites : powered.cfg.nrails ≤ 3 ∧ 2 < settling.cfg.nrails ∧ settling.rst.busy = true
    ∧ 2 < powered.cfg.nrails ∧ powered.rst.busy = false ∧ railAt powered 2 = .off ∧ RailState.mid ≠ .off
    ∧ railAt powered 1 ≠ .off := by decide

theorem test_witness_ResetAccepted : settling.rst.busy = true ∧ powered.rst.busy = false := by decide

theorem test_witness_ResetCycle : powered.rst.busy = false ∧ 4 < max 1 powered.cfg.settleTicks := by decide

theorem test_witness_OnlyPowerChangesRails : exec (.setRail 2 .mid) powered
      = .next ((powered.setRail [.low, .high, .mid]).pushRet [.ok])
    ∧ ((powered.setRail [.low, .high, .mid]).pushRet [.ok]).rail ≠ powered.rail :=
  ⟨next_of_after _ _ _ (by decide), by decide⟩

theorem test_witness_GocSendWrites : small.cfg.durationsOk = true ∧ small.cfg.sizesOk = true
    ∧ [true].length ≤ small.cfg.gocMaxBits ∧ railAt small (small.cfg.gov .goc) ≠ .off := by decide

theorem test_witness_EinSendIssues : small.wait = none ∧ railAt small (small.cfg.gov .ein) ≠ .off
    ∧ ([7] : Bytes).length ≤ small.cfg.einMaxPayload ∧ 3 + ([7] : Bytes).length + small.cfg.einCkLen ≤ 65535 := by decide

/-- A block with a wait pending at the end of its timer. -/
def waiting : State := (powered.setNow 5).setWait (some ⟨0x12, 55⟩)

theorem test_witness_EinSendHeld : waiting.wait.isSome = true := by decide

theorem waiting_deadlines : DeadlinesInv waiting := by
  refine ⟨by decide, ?_, by decide⟩
  intro w h; cases h; decide

theorem test_witness_WaitEndsInTime : DeadlinesInv waiting ∧ max 1 waiting.cfg.respTimeout ≤ 50 :=
  ⟨waiting_deadlines, by decide⟩

theorem test_witness_MbusSendWrites : small.cfg.sizesOk = true ∧ small.cfg.mbusCrcLen ≤ 65000
    ∧ railAt small (small.cfg.gov .mbus) ≠ .off ∧ (0x35 : Byte) ≠ small.cfg.mbusBcast
    ∧ ([1, 2] : Bytes).length ≤ small.cfg.mbusMaxFrags * small.cfg.mbusMaxChunk
    ∧ ([1] : Bytes).length ≤ small.cfg.mbusMaxChunk
    ∧ small.cfg.mbusMaxChunk < ([1, 2] : Bytes).length ∧ (0x00 : Byte) = small.cfg.mbusBcast := by decide

theorem test_witness_CancelEndsWait : powered.wait = none ∧ waiting.wait.isSome = true := by decide

theorem test_witness_FailedOperationChangesNothing : exec (.setRail 1 .off) settling
      = .next (settling.pushRet [.err .resetInProgress])
    ∧ (settling.pushRet [.err .resetInProgress]).ret = settling.ret ++ [.err .resetInProgress] :=
  ⟨next_of_after _ _ _ (by decide), by decide⟩

/-- In the domain and just outside it, a step that reports something, and a failed operation followed by another. -/
theorem test_witness_NothingStopsTheBlock : small.cfg.durationsOk = true ∧ small.cfg.sizesOk = true
    ∧ small.cfg.mbusCrcLen ≤ 65000 ∧ inDomain small (.gocSend [true]) ∧ ¬ inDomain small (.gocSend [true, false])
    ∧ inDomain small (.setRail 2 .low) ∧ ¬ inDomain small (.setRail 3 .low)
    ∧ exec .cancel waiting = .next ((endWait waiting .cancelled).pushRet [.ok])
    ∧ exec (.setRail 3 .low) settling = .refused (.railOutOfRange 3)
    ∧ exec (.setRail 1 .off) settling = .next (settling.pushRet [.err .resetInProgress])
    ∧ (settling.pushRet [.err .resetInProgress]).ret = settling.ret ++ [.err .resetInProgress] :=
  ⟨by decide, by decide, by decide, .inr (by decide), not_or.2 (by decide), by simp only [inDomain]; decide,
    by simp only [inDomain]; decide, next_of_after _ _ _ (by decide), rfl, next_of_after _ _ _ (by decide), by decide⟩

/-- A settled reset, a due and a pending wait, and no wait. -/
theorem test_witness_TickEffects : ((settling.setNow 104).rst.busy = true ∧ (settling.setNow 104).rst.deadline ≤ 104 + 1)
    ∧ ¬ (settling.rst.busy = true ∧ settling.rst.deadline ≤ settling.now + 1)
    ∧ RailsInv (settling.setNow 104)
    ∧ (waiting.setNow 54).wait = some ⟨0x12, 55⟩ ∧ 55 ≤ (waiting.setNow 54).now + 1 ∧ waiting.now + 1 < 55
    ∧ settling.wait = none :=
  ⟨by decide, by decide, ⟨by decide, by decide⟩, by decide, by decide, by decide, by decide⟩

theorem test_witness_RecorderFailureIsInvisible : Instr.cancel ≠ .recFail
    ∧ exec .cancel powered = .next (powered.pushRet [.ok])
    ∧ exec (.setRail 3 .low) powered = .refused (.railOutOfRange 3) := ⟨by decide, next_of_after _ _ _ (by decide), rfl⟩

theorem test_witness_WireUnitsReachRx : ([] : Bytes).length ≤ 65535 ∧ 2 ^ 24 - 1 < 2 ^ 24 ∧ ([] : Bytes).length ≤ 255 := by
  decide

/-- A call that is accepted: a wait and a reset begin. -/
theorem test_witness_OneResultPerSplitPhaseCall : (after (.einSend 0x12 1 []) powered).isSome = true
    ∧ (after (.reset .hard) powered).isSome = true ∧ powered.wait = none ∧ powered.rst.busy = false := by decide

/-- A step that writes: the Reader takes the last byte of an unrecognised record. -/
def reading : State := ((powered.setTurns [.reader]).setRxIn [0xFF])

/-- The state after it. -/
def readingAfter : State := ((powered.setTurns []).pushRxDone [0xFF]).pushRec [⟨.rx, .unrec, [0xFF]⟩]

theorem reading_step : step reading = .next readingAfter := rfl

theorem test_witness_LogsOnlyGrow : step reading = .next readingAfter := reading_step

theorem test_witness_PureOperationsArePure : isPureInstr (.gocEncode []) = true ∧ isPureInstr (.mbusFragment 0 0 0 []) = true
    ∧ isPureInstr (.mbusReassemble 0 0 0 0 0 []) = false := by decide

theorem test_witness_BitsOfBytes : [true, false, true, false, true, false, true, false].length % 8 = 0
    ∧ ([7] : Bytes)[0]? = some 7 ∧ 7 < 8 := by decide

theorem test_witness_StepKeepsRecorderLaw : RecorderInv reading ∧ step reading = .next readingAfter :=
  ⟨⟨by decide, by decide, by decide⟩, reading_step⟩

theorem test_witness_StepKeepsRails : RailsInv (settling.setNow 104)
    ∧ step (settling.setNow 104) = .next (tick (settling.setNow 104)) := ⟨⟨by decide, by decide⟩, rfl⟩

theorem test_witness_StepKeepsReceiver : RailsInv reading ∧ ReceiverInv reading ∧ step reading = .next readingAfter := by
  refine ⟨⟨by decide, by decide⟩, ⟨?_, by decide, by decide⟩, reading_step⟩
  show _ = _ ∧ _ = _ ∧ _ = _
  decide

theorem test_witness_StepKeepsReassembly : ReasmInv entryHeld ∧ step entryHeld = .next (tick entryHeld) :=
  ⟨entryHeld_inv, rfl⟩

theorem test_witness_StepKeepsDeadlinesAndErrors : DeadlinesInv waiting ∧ ErrorsInv waiting
    ∧ step waiting = .next (tick waiting) :=
  ⟨waiting_deadlines, ⟨fun _ h => (nomatch h), fun _ h => (nomatch h), fun _ h => (nomatch h)⟩, rfl⟩

end Sys2Proof.Tests
end

section
/-! PROOFS. The scope's statement about the pure operations (spec 00_scope.md R14, 20_memory.md R69). The idea: each of them
ends in `reply`, `answer` or `answerErr` of a value computed from the operands and the configuration alone. -/

namespace Sys2Proof.Machine

/-- `f` answers alike in every state of configuration `c`: always with one result and no other write, or always with one
refusal. -/
def AnswersByCfg (c : Cfg) (f : State → Out) : Prop :=
  (∃ r, ∀ u : State, u.cfg = c → f u = .next (u.pushRet [r]))
    ∨ (∃ r, ∀ u : State, u.cfg = c → f u = .refused r)

theorem answersByCfg_reply (c : Cfg) (r : Result) : AnswersByCfg c (reply r) := .inl ⟨r, fun _ _ => rfl⟩

/-- An operation whose end is computed from the configuration of the state answers by the configuration. -/
theorem answersByCfg_answer (c : Cfg) (x : Cfg → Except Stop Result) : AnswersByCfg c (fun s => answer (x s.cfg) s) := by
  cases hx : x c with
  | ok v => exact .inl ⟨v, fun u hu => by simp only [hu, hx, answer, reply]⟩
  | error st =>
    cases st with
    | raised e => exact .inl ⟨.err e, fun u hu => by simp only [hu, hx, answer, stopWith, raise, reply]⟩
    | outside r => exact .inr ⟨r, fun u hu => by simp only [hu, hx, answer, stopWith]⟩

theorem answersByCfg_answerErr (c : Cfg) (x : Cfg → Except Err Result) :
    AnswersByCfg c (fun s => answerErr (x s.cfg) s) := by
  cases hx : x c with
  | ok v => exact .inl ⟨v, fun u hu => by simp only [hu, hx, answerErr, reply]⟩
  | error e => exact .inl ⟨.err e, fun u hu => by simp only [hu, hx, answerErr, raise, reply]⟩

/-- GOC_DESER is one reply, computed from the body (R138). -/
theorem execGocDeser_eq_reply (body : Bytes) : execGocDeser body = reply ((gocDeser body).elim .notGoc .events) := by
  funext s
  unfold execGocDeser
  cases gocDeser body with
  | none => rfl
  | some es => rfl

/-- Every pure operation answers by the configuration. -/
theorem exec_answersByCfg_of_pure (c : Cfg) (i : Instr) (h : isPureInstr i = true) : AnswersByCfg c (exec i) := by
  cases i with
  | gocEncode bits => exact answersByCfg_answer c (fun c => (gocEncode c bits).map .events)
  | gocDecode events => exact answersByCfg_answerErr c (fun c => (gocDecode c events).map .bits)
  | gocSer events => exact answersByCfg_answer c (fun _ => (gocSer events).map .bytes)
  | gocDeser body =>
    change AnswersByCfg c (execGocDeser body)
    rw [execGocDeser_eq_reply]
    exact answersByCfg_reply c _
  | einBuild dest opcode payload =>
    exact answersByCfg_answer c (fun c => (einBuild c dest opcode payload).map .bytes)
  | einParse body => exact answersByCfg_answerErr c (fun c => (einParse c body).map .einFrame)
  | mbusBuild src dst mid idx cnt chunk =>
    exact answersByCfg_answer c (fun c => (mbusBuild c (messageOf src dst mid idx cnt chunk)).map .bytes)
  | mbusParse body => exact answersByCfg_answerErr c (fun c => (mbusParse c body).map .mbusMessage)
  | mbusFragment src dst mid payload =>
    exact answersByCfg_answer c (fun c => (mbusFragment c src dst mid payload).map .fragments)
  | _ => cases h

/-- Settles O51: a pure operation answers by the configuration, so in `s` as in every state of its configuration. -/
theorem pureOperationsArePure : Obligations.PureOperationsArePure := by
  intro i s hpure
  rcases exec_answersByCfg_of_pure s.cfg i hpure with ⟨r, hr⟩ | ⟨r, hr⟩
  · exact .inl ⟨r, hr s rfl, hr⟩
  · exact .inr ⟨r, hr s rfl, hr⟩

end Sys2Proof.Machine
end

section
/-! PROOFS. How an invariant of the state is shown to be kept (spec 10_state.md): taking a turn keeps it, each effect of an
instruction keeps it, so each step does. With it, what the operations that touch several parts of the state do to each. -/

namespace Sys2Proof.Machine

/-- The induction step of every invariant: what taking a turn and every effect keep, a step keeps. -/
theorem step_keeps {P : State → Prop} (htaken : ∀ s t, Taken s t → P s → P t)
    (heffect : ∀ s i t, Effect s i t → P s → P t) (s t : State) (hs : P s) (h : step s = .next t) : P t := by
  rcases step_effect s t h with ht | ⟨i, s', ht, he⟩
  · exact htaken s t ht hs
  · exact heffect s' i t he (htaken s s' ht hs)

/-- Reading a rail depends on the rails alone. -/
theorem railAt_congr {s t : State} (h : t.rail = s.rail) (r : Nat) : railAt t r = railAt s r := by
  rw [railAt, railAt, h]

/-- Switching rails off writes the rails and nothing else (R240). -/
theorem railsOff_eq_setRail (rails : List Nat) (s : State) : railsOff rails s = s.setRail (railsOff rails s).rail := by
  rw [railsOff_eq]
  exact (restoreRails_eq _ s).1

theorem railsOff_rail_length (rails : List Nat) (s : State) : (railsOff rails s).rail.length = s.rail.length := by
  rw [railsOff_eq]
  exact (restoreRails_eq _ s).2

@[simp] theorem writeRail_rail_length (s : State) (r : Nat) (st : RailState) :
    (writeRail s r st).rail.length = s.rail.length := by
  simp [writeRail]

/-- An accepted RESET leaves the rails as its switching off left them (R240). -/
theorem acceptReset_rail (k : ResetKind) (s : State) :
    (acceptReset k s).rail = (railsOff (resetTargets s.cfg k) s).rail := by
  rw [acceptReset_eq]
  rfl

theorem acceptReset_cfg (k : ResetKind) (s : State) : (acceptReset k s).cfg = s.cfg := by
  obtain ⟨_, _, _, _, _, _, h⟩ := acceptReset_frame k s
  rw [h]

theorem acceptReset_rst (k : ResetKind) (s : State) :
    (acceptReset k s).rst = ⟨true, s.now + s.cfg.settleTicks, resetTargets s.cfg k,
      (resetTargets s.cfg k).map (fun r => (r, railAt s r))⟩ := by
  obtain ⟨_, _, _, _, _, _, h⟩ := acceptReset_frame k s
  rw [h]

/-- The targets of a reset are distinct (R240). -/
theorem resetTargets_nodup (c : Cfg) (k : ResetKind) : (resetTargets c k).Nodup := by
  cases k with
  | soft => exact List.nodup_singleton _
  | hard => exact List.nodup_range

/-- DISPATCH touches the table, the wait, RES and EVT, and begins no wait (R215 to R218). -/
theorem dispatchUnit_frame (c : Channel) (body : Bytes) (s : State) :
    ∃ tbl w res evt, (w.isSome = true → s.wait.isSome = true)
      ∧ dispatchUnit c body s = { s with reasm := tbl, wait := w, res := s.res ++ res, evt := s.evt ++ evt } := by
  rcases dispatchUnit_cases c body s _ rfl with h | ⟨e, -, h⟩ | ⟨r, -, -, h⟩ | ⟨m, l, -, h⟩ <;> rw [h]
  · exact ⟨s.reasm, s.wait, [], [], id, by simp⟩
  · exact ⟨s.reasm, s.wait, [], [e], id, by simp [State.pushEvt]⟩
  · exact ⟨s.reasm, none, [.einSend r], [], by simp, by simp [endWait, State.pushRes, State.setWait]⟩
  · obtain ⟨tbl, ht⟩ := reassemble_state m s
    exact ⟨tbl, s.wait, [], l, id, by simp [ht, State.pushEvt, State.setReasm]⟩

end Sys2Proof.Machine
end

section
/-! PROOFS. The rails and the reset sequencer (spec 10_state.md R22, R25; 44_power_rail.md R240, R244). Nothing writes a
rail while a reset settles but its own completion, which ends the settling. -/

namespace Sys2Proof.Machine

/-- The rails' invariant reads the configuration, the rails and the sequencer alone. -/
theorem railsInv_congr {s t : State} (hs : RailsInv s) (hcfg : t.cfg = s.cfg) (hrail : t.rail = s.rail)
    (hrst : t.rst = s.rst) : RailsInv t := by
  simpa only [RailsInv, railAt, hcfg, hrail, hrst] using hs

/-- With no reset settling only the number of registers matters. -/
theorem railsInv_of_not_busy {s : State} (hlen : s.rail.length = s.cfg.nrails) (hb : s.rst.busy = false) :
    RailsInv s :=
  ⟨hlen, fun h => by rw [hb] at h; cases h⟩

theorem acceptReset_keeps_rails (k : ResetKind) (s : State) (hs : RailsInv s) : RailsInv (acceptReset k s) := by
  refine ⟨?_, fun _ => ?_⟩
  · rw [acceptReset_rail, railsOff_rail_length, acceptReset_cfg, hs.1]
  · rw [acceptReset_rst]
    refine ⟨fun r hr => ?_, ?_, resetTargets_nodup _ k⟩
    · rw [railAt_congr (acceptReset_rail k s), railAt_railsOff]
      exact if_pos hr
    · simp [Function.comp_def]

theorem completeReset_keeps_rails (s : State) (hs : RailsInv s) : RailsInv (completeReset s) := by
  rcases completeReset_cases s with ⟨-, h⟩ | ⟨-, -, h⟩ <;> rw [h]
  · exact hs
  · exact railsInv_of_not_busy ((restoreRails_eq _ s).2.trans hs.1) rfl

theorem expireWait_keeps_rails (s : State) (hs : RailsInv s) : RailsInv (expireWait s) := by
  rcases expireWait_cases s with ⟨-, h⟩ | ⟨w, -, -, h⟩ <;> rw [h]
  · exact hs
  · exact railsInv_congr hs rfl rfl rfl

theorem tick_keeps_rails (s : State) (hs : RailsInv s) : RailsInv (tick s) := by
  have hnow : RailsInv (s.setNow (s.now + 1)) := railsInv_congr hs rfl rfl rfl
  exact railsInv_congr (expireWait_keeps_rails _ (completeReset_keeps_rails _ hnow)) rfl rfl rfl

theorem taken_keeps_rails (s t : State) (h : Taken s t) (hs : RailsInv s) : RailsInv t := by
  obtain ⟨_, _, _, _, rfl⟩ := h
  exact railsInv_congr hs rfl rfl rfl

theorem effect_keeps_rails (s : State) (i : Instr) (t : State) (h : Effect s i t) (hs : RailsInv s) : RailsInv t := by
  cases h with
  | reassembled m =>
    obtain ⟨_, ht⟩ := reassemble_state m s
    rw [ht]
    exact railsInv_congr hs rfl rfl rfl
  | railWritten r st _ hb => exact railsInv_of_not_busy ((writeRail_rail_length s r st).trans hs.1) hb
  | railDown r _ hb => exact railsInv_of_not_busy ((writeRail_rail_length s r .off).trans hs.1) hb
  | resetBegun k => exact acceptReset_keeps_rails k s hs
  | byteTaken b =>
    obtain ⟨_, _, _, h⟩ := rxByte_frame b s
    rw [h]
    exact railsInv_congr hs rfl rfl rfl
  | dispatched c body rest =>
    obtain ⟨_, _, _, _, -, h⟩ := dispatchUnit_frame c body (s.setRxq rest)
    rw [h]
    exact railsInv_congr hs rfl rfl rfl
  | ticked => exact tick_keeps_rails s hs
  | _ => exact railsInv_congr hs rfl rfl rfl

/-- Settles O57: taking a turn and every effect keep the rails. -/
theorem stepKeepsRails : Obligations.StepKeepsRails := step_keeps taken_keeps_rails effect_keeps_rails

end Sys2Proof.Machine
end

section
/-! PROOFS. The receiver (spec 10_state.md R29, R31, R36; 43_transport_mux.md R206 to R210; 44_power_rail.md R234). Two
ideas: an operation that makes no channel undecodable keeps the receiver as it is, and one that switches rails off also
powers down the channels they govern, which removes exactly what could break the invariant. -/

namespace Sys2Proof.Machine

/-- The bytes of the record in progress (10_state.md R29): the part of `ParserInv` that reads the configuration and the
parser alone, and not the flag `poisoned`. -/
def RecordSoFar (c : Cfg) (rx : RxParser) : Prop :=
  match rx.phase with
  | .idle => rx.buf = [] ∧ rx.raw = []
  | .lenHi => rx.buf = [] ∧ rx.raw = [preamble c rx.chan]
  | .lenLo => rx.buf = [] ∧ ∃ hi : Byte, rx.raw = [preamble c rx.chan, hi] ∧ rx.len = hi.toNat * 256
  | .body => rx.raw = preamble c rx.chan :: be16 rx.len ++ rx.buf ∧ rx.buf.length < rx.len ∧ rx.len < 65536

/-- The parser's invariant: its bytes, an unpoisoned record boundary, and the gate while a record is in progress. -/
theorem parserInv_iff (s : State) :
    ParserInv s ↔ RecordSoFar s.cfg s.rx ∧ (s.rx.phase = .idle → s.rx.poisoned = false)
      ∧ (s.rx.phase ≠ .idle → GateInv s) := by
  unfold ParserInv RecordSoFar
  cases s.rx.phase <;> simp [and_assoc]

/-- What the queue may hold: a unit of a decodable channel, of a record's size, with GOC structure if it is GOC (R209,
R210). -/
def UnitInv (s : State) (x : Channel × Bytes) : Prop :=
  decodable s x.1 = true ∧ x.2.length < 65536 ∧ (x.1 = .goc → (gocDeser x.2).isSome = true)

theorem receiverInv_iff (s : State) :
    ReceiverInv s ↔ ParserInv s ∧ (∀ x ∈ s.rxq, UnitInv s x) ∧ (s.wait.isSome = true → decodable s .ein = true) :=
  Iff.rfl

/-- Where no channel becomes undecodable, the queue loses entries at most and no wait begins, the receiver is kept. -/
theorem receiverInv_mono {s t : State} (hs : ReceiverInv s) (hcfg : t.cfg = s.cfg) (hrx : t.rx = s.rx)
    (hdec : ∀ c, decodable s c = true → decodable t c = true) (hq : t.rxq ⊆ s.rxq)
    (hwait : t.wait.isSome = true → s.wait.isSome = true) : ReceiverInv t := by
  obtain ⟨hparser, hqueue, hw⟩ := (receiverInv_iff s).1 hs
  obtain ⟨hrec, hidle, hgate⟩ := (parserInv_iff s).1 hparser
  refine ⟨(parserInv_iff t).2 ?_, fun x hx => ?_, fun h => hdec _ (hw (hwait h))⟩
  · rw [hcfg, hrx]
    refine ⟨hrec, hidle, fun hp hpois => ?_⟩
    rw [hrx] at hpois ⊢
    exact hdec _ (hgate hp hpois)
  · obtain ⟨hd, hunit⟩ := hqueue x (hq hx)
    exact ⟨hdec _ hd, hunit⟩

/-- The receiver's invariant reads the configuration, the rails, the parser, the queue and the wait alone. -/
theorem receiverInv_congr {s t : State} (hs : ReceiverInv s) (hcfg : t.cfg = s.cfg) (hrail : t.rail = s.rail)
    (hrx : t.rx = s.rx) (hq : t.rxq = s.rxq) (hwait : t.wait = s.wait) : ReceiverInv t :=
  receiverInv_mono hs hcfg hrx (fun c h => (decodable_congr s t c hrail hcfg).trans h) (fun _ h => hq ▸ h)
    (fun h => hwait ▸ h)

/-! ## Rails that go OFF -/

/-- Writing the rails and powering down every channel that thereby stops being decodable keeps the receiver (R234). -/
theorem powerDownTo_keeps_receiver (downs : List Nat) (s : State) (v : List RailState) (hs : ReceiverInv s)
    (hdec : ∀ c, decodable s c = true → s.cfg.gov c ∉ downs → decodable (s.setRail v) c = true) :
    ReceiverInv (powerDownTo downs (s.setRail v)) := by
  obtain ⟨hparser, hqueue, hw⟩ := (receiverInv_iff s).1 hs
  obtain ⟨hrec, hidle, hgate⟩ := (parserInv_iff s).1 hparser
  refine ⟨(parserInv_iff _).2 ⟨hrec, fun hp => ?_, fun hp hpois => ?_⟩, fun x hx => ?_, fun h => ?_⟩
  · have hphase : s.rx.phase = .idle := hp
    simp [powerDownTo, hphase, hidle hphase]
  · have hphase : s.rx.phase ≠ .idle := hp
    simp only [powerDownTo, State.setRail_rx, State.setRail_cfg, Bool.or_eq_false_iff] at hpois
    obtain ⟨hclean, hup⟩ := hpois
    exact hdec s.rx.chan (hgate hphase hclean) (by simpa [hphase] using hup)
  · simp only [powerDownTo, State.setRail_rxq, State.setRail_cfg, List.mem_filter] at hx
    obtain ⟨hmem, hup⟩ := hx
    obtain ⟨hd, hunit⟩ := hqueue x hmem
    exact ⟨hdec _ hd (by simpa using hup), hunit⟩
  · simp only [powerDownTo, State.setRail_wait, State.setRail_cfg] at h
    have hup : s.cfg.gov .ein ∉ downs := fun hmem => by simp [hmem] at h
    exact hdec .ein (hw (by simpa [hup] using h)) hup

theorem railDown_keeps_receiver (r : Nat) (s : State) (hs : ReceiverInv s) :
    ReceiverInv (powerDownTo [r] (writeRail s r .off)) := by
  refine powerDownTo_keeps_receiver [r] s _ hs (fun c hd hup => ?_)
  have hne : s.cfg.gov c ≠ r := by simpa using hup
  have hat : railAt (writeRail s r .off) (s.cfg.gov c) = railAt s (s.cfg.gov c) := by
    rw [railAt_writeRail, if_neg (fun h => hne h.1)]
  rw [decodable_eq_true] at hd ⊢
  exact fun h => hd (hat.symm.trans h)

theorem acceptReset_keeps_receiver (k : ResetKind) (s : State) (hs : ReceiverInv s) :
    ReceiverInv (acceptReset k s) := by
  suffices hdown : ReceiverInv (powerDownTo ((resetTargets s.cfg k).filter (fun r => decide (railAt s r ≠ .off)))
      (railsOff (resetTargets s.cfg k) s)) by
    rw [acceptReset_eq]
    exact receiverInv_congr hdown rfl rfl rfl rfl rfl
  rw [railsOff_eq_setRail]
  refine powerDownTo_keeps_receiver _ s _ hs (fun c hd hup => ?_)
  rw [decodable_eq_true] at hd ⊢
  have hkept : s.cfg.gov c ∉ resetTargets s.cfg k := fun h => hup (List.mem_filter.2 ⟨h, by simpa using hd⟩)
  have hat : railAt (railsOff (resetTargets s.cfg k) s) (s.cfg.gov c) = railAt s (s.cfg.gov c) := by
    rw [railAt_railsOff, if_neg hkept]
  exact fun h => hd (hat.symm.trans h)

/-! ## Rails that come back -/

/-- SET_RAIL that powers nothing down makes no channel undecodable (R236). -/
theorem railWritten_keeps_decodable (s : State) (r : Nat) (st : RailState) (hup : railAt s r = .off ∨ st ≠ .off)
    (c : Channel) (hd : decodable s c = true) : decodable (writeRail s r st) c = true := by
  rw [decodable_eq_true] at hd ⊢
  change railAt (writeRail s r st) (s.cfg.gov c) ≠ .off
  rw [railAt_writeRail]
  split
  · rename_i hr
    exact hup.resolve_left (hr.1 ▸ hd)
  · exact hd

/-- Rails that are not written keep their state. -/
theorem railAt_restoreRails_of_not_mem (pairs : List (Nat × RailState)) (s : State) (q : Nat)
    (h : ∀ x ∈ pairs, x.1 ≠ q) : railAt (restoreRails pairs s) q = railAt s q := by
  induction pairs generalizing s with
  | nil => rfl
  | cons x pairs ih =>
    have hx : x.1 ≠ q := h x (by simp)
    calc railAt (restoreRails pairs (writeRail s x.1 x.2)) q
        = railAt (writeRail s x.1 x.2) q := ih _ (fun y hy => h y (by simp [hy]))
      _ = railAt s q := by rw [railAt_writeRail, if_neg (fun hq => hx hq.1.symm)]

/-- Completion writes the rails of the targets alone (R243). -/
theorem mem_targets_of_mem_restorePairs (r : ResetSeq) (x : Nat × RailState) (h : x ∈ restorePairs r) :
    x.1 ∈ r.targets := by
  obtain ⟨q, hq, hfind⟩ := List.mem_filterMap.1 h
  have hxq : x.1 = q := by simpa using List.find?_some hfind
  exact hxq ▸ hq

/-- The targets of a settling reset are OFF, so completion takes no channel's rail down (R243, R244). -/
theorem completeReset_keeps_decodable (s : State) (hs : RailsInv s) (c : Channel) (hd : decodable s c = true) :
    decodable (completeReset s) c = true := by
  rcases completeReset_cases s with ⟨-, h⟩ | ⟨hb, -, h⟩ <;> rw [h]
  · exact hd
  · obtain ⟨-, hsettling⟩ := hs
    obtain ⟨hoff, -, -⟩ := hsettling hb
    rw [decodable_eq_true] at hd ⊢
    have hkept : ∀ x ∈ restorePairs s.rst, x.1 ≠ s.cfg.gov c := fun x hx hxc =>
      hd (hoff _ (hxc ▸ mem_targets_of_mem_restorePairs _ x hx))
    exact fun h => hd ((railAt_restoreRails_of_not_mem _ s _ hkept).symm.trans h)

theorem completeReset_keeps_receiver (s : State) (hr : RailsInv s) (hs : ReceiverInv s) :
    ReceiverInv (completeReset s) := by
  have hdec := completeReset_keeps_decodable s hr
  rcases completeReset_cases s with ⟨-, h⟩ | ⟨-, -, h⟩ <;> rw [h] at hdec ⊢
  · exact hs
  · exact receiverInv_mono hs rfl rfl hdec (List.Subset.refl _) id

theorem expireWait_keeps_receiver (s : State) (hs : ReceiverInv s) : ReceiverInv (expireWait s) := by
  rcases expireWait_cases s with ⟨-, h⟩ | ⟨w, -, -, h⟩ <;> rw [h]
  · exact hs
  · exact receiverInv_mono hs rfl rfl (fun _ h => h) (List.Subset.refl _) (fun h => nomatch h)

theorem tick_keeps_receiver (s : State) (hr : RailsInv s) (hs : ReceiverInv s) : ReceiverInv (tick s) := by
  have hnow : ReceiverInv (s.setNow (s.now + 1)) := receiverInv_congr hs rfl rfl rfl rfl rfl
  have hreset := completeReset_keeps_receiver (s.setNow (s.now + 1)) (railsInv_congr hr rfl rfl rfl) hnow
  exact receiverInv_congr (expireWait_keeps_receiver _ hreset) rfl rfl rfl rfl rfl

/-! ## Bytes that come in -/

/-- A byte that completes no record: the parser's own invariant is all there is to show. -/
theorem receiverInv_setRx (s : State) (done : Bytes) (rx : RxParser) (hs : ReceiverInv s)
    (hrx : ParserInv ((s.pushRxDone done).setRx rx)) : ReceiverInv ((s.pushRxDone done).setRx rx) := by
  obtain ⟨-, hqueue, hw⟩ := (receiverInv_iff s).1 hs
  exact ⟨hrx, hqueue, hw⟩

/-- A record queued on completion is GOC by structure if it is GOC by preamble (R209). -/
theorem gocDeser_isSome_of_notGocRecord {rx : RxParser} (h : notGocRecord rx = false) (hc : rx.chan = .goc) :
    (gocDeser rx.buf).isSome = true := by
  simpa [notGocRecord, hc, Option.isSome_iff_ne_none] using h

/-- Completion brings the parser to the record boundary and queues a decodable, well-structured unit or nothing (R208 to
R210). -/
theorem completeRecord_keeps_receiver (s : State) (done : Bytes) (rx : RxParser) (hs : ReceiverInv s)
    (hlen : rx.buf.length < 65536) : ReceiverInv (completeRecord ((s.pushRxDone done).setRx rx)) := by
  obtain ⟨-, hqueue, hw⟩ := (receiverInv_iff s).1 hs
  rw [completeRecord_eq]
  refine ⟨⟨rfl, rfl, rfl⟩, fun x hx => ?_, hw⟩
  rcases List.mem_append.1 hx with hx | hx
  · exact hqueue x hx
  · split at hx
    · rename_i hqueued
      obtain ⟨hgoc, -, hdec⟩ := hqueued
      rw [List.mem_singleton.1 hx]
      exact ⟨hdec, hlen, gocDeser_isSome_of_notGocRecord hgoc⟩
    · cases hx

theorem rxByte_idle_keeps_receiver (b : Byte) (s : State) (hp : s.rx.phase = .idle) (hs : ReceiverInv s) :
    ReceiverInv (rxByte b s) := by
  rw [rxByte_idle b s hp]
  split
  · rename_i c hc
    refine receiverInv_setRx s [b] _ hs ⟨rfl, ?_, fun hpois => ?_⟩
    · change [b] = [preamble s.cfg c]
      rw [preamble_of_channelOfPreamble _ _ _ hc]
    · have hup : decodable s c = true := by simpa using hpois
      exact hup
  · exact receiverInv_congr hs rfl rfl rfl rfl rfl

theorem rxByte_lenHi_keeps_receiver (b : Byte) (s : State) (hp : s.rx.phase = .lenHi) (hs : ReceiverInv s) :
    ReceiverInv (rxByte b s) := by
  have hparser := hs.1
  simp only [ParserInv, hp] at hparser
  obtain ⟨hbuf, hraw, hgate⟩ := hparser
  rw [rxByte_lenHi b s hp]
  refine receiverInv_setRx s [b] _ hs ⟨hbuf, ⟨b, ?_, rfl⟩, hgate⟩
  change s.rx.raw ++ [b] = [preamble s.cfg s.rx.chan, b]
  rw [hraw]
  rfl

theorem rxByte_lenLo_keeps_receiver (b : Byte) (s : State) (hp : s.rx.phase = .lenLo) (hs : ReceiverInv s) :
    ReceiverInv (rxByte b s) := by
  have hparser := hs.1
  simp only [ParserInv, hp] at hparser
  obtain ⟨hbuf, ⟨hi, hraw, hlen⟩, hgate⟩ := hparser
  by_cases hn : s.rx.len + b.toNat = 0
  · rw [rxByte_lenLo_last b s hp hn]
    exact completeRecord_keeps_receiver s [b] _ hs (by simp [hbuf])
  · rw [rxByte_lenLo_more b s hp hn]
    have hbytes := hi.isLt
    have hbyte := b.isLt
    refine receiverInv_setRx s [b] _ hs ⟨?_, ?_, ?_, hgate⟩
    · change s.rx.raw ++ [b] = preamble s.cfg s.rx.chan :: be16 (s.rx.len + b.toNat) ++ s.rx.buf
      rw [hraw, hlen, hbuf, be16_of_bytes]
      rfl
    · change s.rx.buf.length < s.rx.len + b.toNat
      rw [hbuf]
      exact Nat.pos_of_ne_zero hn
    · change s.rx.len + b.toNat < 65536
      omega

theorem rxByte_body_keeps_receiver (b : Byte) (s : State) (hp : s.rx.phase = .body) (hs : ReceiverInv s) :
    ReceiverInv (rxByte b s) := by
  have hparser := hs.1
  simp only [ParserInv, hp] at hparser
  obtain ⟨hraw, hbuf, hlen, hgate⟩ := hparser
  by_cases hn : s.rx.buf.length + 1 = s.rx.len
  · rw [rxByte_body_last b s hp hn]
    exact completeRecord_keeps_receiver s [b] _ hs (by simp [hn, hlen])
  · rw [rxByte_body_more b s hp hn]
    refine receiverInv_setRx s [b] _ hs ⟨?_, ?_, hlen, hgate⟩
    · change s.rx.raw ++ [b] = preamble s.cfg s.rx.chan :: be16 s.rx.len ++ (s.rx.buf ++ [b])
      rw [hraw, List.append_assoc]
    · change (s.rx.buf ++ [b]).length < s.rx.len
      rw [List.length_append, List.length_singleton]
      omega

theorem rxByte_keeps_receiver (b : Byte) (s : State) (hs : ReceiverInv s) : ReceiverInv (rxByte b s) := by
  cases hp : s.rx.phase with
  | idle => exact rxByte_idle_keeps_receiver b s hp hs
  | lenHi => exact rxByte_lenHi_keeps_receiver b s hp hs
  | lenLo => exact rxByte_lenLo_keeps_receiver b s hp hs
  | body => exact rxByte_body_keeps_receiver b s hp hs

/-! ## The step -/

/-- A unit taken from the queue leaves a part of it (R214, R215). -/
theorem receiverInv_setRxq_tail (s : State) (x : Channel × Bytes) (rest : List (Channel × Bytes))
    (hq : s.rxq = x :: rest) (hs : ReceiverInv s) : ReceiverInv (s.setRxq rest) :=
  receiverInv_mono hs rfl rfl (fun _ h => h) (fun _ h => hq ▸ List.mem_cons_of_mem _ h) id

theorem dispatchUnit_keeps_receiver (c : Channel) (body : Bytes) (s : State) (hs : ReceiverInv s) :
    ReceiverInv (dispatchUnit c body s) := by
  obtain ⟨_, _, _, _, hwait, h⟩ := dispatchUnit_frame c body s
  rw [h]
  exact receiverInv_mono hs rfl rfl (fun _ h => h) (List.Subset.refl _) hwait

theorem taken_keeps_receiver (s t : State) (h : Taken s t) (hs : ReceiverInv s) : ReceiverInv t := by
  obtain ⟨_, _, _, _, rfl⟩ := h
  exact receiverInv_congr hs rfl rfl rfl rfl rfl

theorem effect_keeps_receiver (s : State) (i : Instr) (t : State) (h : Effect s i t) (hr : RailsInv s)
    (hs : ReceiverInv s) : ReceiverInv t := by
  cases h with
  | reassembled m =>
    obtain ⟨_, ht⟩ := reassemble_state m s
    rw [ht]
    exact receiverInv_congr hs rfl rfl rfl rfl rfl
  | received c body rest hq =>
    exact receiverInv_congr (receiverInv_setRxq_tail s _ rest hq hs) rfl rfl rfl rfl rfl
  | railWritten r st _ _ hup =>
    exact receiverInv_mono hs rfl rfl (railWritten_keeps_decodable s r st hup) (List.Subset.refl _) id
  | railDown r => exact receiverInv_congr (railDown_keeps_receiver r s hs) rfl rfl rfl rfl rfl
  | resetBegun k => exact acceptReset_keeps_receiver k s hs
  | issued a o p b _ hd =>
    obtain ⟨hparser, hqueue, -⟩ := hs
    exact ⟨hparser, hqueue, fun _ => hd⟩
  | cancelled => exact receiverInv_mono hs rfl rfl (fun _ h => h) (List.Subset.refl _) (fun h => nomatch h)
  | byteTaken b => exact rxByte_keeps_receiver b s hs
  | dispatched c body rest hq =>
    exact dispatchUnit_keeps_receiver c body _ (receiverInv_setRxq_tail s _ rest hq hs)
  | ticked => exact tick_keeps_receiver s hr hs
  | _ => exact receiverInv_congr hs rfl rfl rfl rfl rfl

/-- Settles O58: the rails' invariant and the receiver's are kept together. -/
theorem stepKeepsReceiver : Obligations.StepKeepsReceiver := by
  intro s t hr hs h
  have hboth : RailsInv t ∧ ReceiverInv t :=
    step_keeps (P := fun u => RailsInv u ∧ ReceiverInv u)
      (fun s t ht ⟨hr, hs⟩ => ⟨taken_keeps_rails s t ht hr, taken_keeps_receiver s t ht hs⟩)
      (fun s i t he ⟨hr, hs⟩ => ⟨effect_keeps_rails s i t he hr, effect_keeps_receiver s i t he hr hs⟩)
      s t ⟨hr, hs⟩ h
  exact hboth.2

end Sys2Proof.Machine
end

section
/-! PROOFS. The reassembly table (spec 10_state.md R33; 42_mbus_framer.md R186, R187, R190, R191). Only MBUS_REASSEMBLE
writes an entry, and it removes the entry in the step that fills it; every other operation removes entries. -/

namespace Sys2Proof.Machine

/-- The table's invariant reads the configuration and the table alone; a part of the table keeps it. -/
theorem reasmInv_of_sublist {s t : State} (hs : ReasmInv s) (hcfg : t.cfg = s.cfg) (hsub : t.reasm.Sublist s.reasm) :
    ReasmInv t :=
  ⟨List.Pairwise.sublist hsub hs.1, fun x hx => hcfg ▸ hs.2 x (hsub.subset hx)⟩

theorem reasmInv_congr {s t : State} (hs : ReasmInv s) (hcfg : t.cfg = s.cfg) (hreasm : t.reasm = s.reasm) :
    ReasmInv t :=
  reasmInv_of_sublist hs hcfg (hreasm ▸ List.Sublist.refl _)

/-- The chunks a well-numbered message gives an entry: at least one, in canonical form, each index below the count. -/
theorem entryWith_chunks (s : State) (m : MBusMessage) (e : ReasmEntry) (hs : ReasmInv s)
    (hidx : m.fragIndex.toNat < m.fragCount.toNat)
    (he : entryWith s.cfg s.now m (Table.lookup Key.ord m.key s.reasm) = some e) :
    e.chunks ≠ [] ∧ Table.wf id e.chunks ∧ ∀ y ∈ e.chunks, y.1 < e.count := by
  obtain ⟨hcount, ⟨-, hch, -⟩ | ⟨e0, hheld, hcount0, hfree, hch, -⟩⟩ := entryWith_some _ _ _ _ _ he
  · rw [hch, hcount]
    simpa [Table.wf] using hidx
  · obtain ⟨k, -, hmem⟩ := Table.mem_of_lookup _ _ _ _ hheld
    obtain ⟨-, -, -, -, hbelow, hwf, -⟩ := hs.2 _ hmem
    rw [hch]
    refine ⟨?_, Table.insert_wf id _ _ _ hwf, fun y hy => ?_⟩
    · exact List.ne_nil_of_length_pos (by rw [Table.length_insert id _ _ _ hfree]; omega)
    · rcases Table.mem_insert id _ _ _ _ hy with rfl | hy
      · rw [hcount]; exact hidx
      · rw [← hcount0]; exact hbelow y hy

/-- An entry that is held and not full is as an entry should be: being non-empty and not full it has two fragments or
more, so it is no broadcast (R187). -/
theorem entryInv_of_entryWith (s : State) (m : MBusMessage) (e : ReasmEntry) (hs : ReasmInv s)
    (hgood : badNumbering s.cfg m = false)
    (he : entryWith s.cfg s.now m (Table.lookup Key.ord m.key s.reasm) = some e)
    (hopen : e.chunks.length ≠ e.count) : EntryInv s.cfg (m.key, e) := by
  obtain ⟨hidx, hbcast⟩ := badNumbering_false _ _ hgood
  obtain ⟨hne, hwf, hbelow⟩ := entryWith_chunks s m e hs hidx he
  have hcount : e.count = m.fragCount.toNat := (entryWith_some _ _ _ _ _ he).1
  have hpos : 0 < e.chunks.length := List.length_pos_of_ne_nil hne
  have hle : e.chunks.length ≤ e.count := Table.length_le id e.chunks e.count hwf hbelow
  refine ⟨by dsimp only; omega, hcount ▸ byte_le _, hne, by dsimp only; omega, hbelow, hwf, fun hd => ?_⟩
  have hone : e.count = 1 := by rw [hcount, hbcast hd]; rfl
  omega

theorem reassemble_keeps_reassembly (m : MBusMessage) (s : State) (hs : ReasmInv s) : ReasmInv (reassemble m s).2 := by
  rcases reassemble_cases m s with ⟨-, h⟩ | ⟨e, hgood, he, ⟨-, h⟩ | ⟨hopen, h⟩⟩ <;> rw [h]
  · exact hs
  · exact reasmInv_of_sublist hs rfl List.filter_sublist
  · refine ⟨Table.insert_wf _ _ _ _ hs.1, fun x hx => ?_⟩
    rcases Table.mem_insert _ _ _ _ _ hx with rfl | hx
    · exact entryInv_of_entryWith s m e hs hgood he hopen
    · exact hs.2 x hx

theorem dispatchUnit_keeps_reassembly (c : Channel) (body : Bytes) (s : State) (hs : ReasmInv s) :
    ReasmInv (dispatchUnit c body s) := by
  rcases dispatchUnit_cases c body s _ rfl with h | ⟨e, -, h⟩ | ⟨r, -, -, h⟩ | ⟨m, l, -, h⟩ <;> rw [h]
  · exact hs
  · exact reasmInv_congr hs rfl rfl
  · exact reasmInv_congr hs rfl rfl
  · exact reasmInv_congr (reassemble_keeps_reassembly m s hs) rfl rfl

theorem powerDownTo_keeps_reassembly (downs : List Nat) (s : State) (hs : ReasmInv s) :
    ReasmInv (powerDownTo downs s) := by
  refine reasmInv_of_sublist hs rfl ?_
  simp only [powerDownTo]
  split
  · exact List.nil_sublist _
  · exact List.Sublist.refl _

theorem acceptReset_keeps_reassembly (k : ResetKind) (s : State) (hs : ReasmInv s) : ReasmInv (acceptReset k s) := by
  refine reasmInv_of_sublist hs (acceptReset_cfg k s) ?_
  obtain ⟨_, _, _, _, _, _, h⟩ := acceptReset_frame k s
  rw [h]
  exact List.nil_sublist _

/-- TICK only removes entries (R190). -/
theorem tick_keeps_reassembly (s : State) (hs : ReasmInv s) : ReasmInv (tick s) := by
  have hnow : ReasmInv (s.setNow (s.now + 1)) := reasmInv_congr hs rfl rfl
  have hreset : ReasmInv (completeReset (s.setNow (s.now + 1))) := by
    rcases completeReset_cases (s.setNow (s.now + 1)) with ⟨-, h⟩ | ⟨-, -, h⟩ <;> rw [h] <;>
      exact reasmInv_congr hnow rfl rfl
  have hwait : ReasmInv (expireWait (completeReset (s.setNow (s.now + 1)))) := by
    rcases expireWait_cases (completeReset (s.setNow (s.now + 1))) with ⟨-, h⟩ | ⟨w, -, -, h⟩ <;> rw [h] <;>
      exact reasmInv_congr hreset rfl rfl
  exact reasmInv_of_sublist hwait rfl List.filter_sublist

theorem taken_keeps_reassembly (s t : State) (h : Taken s t) (hs : ReasmInv s) : ReasmInv t := by
  obtain ⟨_, _, _, _, rfl⟩ := h
  exact reasmInv_congr hs rfl rfl

theorem effect_keeps_reassembly (s : State) (i : Instr) (t : State) (h : Effect s i t) (hs : ReasmInv s) :
    ReasmInv t := by
  cases h with
  | reassembled m => exact reasmInv_congr (reassemble_keeps_reassembly m s hs) rfl rfl
  | railDown r =>
    have hoff : ReasmInv (writeRail s r .off) := reasmInv_congr hs rfl rfl
    exact reasmInv_congr (powerDownTo_keeps_reassembly [r] _ hoff) rfl rfl
  | resetBegun k => exact acceptReset_keeps_reassembly k s hs
  | byteTaken b =>
    obtain ⟨_, _, _, h⟩ := rxByte_frame b s
    rw [h]
    exact reasmInv_congr hs rfl rfl
  | dispatched c body rest => exact dispatchUnit_keeps_reassembly c body _ (reasmInv_congr hs rfl rfl)
  | ticked => exact tick_keeps_reassembly s hs
  | _ => exact reasmInv_congr hs rfl rfl

/-- Settles O59: taking a turn and every effect keep the reassembly table. -/
theorem stepKeepsReassembly : Obligations.StepKeepsReassembly :=
  step_keeps taken_keeps_reassembly effect_keeps_reassembly

end Sys2Proof.Machine
end

section
/-! PROOFS. The late results (spec 10_state.md R39, R51; 44_power_rail.md R243; 45_command_surface.md R265 to R268). Each
operation that ends a wait or a settling reset puts the result on RES in the same step, so the sum of the results delivered
and the calls pending stays; only the two calls that begin one raise it. -/

namespace Sys2Proof.Machine

/-- The EIN_SEND calls that began a wait: those that have their result and the one that has not (R265). -/
def einCalls (s : State) : Nat := einResults s + pendingWaits s

/-- The accepted RESET calls: those that have their result and the one that settles (R240, R243). -/
def resetCalls (s : State) : Nat := resetResults s + pendingResets s

theorem einCalls_congr {s t : State} (hres : t.res = s.res) (hwait : t.wait = s.wait) : einCalls t = einCalls s := by
  simp only [einCalls, einResults, pendingWaits, hres, hwait]

theorem resetCalls_congr {s t : State} (hres : t.res = s.res) (hrst : t.rst = s.rst) : resetCalls t = resetCalls s := by
  simp only [resetCalls, resetResults, pendingResets, hres, hrst]

/-- A wait that ends with its result leaves the count of EIN_SEND calls. -/
theorem einCalls_of_ended {s t : State} (r : EinOutcome) (hs : s.wait.isSome = true) (ht : t.wait = none)
    (hres : t.res = s.res ++ [.einSend r]) : einCalls t = einCalls s := by
  simp [einCalls, einResults, pendingWaits, hs, ht, hres]

/-- A result of EIN_SEND is none of RESET. -/
theorem resetCalls_of_einSend {s t : State} (r : EinOutcome) (hres : t.res = s.res ++ [.einSend r])
    (hrst : t.rst = s.rst) : resetCalls t = resetCalls s := by
  simp [resetCalls, resetResults, pendingResets, hres, hrst]

/-- A result of RESET is none of EIN_SEND. -/
theorem einCalls_of_reset {s t : State} (hres : t.res = s.res ++ [.reset]) (hwait : t.wait = s.wait) :
    einCalls t = einCalls s := by
  simp [einCalls, einResults, pendingWaits, hres, hwait]

/-- A reset that completes with its result leaves the count of RESET calls (R243). -/
theorem resetCalls_of_completed {s t : State} (hs : s.rst.busy = true) (ht : t.rst.busy = false)
    (hres : t.res = s.res ++ [.reset]) : resetCalls t = resetCalls s := by
  simp [resetCalls, resetResults, pendingResets, hs, ht, hres]

/-- A wait that begins is one EIN_SEND call more (R265). -/
theorem einCalls_of_begun {s t : State} (hres : t.res = s.res) (hs : s.wait = none) (ht : t.wait.isSome = true) :
    einCalls t = einCalls s + 1 := by
  simp [einCalls, einResults, pendingWaits, hres, hs, ht]

/-- A reset that begins to settle is one RESET call more (R240). -/
theorem resetCalls_of_begun {s t : State} (hres : t.res = s.res) (hs : s.rst.busy = false) (ht : t.rst.busy = true) :
    resetCalls t = resetCalls s + 1 := by
  simp [resetCalls, resetResults, pendingResets, hres, hs, ht]

/-- Going from `s` to `t` keeps both counts. -/
def KeepsCalls (s t : State) : Prop := einCalls t = einCalls s ∧ resetCalls t = resetCalls s

theorem KeepsCalls.trans {s t u : State} (h1 : KeepsCalls s t) (h2 : KeepsCalls t u) : KeepsCalls s u :=
  ⟨h2.1.trans h1.1, h2.2.trans h1.2⟩

theorem keepsCalls_congr {s t : State} (hres : t.res = s.res) (hwait : t.wait = s.wait) (hrst : t.rst = s.rst) :
    KeepsCalls s t :=
  ⟨einCalls_congr hres hwait, resetCalls_congr hres hrst⟩

theorem keepsCalls_of_ended {s t : State} (r : EinOutcome) (hs : s.wait.isSome = true) (ht : t.wait = none)
    (hres : t.res = s.res ++ [.einSend r]) (hrst : t.rst = s.rst) : KeepsCalls s t :=
  ⟨einCalls_of_ended r hs ht hres, resetCalls_of_einSend r hres hrst⟩

/-- The power-down ends a pending wait with its error, or finds none (R234). -/
theorem powerDownTo_keepsCalls (downs : List Nat) (s : State) : KeepsCalls s (powerDownTo downs s) := by
  by_cases hd : s.cfg.gov .ein ∈ downs
  · cases hw : s.wait with
    | none => exact keepsCalls_congr (by simp [powerDownTo, hw]) (by simp [powerDownTo, hw]) rfl
    | some w =>
      exact keepsCalls_of_ended (.err (.railNotEnergized .ein s.cfg.govEin)) (by rw [hw]; rfl)
        (by simp [powerDownTo, hd]) (by simp [powerDownTo, hd, hw]) rfl
  · exact keepsCalls_congr (by simp [powerDownTo, hd]) (by simp [powerDownTo, hd]) rfl

theorem completeReset_keepsCalls (s : State) : KeepsCalls s (completeReset s) := by
  rcases completeReset_cases s with ⟨-, h⟩ | ⟨hb, -, h⟩ <;> rw [h]
  · exact ⟨rfl, rfl⟩
  · exact ⟨einCalls_of_reset rfl rfl, resetCalls_of_completed hb rfl rfl⟩

theorem expireWait_keepsCalls (s : State) : KeepsCalls s (expireWait s) := by
  rcases expireWait_cases s with ⟨-, h⟩ | ⟨w, hw, -, h⟩ <;> rw [h]
  · exact ⟨rfl, rfl⟩
  · exact keepsCalls_of_ended _ (by rw [hw]; rfl) rfl rfl rfl

theorem tick_keepsCalls (s : State) : KeepsCalls s (tick s) :=
  have hnow : KeepsCalls s (s.setNow (s.now + 1)) := keepsCalls_congr rfl rfl rfl
  ((hnow.trans (completeReset_keepsCalls _)).trans (expireWait_keepsCalls _)).trans (keepsCalls_congr rfl rfl rfl)

theorem dispatchUnit_keepsCalls (c : Channel) (body : Bytes) (s : State) : KeepsCalls s (dispatchUnit c body s) := by
  rcases dispatchUnit_cases c body s _ rfl with h | ⟨e, -, h⟩ | ⟨r, hw, -, h⟩ | ⟨m, l, -, h⟩ <;> rw [h]
  · exact ⟨rfl, rfl⟩
  · exact keepsCalls_congr rfl rfl rfl
  · exact keepsCalls_of_ended r hw rfl rfl rfl
  · obtain ⟨tbl, ht⟩ := reassemble_state m s
    rw [ht]
    exact keepsCalls_congr rfl rfl rfl

/-- An accepted RESET: the power-down keeps both counts, and then one reset more settles (R240). -/
theorem acceptReset_calls (k : ResetKind) (s : State) (hb : s.rst.busy = false) :
    einCalls (acceptReset k s) = einCalls s ∧ resetCalls (acceptReset k s) = resetCalls s + 1 := by
  have hoff : KeepsCalls s (railsOff (resetTargets s.cfg k) s) := by
    rw [railsOff_eq_setRail]
    exact keepsCalls_congr rfl rfl rfl
  have hoffrst : (railsOff (resetTargets s.cfg k) s).rst = s.rst := by
    rw [railsOff_eq_setRail]
    rfl
  obtain ⟨hein, hreset⟩ := hoff.trans (powerDownTo_keepsCalls
    ((resetTargets s.cfg k).filter (fun r => decide (railAt s r ≠ .off))) _)
  rw [acceptReset_eq, ← hein, ← hreset]
  exact ⟨einCalls_congr rfl rfl, resetCalls_of_begun rfl (hoffrst ▸ hb) rfl⟩

/-- What every effect does to the counts of calls. -/
theorem effect_calls (s : State) (i : Instr) (t : State) (h : Effect s i t) :
    KeepsCalls s t
      ∨ ((∃ a o p, i = .einSend a o p) ∧ s.wait = none ∧ t.wait.isSome = true
          ∧ einCalls t = einCalls s + 1 ∧ resetCalls t = resetCalls s)
      ∨ ((∃ k, i = .reset k) ∧ s.rst.busy = false ∧ t.rst.busy = true
          ∧ einCalls t = einCalls s ∧ resetCalls t = resetCalls s + 1) := by
  cases h with
  | issued a o p b hw =>
    exact .inr (.inl ⟨⟨a, o, p, rfl⟩, hw, rfl, einCalls_of_begun rfl hw rfl, resetCalls_congr rfl rfl⟩)
  | resetBegun k hb =>
    exact .inr (.inr ⟨⟨k, rfl⟩, hb, by rw [acceptReset_rst], acceptReset_calls k s hb⟩)
  | reassembled m =>
    obtain ⟨_, ht⟩ := reassemble_state m s
    rw [ht]
    exact .inl (keepsCalls_congr rfl rfl rfl)
  | railDown r =>
    have hoff : KeepsCalls s (writeRail s r .off) := keepsCalls_congr rfl rfl rfl
    exact .inl ((hoff.trans (powerDownTo_keepsCalls [r] _)).trans (keepsCalls_congr rfl rfl rfl))
  | cancelled hw => exact .inl (keepsCalls_of_ended .cancelled hw rfl rfl rfl)
  | byteTaken b =>
    obtain ⟨_, _, _, h⟩ := rxByte_frame b s
    rw [h]
    exact .inl (keepsCalls_congr rfl rfl rfl)
  | dispatched c body rest =>
    have hq : KeepsCalls s (s.setRxq rest) := keepsCalls_congr rfl rfl rfl
    exact .inl (hq.trans (dispatchUnit_keepsCalls c body _))
  | ticked => exact .inl (tick_keepsCalls s)
  | _ => exact .inl (keepsCalls_congr rfl rfl rfl)

/-- Settles O49: what each effect does to the counts of calls says what a step does. -/
theorem oneResultPerSplitPhaseCall : Obligations.OneResultPerSplitPhaseCall := by
  intro i s t h
  rcases effect_calls s i t (exec_effect i s t h) with ⟨hein, hreset⟩ | ⟨hi, hs, ht, hein, hreset⟩ |
    ⟨hi, hs, ht, hein, hreset⟩
  · exact ⟨.inl hein, .inl hreset⟩
  · exact ⟨.inr ⟨hi, hs, ht, hein⟩, .inl hreset⟩
  · exact ⟨.inl hein, .inr ⟨hi, hs, ht, hreset⟩⟩

end Sys2Proof.Machine
end

section
/-! PROOFS. The logs of the ports (spec 20_memory.md R62, R78; 10_state.md R38 to R40): what has left the block is never
retracted. The idea: growing is transitive, so it is enough to name, for each effect, the logs it appends to. -/

namespace Sys2Proof.Machine

/-- Going from `s` to `t` only appends to the logs and keeps `CFG`. A field that is not given says the log is the same, so
that a proof names the logs that grow and no others. -/
structure LogsGrow (s t : State) : Prop where
  cfg : t.cfg = s.cfg := by rfl
  tx : s.tx <+: t.tx := by exact List.prefix_rfl
  recLog : s.recLog <+: t.recLog := by exact List.prefix_rfl
  evt : s.evt <+: t.evt := by exact List.prefix_rfl
  res : s.res <+: t.res := by exact List.prefix_rfl
  ret : s.ret <+: t.ret := by exact List.prefix_rfl
  rxDone : s.rxDone <+: t.rxDone := by exact List.prefix_rfl

theorem LogsGrow.refl (s : State) : LogsGrow s s := {}

theorem LogsGrow.trans {s t u : State} (h1 : LogsGrow s t) (h2 : LogsGrow t u) : LogsGrow s u where
  cfg := h2.cfg.trans h1.cfg
  tx := h1.tx.trans h2.tx
  recLog := h1.recLog.trans h2.recLog
  evt := h1.evt.trans h2.evt
  res := h1.res.trans h2.res
  ret := h1.ret.trans h2.ret
  rxDone := h1.rxDone.trans h2.rxDone

theorem taken_logsGrow (s t : State) (h : Taken s t) : LogsGrow s t := by
  obtain ⟨_, _, _, _, rfl⟩ := h
  exact {}

/-- For each effect the logs it appends to. -/
theorem effect_logsGrow (s : State) (i : Instr) (t : State) (h : Effect s i t) : LogsGrow s t := by
  cases h with
  | result => exact { ret := List.prefix_append _ _ }
  | reassembled m =>
    obtain ⟨_, ht⟩ := reassemble_state m s
    rw [ht]
    exact { ret := List.prefix_append _ _ }
  | wrote => exact { tx := List.prefix_append _ _, recLog := List.prefix_append _ _, ret := List.prefix_append _ _ }
  | received => exact { ret := List.prefix_append _ _ }
  | railWritten => exact { ret := List.prefix_append _ _ }
  | railDown => exact { evt := List.prefix_append _ _, res := List.prefix_append _ _, ret := List.prefix_append _ _ }
  | resetBegun k =>
    obtain ⟨_, _, _, _, _, _, ht⟩ := acceptReset_frame k s
    rw [ht]
    exact { evt := List.prefix_append _ _, res := List.prefix_append _ _ }
  | issued => exact { tx := List.prefix_append _ _, recLog := List.prefix_append _ _ }
  | held => exact {}
  | cancelled => exact { res := List.prefix_append _ _, ret := List.prefix_append _ _ }
  | forwarded => exact { ret := List.prefix_append _ _ }
  | byteTaken b =>
    obtain ⟨_, _, _, ht⟩ := rxByte_frame b s
    rw [ht]
    exact { recLog := List.prefix_append _ _, rxDone := List.prefix_append _ _ }
  | nothingQueued => exact {}
  | dispatched c body rest =>
    obtain ⟨_, _, _, _, -, ht⟩ := dispatchUnit_frame c body (s.setRxq rest)
    rw [ht]
    exact { evt := List.prefix_append _ _, res := List.prefix_append _ _ }
  | ticked =>
    obtain ⟨_, _, _, _, _, _, ht⟩ := tick_frame s
    rw [ht]
    exact { evt := List.prefix_append _ _, res := List.prefix_append _ _ }
  | recorderFailed => exact {}
  | peerSent => exact {}

/-- Settles O50: having grown since `s` is an invariant that taking a turn and every effect keep. -/
theorem logsOnlyGrow : Obligations.LogsOnlyGrow := by
  intro s t h
  have hgrow : LogsGrow s t :=
    step_keeps (P := LogsGrow s) (fun u v hv hu => hu.trans (taken_logsGrow u v hv))
      (fun u i v hv hu => hu.trans (effect_logsGrow u i v hv)) s t (LogsGrow.refl s) h
  exact ⟨hgrow.cfg, hgrow.tx, hgrow.recLog, hgrow.evt, hgrow.res, hgrow.ret, hgrow.rxDone⟩

end Sys2Proof.Machine
end

section
/-! PROOFS. Bits and bytes (spec 20_memory.md R65). The idea: one byte and a list of eight bits determine each other, and a
byte sequence is read and written eight bits at a time. -/

namespace Sys2Proof.Machine

/-! ## One byte and its eight bits -/

/-- Place `k` of a byte's bits holds bit `7 - k` (R65). -/
theorem bitsOfByte_eq_map_range (b : Byte) : bitsOfByte b = (List.range 8).map (fun k => b.getLsbD (7 - k)) := rfl

@[simp] theorem bitsOfByte_length (b : Byte) : (bitsOfByte b).length = 8 := rfl

theorem bitsOfByte_getElem? (b : Byte) (k : Nat) (h : k < 8) : (bitsOfByte b)[k]? = some (b.getLsbD (7 - k)) := by
  rw [bitsOfByte_eq_map_range, List.getElem?_map, List.getElem?_range h, Option.map_some]

/-- The bits of a byte determine it. -/
theorem bitsOfByte_injective : Function.Injective bitsOfByte := by
  intro a b h
  refine BitVec.eq_of_getLsbD_eq (fun k hk => ?_)
  have hget : (bitsOfByte a)[7 - k]? = (bitsOfByte b)[7 - k]? := by rw [h]
  rw [bitsOfByte_getElem? a _ (by omega), bitsOfByte_getElem? b _ (by omega), Option.some_inj] at hget
  rwa [Nat.sub_sub_self (by omega : k ≤ 7)] at hget

/-- Appending a bit to a number's binary digits, as `Nat.bit` has it. -/
theorem mul_two_add_toNat (a : Nat) (b : Bool) : a * 2 + b.toNat = Nat.bit b a := by
  rw [Nat.bit_val, Nat.mul_comm]

/-- The bits of the byte that eight bits spell are those bits: the last one read is bit 0, each earlier one stands one
place higher. -/
theorem bitsOfByte_byteOfBits (bits : List Bool) (h : bits.length = 8) : bitsOfByte (byteOfBits bits) = bits := by
  match bits, h with
  | [_, _, _, _, _, _, _, _], _ =>
    simp only [bitsOfByte, byteOfBits, List.foldl_cons, List.foldl_nil, mul_two_add_toNat, BitVec.getLsbD_ofNat,
      Nat.testBit_bit_zero, Nat.testBit_bit_succ, Nat.reduceLT, decide_true, Bool.true_and]

theorem byteOfBits_bitsOfByte (b : Byte) : byteOfBits (bitsOfByte b) = b :=
  bitsOfByte_injective (bitsOfByte_byteOfBits _ (bitsOfByte_length b))

/-! ## Byte sequences, eight bits at a time -/

@[simp] theorem bitsOf_nil : bitsOf [] = [] := rfl

@[simp] theorem bitsOf_cons (b : Byte) (bs : Bytes) : bitsOf (b :: bs) = bitsOfByte b ++ bitsOf bs := rfl

theorem bytesOf_eight_append (bits rest : List Bool) (h : bits.length = 8) :
    bytesOf (bits ++ rest) = byteOfBits bits :: bytesOf rest := by
  match bits, h with
  | [_, _, _, _, _, _, _, _], _ => rfl

theorem bitsOf_length (bs : Bytes) : (bitsOf bs).length = 8 * bs.length := by
  induction bs with
  | nil => rfl
  | cons b bs ih =>
    rw [bitsOf_cons, List.length_append, bitsOfByte_length, ih, List.length_cons]
    omega

theorem bytesOf_bitsOf (bs : Bytes) : bytesOf (bitsOf bs) = bs := by
  induction bs with
  | nil => rfl
  | cons b bs ih => rw [bitsOf_cons, bytesOf_eight_append _ _ (bitsOfByte_length b), byteOfBits_bitsOfByte, ih]

/-- `bits_of` undoes `bytes_of` on whole bytes, by induction on their number (R65). -/
theorem bitsOf_bytesOf (n : Nat) (bits : List Bool) (h : bits.length = 8 * n) : bitsOf (bytesOf bits) = bits := by
  induction n generalizing bits with
  | zero =>
    obtain rfl : bits = [] := List.length_eq_zero_iff.1 h
    rfl
  | succ n ih =>
    have hhead : (bits.take 8).length = 8 := by rw [List.length_take]; omega
    have htail : (bits.drop 8).length = 8 * n := by rw [List.length_drop]; omega
    calc bitsOf (bytesOf bits)
        = bitsOf (bytesOf (bits.take 8 ++ bits.drop 8)) := by rw [List.take_append_drop]
      _ = bitsOfByte (byteOfBits (bits.take 8)) ++ bitsOf (bytesOf (bits.drop 8)) := by
          rw [bytesOf_eight_append _ _ hhead, bitsOf_cons]
      _ = bits.take 8 ++ bits.drop 8 := by rw [bitsOfByte_byteOfBits _ hhead, ih _ htail]
      _ = bits := List.take_append_drop 8 bits

/-- Place `8i + k` of a sequence's bits is place `k` of the bits of its byte `i` (R65). -/
theorem bitsOf_getElem? (bs : Bytes) (i k : Nat) (b : Byte) (hi : bs[i]? = some b) (hk : k < 8) :
    (bitsOf bs)[8 * i + k]? = some (b.getLsbD (7 - k)) := by
  induction bs generalizing i with
  | nil => cases hi
  | cons a bs ih =>
    rw [bitsOf_cons]
    cases i with
    | zero =>
      obtain rfl : a = b := Option.some.inj hi
      rw [Nat.mul_zero, Nat.zero_add, List.getElem?_append_left hk, bitsOfByte_getElem? a k hk]
    | succ i =>
      have hplace : 8 * (i + 1) + k = (bitsOfByte a).length + (8 * i + k) := by rw [bitsOfByte_length]; omega
      rw [hplace, List.getElem?_append_right (Nat.le_add_right _ _), Nat.add_sub_cancel_left]
      exact ih i hi

/-- Settles O52: the inverses hold byte by byte, and the order of the bits is that of one byte. -/
theorem bitsOfBytes : Obligations.BitsOfBytes := by
  refine ⟨fun bs => ⟨bytesOf_bitsOf bs, bitsOf_length bs⟩, fun bits h => ?_, bitsOf_getElem?⟩
  exact bitsOf_bytesOf (bits.length / 8) bits (by omega)

end Sys2Proof.Machine
end

section
/-! PROOFS. Encoding and decoding agree (spec 30_encoding.md R96, R100, R102, R104, R120, R121). The idea: the reader of each
operand and the writer of it determine each other (`Inverse`), and an instruction is fixed bytes before what such a writer
writes. -/

namespace Sys2Proof.Machine

/-! ## Readers and writers of the operands -/

/-- `p` gives a value exactly on the bytes `g` writes for it, and leaves what follows them. -/
def Inverse {α : Type} (p : Reader α) (g : α → Bytes) : Prop :=
  ∀ (bs : Bytes) (x : α) (rest : Bytes), p bs = .ok (x, rest) ↔ g x ++ rest = bs

theorem inverse_byteList : Inverse readByteList encodeByteList := fun bs x rest =>
  ⟨readByteList_ok bs x rest, fun h => h ▸ readByteList_encode x rest⟩

theorem inverse_list {α : Type} {p : Reader α} {g : α → Bytes} (h : Inverse p g) :
    Inverse (readList p) (encodeList g) := fun bs l rest =>
  ⟨readList_ok p g (fun bs r x => (h bs x r).1) bs rest l,
    fun hbs => hbs ▸ readList_encode p g l rest (fun x _ r => (h _ x r).2 rfl)⟩

theorem inverse_bits : Inverse (readList readBit) (encodeList encodeBit) :=
  inverse_list fun bs b rest => ⟨readBit_ok bs rest b, fun h => h ▸ readBit_encode b rest⟩

theorem inverse_events : Inverse (readList readEvent) (encodeList encodeEvent) :=
  inverse_list fun bs e rest => ⟨readEvent_ok bs rest e, fun h => h ▸ readEvent_encode e rest⟩

theorem mapRead_of_inverse {α : Type} {p : Reader α} {g : α → Bytes} (h : Inverse p g) (f : α → Instr) (x : α)
    (rest : Bytes) : mapRead f (p (g x ++ rest)) = .ok (f x, rest) := by
  rw [(h _ x rest).2 rfl, mapRead]

theorem codeOfChannel_of_channelOfCode (b : Byte) (ch : Channel) (h : channelOfCode b = .ok ch) :
    codeOfChannel ch = b := by
  unfold channelOfCode at h
  split_ifs at h with h0 h1 h2
  · cases h; exact h0.symm
  · cases h; exact h1.symm
  · cases h; exact h2.symm

theorem codeOfKind_of_kindOfCode (b : Byte) (k : ResetKind) (h : kindOfCode b = .ok k) : codeOfKind k = b := by
  unfold kindOfCode at h
  split_ifs at h with h0 h1
  · cases h; exact h0.symm
  · cases h; exact h1.symm

theorem codeOfRailState_lt (st : RailState) : codeOfRailState st < 4 := by
  cases st <;> decide

theorem codeOfRailState_railStateOfCode (n : Nat) : codeOfRailState (railStateOfCode n) = n % 4 := by
  unfold railStateOfCode
  split_ifs with h0 h1 h2
  · exact h0.symm
  · exact h1.symm
  · exact h2.symm
  · change 3 = n % 4
    omega

/-- The two low bits are the state, whatever the rail in the bits above them (R121). -/
theorem railStateOfCode_mul_add (k : Nat) (st : RailState) : railStateOfCode (k * 4 + codeOfRailState st) = st := by
  cases st <;> simp [railStateOfCode, codeOfRailState]

/-- The byte of SET_RAIL holds the six low bits of the rail and the state without loss (R121). -/
theorem railByte_toNat (rail : Nat) (st : RailState) :
    (BitVec.ofNat 8 (rail % 64 * 4 + codeOfRailState st)).toNat = rail % 64 * 4 + codeOfRailState st := by
  have hst := codeOfRailState_lt st
  rw [toNat_ofNat8, Nat.mod_eq_of_lt (by omega)]

/-- Every byte is the byte of SET_RAIL for the rail and the state that are read from it (R121). -/
theorem railByte_of_decoded (b : Byte) (high : Nat) :
    BitVec.ofNat 8 ((high * 64 + b.toNat / 4) % 64 * 4 + codeOfRailState (railStateOfCode b.toNat)) = b := by
  have hb := b.isLt
  rw [codeOfRailState_railStateOfCode, show (high * 64 + b.toNat / 4) % 64 * 4 + b.toNat % 4 = b.toNat by omega,
    ofNat8_toNat]

/-! ## What the encoder writes is read back -/

/-- A SET_RAIL is read back, the rail's high part after its byte where the configuration has one (R121). -/
theorem decode_setRail_encode (c : Cfg) (rail : Nat) (st : RailState) (rest : Bytes) (h : c.wideRails = true ∨ rail < 64) :
    decode c .client (encode c (.setRail rail st) ++ rest) = .ok (.setRail rail st, rest) := by
  have hst := codeOfRailState_lt st
  change mapRead _ (readRailHigh c (encodeRailHigh c rail ++ rest)) = _
  rw [readRailHigh_encode c rail rest h, mapRead, railByte_toNat, railStateOfCode_mul_add,
    show rail / 64 * 64 + (rail % 64 * 4 + codeOfRailState st) / 4 = rail by omega]

/-- A record is read back (R100). -/
theorem decodeRecord_encode (c : Cfg) (pre : Byte) (body rest : Bytes) (hpre : c.isPreamble pre = true)
    (hlen : body.length < 65536) :
    decodeRecord c (encode c (.record pre body) ++ rest) = .ok (.record pre body, rest) := by
  rw [encode, List.cons_append, List.cons_append, List.append_assoc, decodeRecord, if_pos hpre, readBe_be16 _ _ hlen]
  simp only [readBytes_append, mapRead]

/-- A pulse word is read back (R96). -/
theorem decodePulseWord_encode (c : Cfg) (edge : Edge) (dur : Nat) (rest : Bytes) (hdur : dur < 2 ^ 24) :
    decodePulseWord (encode c (.pulseWord edge dur) ++ rest) = .ok (.pulseWord edge dur, rest) := by
  rw [encode, List.cons_append, decodePulseWord, readEdge_encode]
  simp only [readBe_be24 dur rest hdur, mapRead]

/-- One length byte is enough for 255 bytes (R102, R104). -/
theorem readBytes_lengthByte (bs rest : Bytes) (h : bs.length ≤ 255) :
    readBytes (BitVec.ofNat 8 bs.length).toNat (bs ++ rest) = .ok (bs, rest) := by
  rw [toNat_ofNat8, Nat.mod_eq_of_lt (by omega), readBytes_append]

/-- An EIN body is read back (R102). -/
theorem decodeEinBody_encode (c : Cfg) (dest opcode : Byte) (payload checksum rest : Bytes)
    (hlen : payload.length ≤ 255) (hck : checksum.length = c.einCkLen) :
    decodeEinBody c (encode c (.einBody dest opcode payload checksum) ++ rest)
      = .ok (.einBody dest opcode payload checksum, rest) := by
  simp only [encode, List.cons_append, List.append_assoc, decodeEinBody, readBytes_lengthByte _ _ hlen,
    readBytes_append_of _ _ rest hck, mapRead]

/-- An MBus body is read back (R104). -/
theorem decodeMbusBody_encode (c : Cfg) (src dst mid idx cnt : Byte) (chunk crc rest : Bytes)
    (hlen : chunk.length ≤ 255) (hcrc : crc.length = c.mbusCrcLen) :
    decodeMbusBody c (encode c (.mbusBody src dst mid idx cnt chunk crc) ++ rest)
      = .ok (.mbusBody src dst mid idx cnt chunk crc, rest) := by
  simp only [encode, List.cons_append, List.append_assoc, decodeMbusBody, readBytes_lengthByte _ _ hlen,
    readBytes_append_of _ _ rest hcrc, mapRead]

/-- Settles O1, instruction by instruction: past its fixed bytes each is what the writer of its operands writes. -/
theorem decodeEncodeAgree : Obligations.DecodeEncodeAgree := by
  intro c i rest hwf
  cases i with
  | gocEncode bits => exact mapRead_of_inverse inverse_bits .gocEncode bits rest
  | gocDecode events => exact mapRead_of_inverse inverse_events .gocDecode events rest
  | gocSer events => exact mapRead_of_inverse inverse_events .gocSer events rest
  | gocDeser body => exact mapRead_of_inverse inverse_byteList .gocDeser body rest
  | einBuild dest opcode payload => exact mapRead_of_inverse inverse_byteList (.einBuild dest opcode) payload rest
  | einParse body => exact mapRead_of_inverse inverse_byteList .einParse body rest
  | mbusBuild src dst mid idx cnt chunk =>
    exact mapRead_of_inverse inverse_byteList (.mbusBuild src dst mid idx cnt) chunk rest
  | mbusParse body => exact mapRead_of_inverse inverse_byteList .mbusParse body rest
  | mbusFragment src dst mid payload =>
    exact mapRead_of_inverse inverse_byteList (.mbusFragment src dst mid) payload rest
  | mbusReassemble src dst mid idx cnt chunk =>
    exact mapRead_of_inverse inverse_byteList (.mbusReassemble src dst mid idx cnt) chunk rest
  | muxSend ch body => cases ch <;> exact mapRead_of_inverse inverse_byteList (.muxSend _) body rest
  | setRail rail st => exact decode_setRail_encode c rail st rest (by simpa [Instr.wf] using hwf)
  | reset kind => cases kind <;> rfl
  | gocSend bits => exact mapRead_of_inverse inverse_bits .gocSend bits rest
  | einSend addr opcode payload => exact mapRead_of_inverse inverse_byteList (.einSend addr opcode) payload rest
  | mbusSend src dst payload => exact mapRead_of_inverse inverse_byteList (.mbusSend src dst) payload rest
  | muxReceive | cancel | snoopStart | snoopStop | snoopExport | rxByte b | dispatch | tick | recFail => rfl
  | record pre body =>
    obtain ⟨hpre, hlen⟩ : c.isPreamble pre = true ∧ body.length < 65536 := by simpa [Instr.wf] using hwf
    exact decodeRecord_encode c pre body rest hpre hlen
  | pulseWord edge dur => exact decodePulseWord_encode c edge dur rest (of_decide_eq_true hwf)
  | einBody dest opcode payload checksum =>
    obtain ⟨hlen, hck⟩ : payload.length ≤ 255 ∧ checksum.length = c.einCkLen := by simpa [Instr.wf] using hwf
    exact decodeEinBody_encode c dest opcode payload checksum rest hlen hck
  | mbusBody src dst mid idx cnt chunk crc =>
    obtain ⟨hlen, hcrc⟩ : chunk.length ≤ 255 ∧ crc.length = c.mbusCrcLen := by simpa [Instr.wf] using hwf
    exact decodeMbusBody_encode c src dst mid idx cnt chunk crc rest hlen hcrc

/-! ## What is read is what the encoder writes -/

/-- The bytes are the encoding of `i`, then `rest`, on the port `t` of `i`, and `i` is well-formed. -/
def Spells (c : Cfg) (t : Turn) (bs : Bytes) (i : Instr) (rest : Bytes) : Prop :=
  encode c i ++ rest = bs ∧ i.turn = t ∧ i.wf c = true

/-- An instruction made of fixed bytes `pre` and one operand is spelt by them and the bytes the operand was read from. -/
theorem spells_of_mapRead {α : Type} {p : Reader α} {g : α → Bytes} (hp : Inverse p g) {c : Cfg} {t : Turn} {f : α → Instr}
    {bs rest : Bytes} {i : Instr} (pre : Bytes)
    (hf : ∀ x, encode c (f x) = pre ++ g x ∧ (f x).turn = t ∧ (f x).wf c = true)
    (h : mapRead f (p bs) = .ok (i, rest)) : Spells c t (pre ++ bs) i rest := by
  obtain ⟨x, hx, rfl⟩ := mapRead_ok f (p bs) i rest h
  obtain ⟨henc, hturn, hwf⟩ := hf x
  exact ⟨by rw [henc, List.append_assoc, (hp bs x rest).1 hx], hturn, hwf⟩

/-- A decoded SET_RAIL is spelt by its bytes (R121). -/
theorem spells_setRail (c : Cfg) (b : Byte) (bs rest : Bytes) (i : Instr)
    (h : mapRead (fun high => .setRail (high * 64 + b.toNat / 4) (railStateOfCode b.toNat)) (readRailHigh c bs)
      = .ok (i, rest)) : Spells c .client (0x20 :: b :: bs) i rest := by
  obtain ⟨high, hhigh, rfl⟩ := mapRead_ok _ _ i rest h
  have hb := b.isLt
  obtain ⟨hbytes, hrange⟩ := readRailHigh_ok c high (high * 64 + b.toNat / 4) bs rest hhigh (by omega)
  refine ⟨?_, rfl, by simpa [Instr.wf] using hrange⟩
  rw [encode, railByte_of_decoded, List.cons_append, List.cons_append, hbytes]

/-- A decoded call is spelt by its op code and its operands, op code by op code (R120, R121). -/
theorem decodeOperands_spells (c : Cfg) (op : Byte) (bs rest : Bytes) (i : Instr)
    (h : decodeOperands c op bs = .ok (i, rest)) : Spells c .client (op :: bs) i rest := by
  unfold decodeOperands at h
  rw [← ofNat8_toNat op]
  generalize op.toNat = code at h ⊢
  split at h
  · exact spells_of_mapRead inverse_bits [0x01] (fun _ => ⟨rfl, rfl, rfl⟩) h
  · exact spells_of_mapRead inverse_events [0x02] (fun _ => ⟨rfl, rfl, rfl⟩) h
  · exact spells_of_mapRead inverse_events [0x03] (fun _ => ⟨rfl, rfl, rfl⟩) h
  · exact spells_of_mapRead inverse_byteList [0x04] (fun _ => ⟨rfl, rfl, rfl⟩) h
  · split at h
    next dest opcode tail =>
      exact spells_of_mapRead inverse_byteList [0x05, dest, opcode] (fun _ => ⟨rfl, rfl, rfl⟩) h
    next => cases h
  · exact spells_of_mapRead inverse_byteList [0x06] (fun _ => ⟨rfl, rfl, rfl⟩) h
  · split at h
    next src dst mid idx cnt tail =>
      exact spells_of_mapRead inverse_byteList [0x07, src, dst, mid, idx, cnt] (fun _ => ⟨rfl, rfl, rfl⟩) h
    next => cases h
  · exact spells_of_mapRead inverse_byteList [0x08] (fun _ => ⟨rfl, rfl, rfl⟩) h
  · split at h
    next src dst mid tail =>
      exact spells_of_mapRead inverse_byteList [0x09, src, dst, mid] (fun _ => ⟨rfl, rfl, rfl⟩) h
    next => cases h
  · split at h
    next src dst mid idx cnt tail =>
      exact spells_of_mapRead inverse_byteList [0x0A, src, dst, mid, idx, cnt] (fun _ => ⟨rfl, rfl, rfl⟩) h
    next => cases h
  · split at h
    next chan tail =>
      split at h
      next => cases h
      next ch hch =>
        obtain rfl := codeOfChannel_of_channelOfCode chan ch hch
        exact spells_of_mapRead inverse_byteList [0x10, codeOfChannel ch] (fun _ => ⟨rfl, rfl, rfl⟩) h
    next => cases h
  · cases h; exact ⟨rfl, rfl, rfl⟩
  · split at h
    next b tail => exact spells_setRail c b tail rest i h
    next => cases h
  · split at h
    next b tail =>
      split at h
      next => cases h
      next kind hkind =>
        obtain rfl := codeOfKind_of_kindOfCode b kind hkind
        cases h; exact ⟨rfl, rfl, rfl⟩
    next => cases h
  · exact spells_of_mapRead inverse_bits [0x30] (fun _ => ⟨rfl, rfl, rfl⟩) h
  · split at h
    next addr opcode tail =>
      exact spells_of_mapRead inverse_byteList [0x31, addr, opcode] (fun _ => ⟨rfl, rfl, rfl⟩) h
    next => cases h
  · split at h
    next src dst tail =>
      exact spells_of_mapRead inverse_byteList [0x32, src, dst] (fun _ => ⟨rfl, rfl, rfl⟩) h
    next => cases h
  · cases h; exact ⟨rfl, rfl, rfl⟩
  · cases h; exact ⟨rfl, rfl, rfl⟩
  · cases h; exact ⟨rfl, rfl, rfl⟩
  · cases h; exact ⟨rfl, rfl, rfl⟩
  · cases h

/-- A decoded record is spelt by its preamble, its length and its body (R100). -/
theorem decodeRecord_spells (c : Cfg) (bs rest : Bytes) (i : Instr) (h : decodeRecord c bs = .ok (i, rest)) :
    Spells c (.peer .record) bs i rest := by
  unfold decodeRecord at h
  split at h
  next pre tail =>
    split_ifs at h with hpre
    split at h
    next => cases h
    next n r hn =>
      obtain ⟨body, hbody, rfl⟩ := mapRead_ok _ _ i rest h
      obtain ⟨hlenBytes, hlt⟩ := readBe2_ok n tail r hn
      obtain ⟨hbytes, rfl⟩ := readBytes_ok n r body rest hbody
      refine ⟨?_, rfl, by simp [Instr.wf, hpre, hlt]⟩
      rw [encode, List.cons_append, List.cons_append, List.append_assoc, hbytes, hlenBytes]
  next => cases h

/-- A decoded pulse word is spelt by its edge byte and its duration (R96). -/
theorem decodePulseWord_spells (c : Cfg) (bs rest : Bytes) (i : Instr) (h : decodePulseWord bs = .ok (i, rest)) :
    Spells c (.peer .pulseWord) bs i rest := by
  unfold decodePulseWord at h
  split at h
  next => cases h
  next edge r hedge =>
    obtain ⟨dur, hdur, rfl⟩ := mapRead_ok _ _ i rest h
    obtain ⟨hbytes, hlt⟩ := readBe3_ok dur r rest hdur
    exact ⟨by rw [encode, List.cons_append, hbytes, readEdge_ok bs r edge hedge], rfl, decide_eq_true hlt⟩

/-- The length byte and the bytes it counts (R102, R104). -/
theorem readBytes_lengthByte_ok (len : Byte) (bs v rest : Bytes) (h : readBytes len.toNat bs = .ok (v, rest)) :
    v ++ rest = bs ∧ BitVec.ofNat 8 v.length = len ∧ v.length ≤ 255 := by
  obtain ⟨hbytes, hlen⟩ := readBytes_ok len.toNat bs v rest h
  have hlt := len.isLt
  exact ⟨hbytes, by rw [hlen, ofNat8_toNat], by omega⟩

/-- A decoded EIN body is spelt by its fields (R102). -/
theorem decodeEinBody_spells (c : Cfg) (bs rest : Bytes) (i : Instr) (h : decodeEinBody c bs = .ok (i, rest)) :
    Spells c (.peer .einBody) bs i rest := by
  unfold decodeEinBody at h
  split at h
  next dest opcode len tail =>
    split at h
    next => cases h
    next payload r hpayload =>
      obtain ⟨ck, hck, rfl⟩ := mapRead_ok _ _ i rest h
      obtain ⟨hbytes, hlen, hle⟩ := readBytes_lengthByte_ok len tail payload r hpayload
      obtain ⟨rfl, hckLen⟩ := readBytes_ok _ r ck rest hck
      exact ⟨by simp [encode, hlen, hbytes], rfl, by simp [Instr.wf, hle, hckLen]⟩
  next => cases h

/-- A decoded MBus body is spelt by its fields (R104). -/
theorem decodeMbusBody_spells (c : Cfg) (bs rest : Bytes) (i : Instr) (h : decodeMbusBody c bs = .ok (i, rest)) :
    Spells c (.peer .mbusBody) bs i rest := by
  unfold decodeMbusBody at h
  split at h
  next src dst mid idx cnt len tail =>
    split at h
    next => cases h
    next chunk r hchunk =>
      obtain ⟨crc, hcrc, rfl⟩ := mapRead_ok _ _ i rest h
      obtain ⟨hbytes, hlen, hle⟩ := readBytes_lengthByte_ok len tail chunk r hchunk
      obtain ⟨rfl, hcrcLen⟩ := readBytes_ok _ r crc rest hcrc
      exact ⟨by simp [encode, hlen, hbytes], rfl, by simp [Instr.wf, hle, hcrcLen]⟩
  next => cases h

/-- Settles O2, port by port: what each port's decoder gives is spelt by the bytes it took. -/
theorem encodeDecodeAgree : Obligations.EncodeDecodeAgree := by
  intro c t bs i rest h
  change Spells c t bs i rest
  cases t with
  | client =>
    cases bs with
    | nil => cases h
    | cons op tail => exact decodeOperands_spells c op tail rest i h
  | resume => cases h
  | peer f =>
    cases f with
    | record => exact decodeRecord_spells c bs rest i h
    | pulseWord => exact decodePulseWord_spells c bs rest i h
    | einBody => exact decodeEinBody_spells c bs rest i h
    | mbusBody => exact decodeMbusBody_spells c bs rest i h
  | reader =>
    obtain ⟨b, hb, rfl⟩ := mapRead_ok _ _ i rest h
    exact ⟨(readByte_ok bs rest b hb).symm, rfl, rfl⟩
  | dispatcher | clock | recorder => cases h; exact ⟨rfl, rfl, rfl⟩

/-! ## Words written out -/

/-- Settles O3: each word is the encoder's word for its instruction, so O1 reads it back. -/
theorem sampleWordsDecode : Obligations.SampleWordsDecode := by
  have sample := decodeEncodeAgree cfgRef
  exact ⟨sample (.setRail 1 .high) [] rfl, sample (.reset .hard) [] rfl, sample (.muxSend .mbus [0xAB]) [] rfl,
    sample (.einSend 0x12 0x01 []) [] rfl, sample (.gocSend [true, false]) [] rfl, sample .cancel [0x20] rfl,
    sample (.pulseWord .rise 60) [] rfl, sample (.record 0x45 [0xAB]) [] rfl,
    sample (.einBody 0x12 0x02 [] [0x14]) [] rfl, sample (.mbusBody 0x21 0x35 0x00 0x00 0x01 [] [0x62, 0x30]) [] rfl,
    rfl, rfl⟩

end Sys2Proof.Machine
end

section
/-! PROOFS. What a step makes of an agent's bytes (spec 00_scope.md R14; 30_encoding.md R115, R96, R100, R101, R102, R104;
20_memory.md R60): bytes that are no instruction refuse the step, and a wire unit's bytes join `RX`. -/

namespace Sys2Proof.Machine

/-! ## Bytes that are no instruction -/

/-- A scheduled turn that takes bytes decodes them. -/
theorem fetch_of_takesBytes (s : State) (t : Turn) (ts : List Turn) (ht : takesBytes t = true) (hs : s.turns = t :: ts) :
    fetch s = fetchTurn t (s.setTurns ts) := by
  rw [fetch, hs]
  cases t with
  | client | reader | peer f => rfl
  | resume | dispatcher | clock | recorder => cases ht

/-- A step whose bytes are no instruction is refused with the decoder's reason. -/
theorem step_of_decode_error (s : State) (t : Turn) (ts : List Turn) (b : Byte) (rest : Bytes) (e : DecodeError)
    (ht : takesBytes t = true) (hs : s.turns = t :: ts) (hsrc : s.source t = b :: rest)
    (hdec : decode s.cfg t (b :: rest) = .error e) : step s = .refused (.notAnOperation e) := by
  have hsource : (s.setTurns ts).source t = b :: rest := by rw [← hsrc]; cases t <;> rfl
  have hfetch : fetchTurn t (s.setTurns ts) = .refuse (.notAnOperation e) := by
    rw [fetchTurn, hsource, if_neg (by simp), State.setTurns_cfg, hdec]
  rw [step, fetch_of_takesBytes s t ts ht hs, hfetch]

/-- An op code that is none of the table's (R120) is reserved. -/
theorem decodeOperands_reserved (c : Cfg) (op : Byte) (bs : Bytes)
    (hop : op.toNat ∉ [0x01, 0x02, 0x03, 0x04, 0x05, 0x06, 0x07, 0x08, 0x09, 0x0A, 0x10, 0x11, 0x20, 0x21, 0x30, 0x31,
      0x32, 0x33, 0x34, 0x35, 0x36]) : decodeOperands c op bs = .error (.reservedOpcode op) := by
  unfold decodeOperands
  split
  case h_22 => rfl
  all_goals
    rename_i hcode
    exact absurd (by rw [hcode]; decide) hop

/-- An edge byte above 0x01 begins no pulse word (R96). -/
theorem decodePulseWord_badEdge (b : Byte) (rest : Bytes) (hb : 1 < b.toNat) :
    decodePulseWord (b :: rest) = .error (.badEdge b) := by
  have h0 : b ≠ 0 := by rintro rfl; exact absurd hb (by decide)
  have h1 : b ≠ 1 := by rintro rfl; exact absurd hb (by decide)
  simp only [decodePulseWord, readEdge, readByte, if_neg h0, if_neg h1]

/-- A byte that is no preamble begins no record (R101). -/
theorem decodeRecord_badPreamble (c : Cfg) (b : Byte) (rest : Bytes) (hb : ∀ ch, b ≠ preamble c ch) :
    decodeRecord c (b :: rest) = .error (.badPreamble b) := by
  have hnot : c.isPreamble b = false := by
    simp only [Cfg.isPreamble, Bool.or_eq_false_iff, decide_eq_false_iff_not]
    exact ⟨⟨hb .goc, hb .ein⟩, hb .mbus⟩
  simp only [decodeRecord, hnot, Bool.false_eq_true, if_false]

/-- Settles O6: in each clause the decoder errs with the named reason, and the step is refused with it. -/
theorem reservedCodesRefused : Obligations.ReservedCodesRefused := by
  refine ⟨fun s ts op rest hs hinp hop => ?_, fun s ts rest hs hinp => ?_, fun s ts b rest hs hinp hb => ?_,
    fun s ts b rest hs hinp hb => ?_⟩
  · exact step_of_decode_error s .client ts op rest _ rfl hs hinp (decodeOperands_reserved s.cfg op rest hop)
  · exact step_of_decode_error s .client ts 0x10 (0x03 :: rest) _ rfl hs hinp rfl
  · exact step_of_decode_error s (.peer .pulseWord) ts b rest _ rfl hs hinp (decodePulseWord_badEdge b rest hb)
  · exact step_of_decode_error s (.peer .record) ts b rest _ rfl hs hinp (decodeRecord_badPreamble s.cfg b rest hb)

/-! ## Wire units -/

/-- A pulse word's bytes as the spec spells them (R96). -/
theorem pulseWordBytes_eq (edge : Edge) (dur : Nat) :
    pulseWordBytes edge dur = [if edge = .rise then (0x01 : Byte) else 0x00, BitVec.ofNat 8 (dur / 65536),
      BitVec.ofNat 8 (dur / 256), BitVec.ofNat 8 dur] := by
  cases edge <;> simp [pulseWordBytes, encodeEdge, be24, byteAt]

/-- Settles O48: within its bound each unit's step is `peerSend` of the unit's bytes. -/
theorem wireUnitsReachRx : Obligations.WireUnitsReachRx := by
  intro s
  refine ⟨fun pre body hlen => ?_, fun edge dur hdur => ?_, fun dest opcode payload ck hlen => ?_,
    fun src dst mid idx cnt chunk crc hlen => ?_⟩
  · change execRecord pre body s = _
    rw [execRecord, if_neg (by omega), peerSend, recordBytes_eq]
  · change execPulseWord edge dur s = _
    rw [execPulseWord, if_neg (by omega), peerSend, pulseWordBytes_eq]
  · exact if_neg (Nat.not_lt.2 hlen)
  · exact if_neg (Nat.not_lt.2 hlen)

end Sys2Proof.Machine
end

section
/-! PROOFS. The GOC encoder and the serial form (spec 40_goc_codec.md R132, R137, R138; 30_encoding.md R93 to R96). The
idea: a train is its symbols back to back, and a body with GOC structure is its words back to back, so what is said of
events comes down to what is said of symbols and of words. -/

namespace Sys2Proof.Machine

/-! ## What each operation replies, by the codec's outcome -/

theorem exec_gocEncode_of_le (bits : List Bit) (s : State) (h : bits.length ≤ s.cfg.gocMaxBits) :
    exec (.gocEncode bits) s = .next (s.pushRet [.events (trainOf s.cfg bits)]) := by
  change answer ((gocEncode s.cfg bits).map .events) s = _
  rw [gocEncode, if_neg (Nat.not_lt.2 h)]
  rfl

theorem exec_gocEncode_of_gt (bits : List Bit) (s : State) (h : s.cfg.gocMaxBits < bits.length) :
    exec (.gocEncode bits) s = .refused .gocTooManyBits := by
  change answer ((gocEncode s.cfg bits).map .events) s = _
  rw [gocEncode, if_pos h]
  rfl

theorem exec_gocDecode_of_ok {events : List PulseEvent} {s : State} {bits : List Bit}
    (h : gocDecode s.cfg events = .ok bits) : exec (.gocDecode events) s = .next (s.pushRet [.bits bits]) := by
  change answerErr ((gocDecode s.cfg events).map .bits) s = _
  rw [h]
  rfl

theorem exec_gocDecode_of_error {events : List PulseEvent} {s : State} {e : Err}
    (h : gocDecode s.cfg events = .error e) : exec (.gocDecode events) s = .next (s.pushRet [.err e]) := by
  change answerErr ((gocDecode s.cfg events).map .bits) s = _
  rw [h]
  rfl

theorem exec_gocSer_of_lt (events : List PulseEvent) (s : State) (h : ∀ e ∈ events, e.dur < 2 ^ 24) :
    exec (.gocSer events) s = .next (s.pushRet [.bytes (events.flatMap (fun e => pulseWordBytes e.edge e.dur))]) := by
  change answer ((gocSer events).map .bytes) s = _
  rw [gocSer_ok events h]
  rfl

theorem exec_gocSer_of_le (events : List PulseEvent) (s : State) (h : ∃ e ∈ events, 2 ^ 24 ≤ e.dur) :
    exec (.gocSer events) s = .refused .durationTooLong := by
  change answer ((gocSer events).map .bytes) s = _
  rw [gocSer_error events h]
  rfl

theorem exec_gocDeser (body : Bytes) (s : State) :
    exec (.gocDeser body) s = .next (s.pushRet [(deserFrom 0 body).elim .notGoc .events]) :=
  congrFun (execGocDeser_eq_reply body) s

/-! ## The encoded train -/

/-- An event of the encoded train is the nominal form of the symbol at its place (R95, R132). -/
theorem trainOf_getElem? (c : Cfg) (bits : List Bit) (k : Nat) (e : PulseEvent) (h : (trainOf c bits)[k]? = some e) :
    ∃ x, (trainSymbols bits)[k]? = some x ∧ e.edge = symbolEdge x ∧ e.dur = nominal c x := by
  have hsym := timed_getElem? _ _ k e h
  rw [List.getElem?_map, Option.map_eq_some_iff] at hsym
  obtain ⟨x, hx, hpair⟩ := hsym
  obtain ⟨hedge, hdur⟩ := Prod.mk.inj hpair
  exact ⟨x, hx, hedge.symm, hdur.symm⟩

/-- Where the symbol of a place is known, so is the duration of the event there. -/
theorem trainOf_dur (c : Cfg) (bits : List Bit) (k : Nat) (x : Symbol) (e : PulseEvent)
    (hx : (trainSymbols bits)[k]? = some x) (h : (trainOf c bits)[k]? = some e) : e.dur = nominal c x := by
  obtain ⟨y, hy, -, hdur⟩ := trainOf_getElem? c bits k e h
  cases hx.symm.trans hy
  exact hdur

/-- Pulses stand at the even places of a train and gaps at the odd ones, so each has the edge the decoder expects. -/
theorem symbolEdge_trainSymbols (bits : List Bit) (k : Nat) (x : Symbol) (h : (trainSymbols bits)[k]? = some x) :
    symbolEdge x = expectedEdge k := by
  have hk : k < 2 * bits.length + 3 := by simpa using (List.getElem?_eq_some_iff.1 h).1
  unfold expectedEdge
  by_cases hlast : k = 2 * bits.length + 2
  · subst hlast
    cases (trainSymbols_stop bits).symm.trans h
    rw [if_pos (by omega)]
    rfl
  · have hplace := placeOk_trainSymbols bits k x (by omega) h
    unfold placeOk at hplace
    split at hplace
    · subst hplace
      rw [if_neg (by omega)]
      rfl
    · rw [if_pos (by omega)]
      split at hplace
      · subst hplace; rfl
      · rcases hplace with rfl | rfl <;> rfl

/-- The nominal length of the bits of a train, each with its gap. -/
theorem sum_nominal_bitSymbols (c : Cfg) (bits : List Bit) : ((bitSymbols bits).map (nominal c)).sum
    = bits.length * c.tGap + bits.count true * c.tLong + bits.count false * c.tShort := by
  induction bits with
  | nil => simp [bitSymbols]
  | cons b bits ih =>
    have hcons : bitSymbols (b :: bits) = bitSymbol b :: .gap :: bitSymbols bits := rfl
    rw [hcons]
    simp only [List.map_cons, List.sum_cons, ih]
    cases b <;> simp [bitSymbol, nominal, Nat.add_mul] <;> omega

/-- The total length of the encoded train (R132, corner case). -/
theorem sum_dur_trainOf (c : Cfg) (bits : List Bit) : ((trainOf c bits).map (fun e => e.dur)).sum
    = c.tStart + c.tStop + (bits.length + 1) * c.tGap + bits.count true * c.tLong + bits.count false * c.tShort := by
  have hdurs : (trainOf c bits).map (fun e => e.dur) = (trainSymbols bits).map (nominal c) := by
    rw [trainOf, timed_map_dur, List.map_map]
    rfl
  rw [hdurs, trainSymbols_eq]
  simp only [List.map_append, List.map_cons, List.map_nil, List.sum_append, List.sum_cons, List.sum_nil,
    sum_nominal_bitSymbols, nominal, Nat.add_mul]
  omega

/-- Settles O7: the reply is `trainOf`, whose events are the symbols of R94 in their places. -/
theorem gocEncodeTrain : Obligations.GocEncodeTrain := by
  intro bits s
  refine ⟨fun hle => ⟨trainOf s.cfg bits, exec_gocEncode_of_le bits s hle, trainOf_length s.cfg bits, ?_, ?_, ?_, ?_,
    ?_, timed_next 0 _, sum_dur_trainOf s.cfg bits⟩, exec_gocEncode_of_gt bits s⟩
  · intro k e he
    obtain ⟨x, hx, hedge, -⟩ := trainOf_getElem? s.cfg bits k e he
    rw [hedge, symbolEdge_trainSymbols bits k x hx, expectedEdge]
  · exact fun e he => ⟨timed_first 0 _ e he, trainOf_dur s.cfg bits 0 .start e rfl he⟩
  · intro i b e hb he
    rw [trainOf_dur s.cfg bits _ (bitSymbol b) e (trainSymbols_bit bits i b hb) he]
    cases b <;> rfl
  · intro k e he
    have hk : 2 * k + 1 < 2 * bits.length + 3 := by simpa using (List.getElem?_eq_some_iff.1 he).1
    exact trainOf_dur s.cfg bits _ .gap e (trainSymbols_odd bits k (by omega)) he
  · exact fun e he => trainOf_dur s.cfg bits _ .stop e (trainSymbols_stop bits) he

/-! ## The serial form -/

/-- Settles O11: the words are `pulseWordBytes`, spelt as in R96. -/
theorem gocSerWords : Obligations.GocSerWords := by
  intro events s
  refine ⟨fun hlt => ?_, exec_gocSer_of_le events s⟩
  rw [exec_gocSer_of_lt events s hlt]
  simp only [pulseWordBytes_eq]

/-- What R138 asks of a body: whole words, each with an edge byte of 0x00 or 0x01. -/
def GocStructured (body : Bytes) : Prop :=
  body.length % 4 = 0 ∧ ∀ (k : Nat) (b : Byte), body[4 * k]? = some b → b.toNat ≤ 1

/-- The pulse words that stand in a body back to back. -/
def wordsOf : Bytes → List (Edge × Nat)
  | w0 :: w1 :: w2 :: w3 :: rest => (if w0 = 1 then .rise else .fall, ofBe [w1, w2, w3]) :: wordsOf rest
  | _ => []

/-- A first word is judged by its edge byte alone. -/
theorem gocStructured_word (w0 w1 w2 w3 : Byte) (rest : Bytes) :
    GocStructured (w0 :: w1 :: w2 :: w3 :: rest) ↔ w0.toNat ≤ 1 ∧ GocStructured rest := by
  have hlen : (w0 :: w1 :: w2 :: w3 :: rest).length = rest.length + 4 := rfl
  have hskip : ∀ k, (w0 :: w1 :: w2 :: w3 :: rest)[4 * (k + 1)]? = rest[4 * k]? := fun k => by simp [Nat.mul_succ]
  constructor
  · rintro ⟨hmod, hedges⟩
    exact ⟨hedges 0 w0 rfl, by omega, fun k b hb => hedges (k + 1) b ((hskip k).trans hb)⟩
  · rintro ⟨hw0, hmod, hedges⟩
    refine ⟨by omega, fun k b hb => ?_⟩
    cases k with
    | zero => cases hb; exact hw0
    | succ k => exact hedges k b ((hskip k).symm.trans hb)

/-- How the loop of GOC_DESER takes a word (R138). -/
theorem deserFrom_word (t : Nat) (w0 w1 w2 w3 : Byte) (rest : Bytes) : deserFrom t (w0 :: w1 :: w2 :: w3 :: rest)
    = if 1 < w0.toNat then none
      else (deserFrom (t + ofBe [w1, w2, w3]) rest).map
        (⟨t, if w0 = 1 then .rise else .fall, ofBe [w1, w2, w3]⟩ :: ·) := by
  rw [deserFrom]
  split
  · rfl
  · cases h : deserFrom (t + ofBe [w1, w2, w3]) rest <;> simp only [h, Option.map_none, Option.map_some]

/-- Fewer bytes than a word, but some: no GOC structure, and no events (R138). -/
theorem deserFrom_rest (t : Nat) (body : Bytes) (hne : body ≠ [])
    (hword : ∀ w0 w1 w2 w3 rest, body = w0 :: w1 :: w2 :: w3 :: rest → False) :
    deserFrom t body = none ∧ ¬ GocStructured body := by
  match body with
  | [] => exact absurd rfl hne
  | [_] | [_, _] | [_, _, _] => exact ⟨rfl, fun h => absurd h.1 (by simp)⟩
  | w0 :: w1 :: w2 :: w3 :: rest => exact (hword w0 w1 w2 w3 rest rfl).elim

/-- The loop of GOC_DESER reads the words of a body that has GOC structure (R138). -/
theorem deserFrom_of_structured (t : Nat) (body : Bytes) (h : GocStructured body) :
    deserFrom t body = some (timed t (wordsOf body)) := by
  induction body using wordsOf.induct generalizing t with
  | case1 w0 w1 w2 w3 rest ih =>
    obtain ⟨hedge, hrest⟩ := (gocStructured_word ..).1 h
    rw [deserFrom_word, if_neg (Nat.not_lt.2 hedge), ih _ hrest]
    rfl
  | case2 body hword =>
    by_cases hnil : body = []
    · subst hnil; rfl
    · exact absurd h (deserFrom_rest t body hnil hword).2

/-- A body without GOC structure gives no events (R138). -/
theorem deserFrom_of_not_structured (t : Nat) (body : Bytes) (h : ¬ GocStructured body) : deserFrom t body = none := by
  induction body using wordsOf.induct generalizing t with
  | case1 w0 w1 w2 w3 rest ih =>
    rw [deserFrom_word]
    split
    · rfl
    · next hedge =>
      have hrest : ¬ GocStructured rest := fun hr => h ((gocStructured_word ..).2 ⟨Nat.not_lt.1 hedge, hr⟩)
      rw [ih _ hrest]
      rfl
  | case2 body hword =>
    have hnil : body ≠ [] := by rintro rfl; exact h ⟨rfl, by simp⟩
    exact (deserFrom_rest t body hnil hword).1

theorem wordsOf_length (body : Bytes) (h : body.length % 4 = 0) : 4 * (wordsOf body).length = body.length := by
  induction body using wordsOf.induct with
  | case1 w0 w1 w2 w3 rest ih =>
    simp only [List.length_cons] at h
    simp only [wordsOf, List.length_cons, Nat.mul_add, ih (by omega)]
  | case2 body hword =>
    match body with
    | [] => rfl
    | [_] | [_, _] | [_, _, _] => simp at h
    | w0 :: w1 :: w2 :: w3 :: rest => exact (hword w0 w1 w2 w3 rest rfl).elim

/-- Word `k` is the four bytes from place `4k`: an edge byte and a duration of three bytes (R96). -/
theorem wordsOf_getElem? (body : Bytes) (k : Nat) (x : Edge × Nat) (h : (wordsOf body)[k]? = some x) :
    x.1 = (if body[4 * k]? = some 1 then .rise else .fall)
      ∧ x.2 = (body.getD (4 * k + 1) 0).toNat * 65536 + (body.getD (4 * k + 2) 0).toNat * 256
          + (body.getD (4 * k + 3) 0).toNat := by
  induction body using wordsOf.induct generalizing k with
  | case1 w0 w1 w2 w3 rest ih =>
    cases k with
    | zero =>
      cases h
      exact ⟨by simp only [Nat.mul_zero, List.getElem?_cons_zero, Option.some.injEq], ofBe_three w1 w2 w3⟩
    | succ k => simpa [Nat.mul_add] using ih k h
  | case2 body hword => rw [wordsOf.eq_2 body hword] at h; cases h

/-- Settles O12: without GOC structure there are no events, and with it they are the words, timed from 0. -/
theorem gocDeserVerdict : Obligations.GocDeserVerdict := by
  intro body s
  constructor
  · intro hbad
    have hnot : ¬ GocStructured body := by
      rintro ⟨hmod, hedges⟩
      rcases hbad with hlen | ⟨k, b, hb, hedge⟩
      · exact hlen hmod
      · exact absurd (hedges k b hb) (Nat.not_le.2 hedge)
    rw [exec_gocDeser, deserFrom_of_not_structured 0 body hnot]
    rfl
  · intro hmod hedges
    refine ⟨timed 0 (wordsOf body), ?_, ?_, ?_, timed_first 0 _, timed_next 0 _⟩
    · rw [exec_gocDeser, deserFrom_of_structured 0 body ⟨hmod, hedges⟩]
      rfl
    · rw [timed_length, wordsOf_length body hmod]
    · exact fun k e he => wordsOf_getElem? body k _ (timed_getElem? 0 _ k e he)

end Sys2Proof.Machine
end

section
/-! PROOFS. The GOC decoder (spec 40_goc_codec.md R134, R135, R140, R141). The idea: a valid beginning of a train brings
the decoder to the event after it, and there one check of R135 decides. -/

namespace Sys2Proof.Machine

/-! ## One event the decoder rejects -/

theorem expectedEdge_of_odd {k : Nat} (h : k % 2 = 1) : expectedEdge k = .fall := if_neg (by omega)

theorem expectedEdge_of_even {k : Nat} (h : k % 2 = 0) : expectedEdge k = .rise := if_pos h

theorem decodeFrom_malformed (c : Cfg) (e : PulseEvent) (rest : List PulseEvent) (k prev : Nat) (fin : Bool)
    (acc : List Bit) (h : e.edge ≠ expectedEdge k ∨ e.t < prev) :
    decodeFrom c (e :: rest) k prev fin acc = .error (.timingViolation .malformed k) := by
  rw [decodeFrom]
  split
  · rfl
  · next htime => rw [if_pos (h.resolve_right htime)]

theorem decodeFrom_trailing (c : Cfg) (e : PulseEvent) (rest : List PulseEvent) (k prev : Nat) (acc : List Bit)
    (hedge : e.edge = expectedEdge k) (htime : prev ≤ e.t) :
    decodeFrom c (e :: rest) k prev true acc = .error (.timingViolation .trailing k) := by
  rw [decodeFrom, if_neg (Nat.not_lt.2 htime), if_neg (not_not_intro hedge), if_pos rfl]

/-- A gap outside the gap window (R135). -/
theorem decodeFrom_gap_outOfBand (c : Cfg) (e : PulseEvent) (rest : List PulseEvent) (k prev : Nat) (acc : List Bit)
    (hedge : e.edge = expectedEdge k) (htime : prev ≤ e.t) (hk : k % 2 = 1) (hdur : inWindow c e.dur .gap = false) :
    decodeFrom c (e :: rest) k prev false acc = .error (.timingViolation .outOfBand k) := by
  rw [decodeFrom, if_neg (Nat.not_lt.2 htime), if_neg (not_not_intro hedge), if_neg Bool.false_ne_true, if_pos hk, hdur,
    if_neg Bool.false_ne_true]

section
variable (c : Cfg) (e : PulseEvent) (rest : List PulseEvent) (k prev : Nat) (acc : List Bit)
  (hedge : e.edge = .rise) (htime : prev ≤ e.t) (hk : k % 2 = 0)
include hedge htime hk

/-- A pulse in no window (R135). -/
theorem decodeFrom_pulse_outOfBand (hclass : pulseClass c e.dur = []) :
    decodeFrom c (e :: rest) k prev false acc = .error (.timingViolation .outOfBand k) := by
  simp [decodeFrom, Nat.not_lt.2 htime, hedge, expectedEdge_of_even hk, hk, hclass]

/-- A pulse in two or more windows (R134). -/
theorem decodeFrom_pulse_ambiguous (hclass : 2 ≤ (pulseClass c e.dur).length) :
    decodeFrom c (e :: rest) k prev false acc = .error (.timingViolation .ambiguous k) := by
  obtain ⟨x, y, more, hmore⟩ : ∃ x y more, pulseClass c e.dur = x :: y :: more := by
    match pulseClass c e.dur, hclass with
    | x :: y :: more, _ => exact ⟨x, y, more, rfl⟩
  simp [decodeFrom, Nat.not_lt.2 htime, hedge, expectedEdge_of_even hk, hk, hmore]

/-- A pulse of one symbol that may not stand there: START after the first, another symbol at first (R135). -/
theorem decodeFrom_pulse_unexpected (x : Symbol) (hclass : pulseClass c e.dur = [x])
    (hx : if k = 0 then x ≠ .start else x = .start) :
    decodeFrom c (e :: rest) k prev false acc = .error (.timingViolation .unexpectedSymbol k) := by
  by_cases h0 : k = 0
  · rw [if_pos h0] at hx
    simp [decodeFrom, Nat.not_lt.2 htime, hedge, expectedEdge, h0, hclass, hx]
  · rw [if_neg h0] at hx
    simp [decodeFrom, Nat.not_lt.2 htime, hedge, expectedEdge_of_even hk, hk, h0, hclass, hx]

end

/-! ## The event after a valid beginning -/

theorem lastTime_le (prev t : Nat) (es : List PulseEvent) (hprev : prev ≤ t) (h : ∀ x ∈ es, x.t ≤ t) :
    lastTime prev es ≤ t := by
  induction es generalizing prev with
  | nil => exact hprev
  | cons e es ih => exact ih e.t (h e (by simp)) (fun x hx => h x (by simp [hx]))

/-- Where times do not decrease, the last one is the greatest. -/
theorem le_lastTime (prev : Nat) (es : List PulseEvent) (hp : es.Pairwise (fun a b => a.t ≤ b.t)) :
    ∀ x ∈ es, x.t ≤ lastTime prev es := by
  rcases es.eq_nil_or_concat with rfl | ⟨init, last, rfl⟩
  · simp
  · intro x hx
    rw [List.concat_eq_append] at hp hx ⊢
    rw [lastTime_append]
    rcases List.mem_append.1 hx with hx | hx
    · exact (List.pairwise_append.1 hp).2.2 x hx last (by simp)
    · cases List.mem_singleton.1 hx; exact Nat.le_refl _

/-- An event that comes in time after a beginning comes after its last event. -/
theorem lastTime_le_of_pairwise (good : List PulseEvent) (e : PulseEvent)
    (hp : (good ++ [e]).Pairwise (fun a b => a.t ≤ b.t)) : lastTime 0 good ≤ e.t :=
  lastTime_le 0 e.t good (Nat.zero_le _) (fun x hx => (List.pairwise_append.1 hp).2.2 x hx e (by simp))

/-- A beginning of a train, each event a symbol's alone and the stop marker not reached, brings the decoder to the event
after it. -/
theorem gocDecode_beginning (c : Cfg) (bits : List Bit) (good rest : List PulseEvent)
    (hf : List.Forall₂ (AloneIn c) ((trainSymbols bits).take good.length) good)
    (hlen : good.length < (trainSymbols bits).length) (hp : good.Pairwise (fun a b => a.t ≤ b.t)) :
    ∃ acc, gocDecode c (good ++ rest) = decodeFrom c rest good.length (lastTime 0 good) false acc := by
  rw [trainSymbols_length] at hlen
  have hplaces : ∀ j x, ((trainSymbols bits).take good.length)[j]? = some x → placeOk (0 + j) x := by
    intro j x hx
    rw [List.getElem?_take, Option.ite_none_right_eq_some] at hx
    rw [Nat.zero_add]
    exact placeOk_trainSymbols bits j x (by omega) hx.2
  have h := decodeFrom_good_alone c good rest _ 0 0 [] hf hplaces hp (by simp)
  rw [Nat.zero_add] at h
  exact ⟨_, h⟩

/-- In a well-formed configuration the pulse windows are apart (R9 clause (b)). -/
theorem windowsDisjoint_of_wf {c : Cfg} (h : c.wf = true) : c.windowsDisjoint = true := by
  simp only [Cfg.wf, Bool.and_eq_true] at h
  exact h.2

/-- The first `n` events of an encoded train bring the decoder to the event after them, done only when they are all. -/
theorem gocDecode_trainOf_take (c : Cfg) (hw : c.windowsDisjoint = true) (bits : List Bit) (n : Nat)
    (hn : n ≤ 2 * bits.length + 3) (rest : List PulseEvent) :
    ∃ acc, gocDecode c ((trainOf c bits).take n ++ rest)
      = decodeFrom c rest n (lastTime 0 ((trainOf c bits).take n)) (decide (n = 2 * bits.length + 3)) acc := by
  by_cases hall : n = 2 * bits.length + 3
  · rw [List.take_of_length_le (by simp [hall]), decide_eq_true hall, hall]
    exact ⟨bits, decodeFrom_train c hw bits _ rest (trainOf_fits c bits) (trainOf_pairwise c bits)⟩
  · have hlen : ((trainOf c bits).take n).length = n := by simp; omega
    have hfits := (List.forall₂_take n (trainOf_fits c bits)).imp (fun _ _ h => h.alone hw)
    rw [decide_eq_false hall]
    have := gocDecode_beginning c bits ((trainOf c bits).take n) rest (by rwa [hlen]) (by simp; omega)
      ((trainOf_pairwise c bits).sublist (List.take_sublist _ _))
    rwa [hlen] at this

/-! ## Round trip, tolerance and rejections -/

/-- A valid train decodes to its bits. -/
theorem gocDecode_train (c : Cfg) (hw : c.windowsDisjoint = true) (bits : List Bit) (events : List PulseEvent)
    (hf : List.Forall₂ (Fits c) (trainSymbols bits) events) (hp : events.Pairwise (fun a b => a.t ≤ b.t)) :
    gocDecode c events = .ok bits := by
  have h := decodeFrom_train c hw bits events [] hf hp
  rw [List.append_nil] at h
  exact h

/-- The durations of an encoded train have a wire form (R9 clause (a)). -/
theorem dur_lt_of_mem_trainOf (c : Cfg) (hd : c.durationsOk = true) (bits : List Bit) :
    ∀ e ∈ trainOf c bits, e.dur < 2 ^ 24 := by
  intro e he
  obtain ⟨k, hk⟩ := List.mem_iff_getElem?.1 he
  obtain ⟨x, -, -, hdur⟩ := trainOf_getElem? c bits k e hk
  simp only [Cfg.durationsOk, durationOk, Bool.and_eq_true, decide_eq_true_eq] at hd
  obtain ⟨⟨⟨⟨hshort, hlong⟩, hgap⟩, hstart⟩, hstop⟩ := hd
  rw [hdur]
  cases x with
  | short => exact hshort.1.1
  | long => exact hlong.1.1
  | gap => exact hgap.1.1
  | start => exact hstart.1.1
  | stop => exact hstop.1.1

/-- Deserialising the words of events timed back to back from 0 gives the events (R140). -/
theorem deserFrom_words_timed (l : List (Edge × Nat)) (h : ∀ e ∈ timed 0 l, e.dur < 2 ^ 24) :
    deserFrom 0 ((timed 0 l).flatMap (fun e => pulseWordBytes e.edge e.dur)) = some (timed 0 l) := by
  have hwords := deserFrom_words 0 ((timed 0 l).map (fun e => (e.edge, e.dur))) (by simpa using h)
  rwa [List.flatMap_map, timed_map 0 _ l rfl] at hwords

/-- Settles O8: the encoded train is a valid one, and its words are timed back to back. -/
theorem gocRoundTrip : Obligations.GocRoundTrip := by
  intro bits s hwf hle
  have hw := windowsDisjoint_of_wf hwf
  have hdurs : ∀ e ∈ trainOf s.cfg bits, e.dur < 2 ^ 24 := by
    simp only [Cfg.wf, Cfg.wfButWindows, Bool.and_eq_true] at hwf
    obtain ⟨⟨⟨⟨⟨hd, -⟩, -⟩, -⟩, -⟩, -⟩ := hwf
    exact dur_lt_of_mem_trainOf s.cfg hd bits
  refine ⟨trainOf s.cfg bits, _, exec_gocEncode_of_le bits s hle,
    exec_gocDecode_of_ok (gocDecode_train s.cfg hw bits _ (trainOf_fits s.cfg bits) (trainOf_pairwise s.cfg bits)),
    exec_gocSer_of_lt _ s hdurs, ?_⟩
  rw [exec_gocDeser, trainOf, deserFrom_words_timed _ hdurs]
  rfl

/-- Settles O9: a valid train decodes, and after a valid beginning a duration in no window is OUT_OF_BAND. -/
theorem gocTolerance : Obligations.GocTolerance := by
  intro bits s hwf
  have hw := windowsDisjoint_of_wf hwf
  refine ⟨fun events hf hp => exec_gocDecode_of_ok (gocDecode_train s.cfg hw bits events hf hp), ?_⟩
  intro good rest e hf hlen hp hedge hdur
  obtain ⟨acc, hacc⟩ := gocDecode_beginning s.cfg bits good (e :: rest) (hf.imp (fun _ _ h => Fits.alone hw h)) hlen
    (List.pairwise_append.1 hp).1
  have htime := lastTime_le_of_pairwise good e hp
  refine exec_gocDecode_of_error (hacc.trans ?_)
  split at hdur
  · next hodd => exact decodeFrom_gap_outOfBand s.cfg e rest _ _ acc hedge htime hodd hdur
  · next hodd =>
    have heven : good.length % 2 = 0 := by omega
    exact decodeFrom_pulse_outOfBand s.cfg e rest _ _ acc (hedge.trans (expectedEdge_of_even heven)) htime heven hdur

/-- The decoder answers every sequence of events, with bits or with an error at an index not past its end (R135). -/
theorem gocDecode_answers (events : List PulseEvent) (s : State) :
    (∃ bits, exec (.gocDecode events) s = .next (s.pushRet [.bits bits]))
      ∨ ∃ kind k, k ≤ events.length
          ∧ exec (.gocDecode events) s = .next (s.pushRet [.err (.timingViolation kind k)]) := by
  rcases decodeFrom_answers s.cfg events 0 0 false [] with ⟨bits, h⟩ | ⟨kind, k, -, hk, h⟩
  · exact .inl ⟨bits, exec_gocDecode_of_ok h⟩
  · exact .inr ⟨kind, k, by omega, exec_gocDecode_of_error h⟩

section
variable (c : Cfg) (hw : c.windowsDisjoint = true) (bits : List Bit)
include hw

/-- A train cut before its end (R135). -/
theorem gocDecode_cut (n : Nat) (hn : n < 2 * bits.length + 3) :
    gocDecode c ((trainOf c bits).take n) = .error (.timingViolation .truncated n) := by
  obtain ⟨acc, hacc⟩ := gocDecode_trainOf_take c hw bits n (by omega) []
  rw [List.append_nil, decide_eq_false (by omega)] at hacc
  exact hacc

/-- An event in time after the stop marker (R135). -/
theorem gocDecode_trailing (e : PulseEvent) (rest : List PulseEvent) (hedge : e.edge = .fall)
    (htimes : ∀ x ∈ trainOf c bits, x.t ≤ e.t) :
    gocDecode c (trainOf c bits ++ e :: rest) = .error (.timingViolation .trailing (2 * bits.length + 3)) := by
  have htrain := decodeFrom_train c hw bits _ (e :: rest) (trainOf_fits c bits) (trainOf_pairwise c bits)
  have hexpected : e.edge = expectedEdge (2 * bits.length + 3) := hedge.trans (expectedEdge_of_odd (by omega)).symm
  exact htrain.trans (decodeFrom_trailing c e rest _ _ bits hexpected (lastTime_le 0 e.t _ (Nat.zero_le _) htimes))

/-- An event with the wrong edge or an earlier time, at any place up to the one after the stop marker (R135). -/
theorem gocDecode_malformed (n : Nat) (e : PulseEvent) (rest : List PulseEvent) (hn : n ≤ 2 * bits.length + 3)
    (hbad : e.edge ≠ expectedEdge n ∨ ∃ x ∈ (trainOf c bits).take n, e.t < x.t) :
    gocDecode c ((trainOf c bits).take n ++ e :: rest) = .error (.timingViolation .malformed n) := by
  obtain ⟨acc, hacc⟩ := gocDecode_trainOf_take c hw bits n hn (e :: rest)
  refine hacc.trans (decodeFrom_malformed c e rest n _ _ acc (hbad.imp_right ?_))
  rintro ⟨x, hx, hlate⟩
  have hsorted := (trainOf_pairwise c bits).sublist (List.take_sublist n _)
  exact Nat.lt_of_lt_of_le hlate (le_lastTime 0 _ hsorted x hx)

end

/-- Settles O10: after a beginning that the decoder accepts, each clause is the rejection of one event or of the end. -/
theorem gocDecodeRejections : Obligations.GocDecodeRejections := by
  refine ⟨gocDecode_answers, fun bits s hwf => ?_, fun bits good rest e s hf hlen heven hp hedge => ?_⟩
  · have hw := windowsDisjoint_of_wf hwf
    exact ⟨rfl, fun n hn => exec_gocDecode_of_error (gocDecode_cut s.cfg hw bits n hn),
      fun e rest hedge htimes => exec_gocDecode_of_error (gocDecode_trailing s.cfg hw bits e rest hedge htimes),
      fun n e rest hn hbad => exec_gocDecode_of_error (gocDecode_malformed s.cfg hw bits n e rest hn hbad)⟩
  · obtain ⟨acc, hacc⟩ := gocDecode_beginning s.cfg bits good (e :: rest) hf hlen (List.pairwise_append.1 hp).1
    have htime := lastTime_le_of_pairwise good e hp
    exact ⟨fun hclass => exec_gocDecode_of_error
        (hacc.trans (decodeFrom_pulse_ambiguous s.cfg e rest _ _ acc hedge htime heven hclass)),
      fun x hclass hx => exec_gocDecode_of_error
        (hacc.trans (decodeFrom_pulse_unexpected s.cfg e rest _ _ acc hedge htime heven x hclass hx))⟩

end Sys2Proof.Machine
end

section
/-! PROOFS. The EIN framer (spec 41_ein_framer.md R152, R155, R160, R161). The idea: a body cut into head and checksum
parses by the one comparison of the checksum, and a flip of a covered byte but the length gives a head of the same length
with another sum. -/

namespace Sys2Proof.Machine

/-! ## What each operation replies, by the framer's outcome -/

theorem exec_einBuild_of_le (dest opcode : Byte) (payload : Bytes) (s : State)
    (h : payload.length ≤ s.cfg.einMaxPayload) :
    exec (.einBuild dest opcode payload) s
      = .next (s.pushRet [.bytes (einHead dest opcode payload ++ einCk s.cfg (einHead dest opcode payload))]) := by
  change answer ((einBuild s.cfg dest opcode payload).map .bytes) s = _
  rw [einBuild, if_neg (Nat.not_lt.2 h)]
  rfl

theorem exec_einBuild_of_gt (dest opcode : Byte) (payload : Bytes) (s : State)
    (h : s.cfg.einMaxPayload < payload.length) :
    exec (.einBuild dest opcode payload) s = .refused .einPayloadTooLong := by
  change answer ((einBuild s.cfg dest opcode payload).map .bytes) s = _
  rw [einBuild, if_pos h]
  rfl

theorem exec_einParse_of_ok {body : Bytes} {s : State} {f : EinFrame} (h : einParse s.cfg body = .ok f) :
    exec (.einParse body) s = .next (s.pushRet [.einFrame f]) := by
  change answerErr ((einParse s.cfg body).map .einFrame) s = _
  rw [h]
  rfl

theorem exec_einParse_of_error {body : Bytes} {s : State} {e : Err} (h : einParse s.cfg body = .error e) :
    exec (.einParse body) s = .next (s.pushRet [.err e]) := by
  change answerErr ((einParse s.cfg body).map .einFrame) s = _
  rw [h]
  rfl

/-- RET only grows at its end, so the results of a step can be read back from the state after it. -/
theorem State.pushRet_injective (s : State) : Function.Injective s.pushRet := fun _ _ h =>
  List.append_cancel_left (congrArg State.ret h)

theorem next_pushRet_inj {s : State} {r r' : Result}
    (h : (.next (s.pushRet [r]) : Out) = .next (s.pushRet [r'])) : r = r' := by
  injection h with hs
  exact List.singleton_inj.1 (s.pushRet_injective hs)

theorem einParse_of_exec {body : Bytes} {s : State} {f : EinFrame}
    (h : exec (.einParse body) s = .next (s.pushRet [.einFrame f])) : einParse s.cfg body = .ok f := by
  cases hp : einParse s.cfg body with
  | ok g => rw [Result.einFrame.inj (next_pushRet_inj ((exec_einParse_of_ok hp).symm.trans h))]
  | error e => cases next_pushRet_inj ((exec_einParse_of_error hp).symm.trans h)

/-! ## A body whose length byte is right -/

/-- With the length byte EIN_BUILD writes, only the checksum is left to compare (R155). -/
theorem einParse_head (c : Cfg) (dest opcode : Byte) (payload ck : Bytes) (hlen : payload.length ≤ 255)
    (hck : ck.length = c.einCkLen) :
    einParse c (einHead dest opcode payload ++ ck)
      = if einCk c (einHead dest opcode payload) ≠ ck then .error (.frameChecksum .ein)
        else .ok ⟨dest, opcode, payload, ck⟩ := by
  have hbyte : (BitVec.ofNat 8 payload.length).toNat = payload.length := by
    rw [toNat_ofNat8, Nat.mod_eq_of_lt (by omega)]
  exact (einParse_split c dest opcode _ payload ck hck).trans (if_neg (not_not.2 hbyte))

/-! ## The sum and a changed byte -/

theorem foldl_add_eq_add_sumBytes (bs : Bytes) (a : Byte) : bs.foldl (fun a b => a + b) a = a + sumBytes bs := by
  rw [sumBytes, ← List.foldl_assoc (op := fun a b : Byte => a + b), add_zero]

theorem sumBytes_append_cons (l r : Bytes) (b : Byte) : sumBytes (l ++ b :: r) = sumBytes l + b + sumBytes r := by
  rw [sumBytes, List.foldl_append, List.foldl_cons, foldl_add_eq_add_sumBytes]
  rfl

/-- The carry out of bit 7 is discarded (R162), and still no change of one byte goes unseen. -/
theorem sumBytes_set_ne {bs : Bytes} {j : Nat} {b x : Byte} (hb : bs[j]? = some b) (hx : x ≠ b) :
    sumBytes (bs.set j x) ≠ sumBytes bs := by
  obtain ⟨hj, rfl⟩ := List.getElem?_eq_some_iff.1 hb
  have hsplit : bs = bs.take j ++ bs[j] :: bs.drop (j + 1) := by simp
  rw [List.set_eq_take_append_cons_drop, if_pos hj, sumBytes_append_cons]
  conv_rhs => rw [hsplit, sumBytes_append_cons]
  simpa using hx

theorem flipBit_ne (b : Byte) {k : Nat} (hk : k < 8) : b ^^^ BitVec.ofNat 8 (2 ^ k) ≠ b := fun h => by
  have hzero : BitVec.ofNat 8 (2 ^ k) = 0 := xor_left_eq_self_iff.1 h
  have hpow : 2 ^ k % 256 = 0 := (toNat_ofNat8 _).symm.trans (congrArg BitVec.toNat hzero)
  rw [Nat.mod_eq_of_lt (Nat.pow_lt_pow_right (n := 8) (by omega) hk)] at hpow
  exact absurd hpow (Nat.two_pow_pos k).ne'

theorem einCk_sum8 (c : Cfg) (halg : c.einCkAlg = .sum8) (hlen : c.einCkLen = 1) (bs : Bytes) :
    einCk c bs = [sumBytes bs] := by
  rw [einCk, halg, hlen]
  exact fitBytes_of_length 1 _ rfl

/-- A write to a covered byte but the length gives the head of a payload of the same length. -/
theorem einHead_set (dest opcode : Byte) (payload : Bytes) {j : Nat} (hj : j ≠ 2) (x : Byte) :
    ∃ dest' opcode' payload', payload'.length = payload.length
      ∧ (einHead dest opcode payload).set j x = einHead dest' opcode' payload' := by
  match j, hj with
  | 0, _ => exact ⟨x, opcode, payload, rfl, rfl⟩
  | 1, _ => exact ⟨dest, x, payload, rfl, rfl⟩
  | i + 3, _ => exact ⟨dest, opcode, payload.set i x, List.length_set, by simp [einHead]⟩

/-- A built body with one covered byte but the length changed fails at the checksum. -/
theorem einParse_set (c : Cfg) (halg : c.einCkAlg = .sum8) (hlen : c.einCkLen = 1) (dest opcode : Byte)
    (payload : Bytes) (hp : payload.length ≤ 255) {j : Nat} (hj : j ≠ 2) {b x : Byte}
    (hb : (einHead dest opcode payload)[j]? = some b) (hx : x ≠ b) :
    einParse c ((einHead dest opcode payload).set j x ++ einCk c (einHead dest opcode payload))
      = .error (.frameChecksum .ein) := by
  have hsum := sumBytes_set_ne hb hx
  obtain ⟨dest', opcode', payload', hsame, hset⟩ := einHead_set dest opcode payload hj x
  rw [hset] at hsum ⊢
  rw [einParse_head c dest' opcode' payload' _ (hsame ▸ hp) (einCk_length c _), einCk_sum8 c halg hlen,
    einCk_sum8 c halg hlen, if_pos (by simpa using hsum)]

/-! ## The obligations -/

/-- Settles O14: the checks in their order on a body that is too short, and on one cut into its fields. -/
theorem einParseVerdict : Obligations.EinParseVerdict := by
  refine fun body s => ⟨fun hshort => exec_einParse_of_error (einParse_short s.cfg body hshort), ?_⟩
  rintro dest opcode len payload ck hck rfl
  have hverdict := einParse_split s.cfg dest opcode len payload ck hck
  refine ⟨fun hlen => ?_, fun hlen hsum => ?_, fun hlen hsum => ?_⟩
  · exact exec_einParse_of_error (hverdict.trans (if_pos hlen))
  · exact exec_einParse_of_error (hverdict.trans ((if_neg (not_not.2 hlen)).trans (if_pos hsum)))
  · exact exec_einParse_of_ok (hverdict.trans ((if_neg (not_not.2 hlen)).trans (if_neg (not_not.2 hsum))))

/-- Settles O15: a built body is head and checksum, and a body that parses is made of nothing else. -/
theorem einRoundTrip : Obligations.EinRoundTrip := by
  refine ⟨fun f s hsizes hmax hck => ?_, fun body f s hparse hmax => ?_⟩
  · have h255 : s.cfg.einMaxPayload ≤ 255 := by
      simp only [Cfg.sizesOk, Bool.and_eq_true, decide_eq_true_eq] at hsizes
      omega
    have hsum : einCk s.cfg (einHead f.dest f.opcode f.payload) = f.checksum := hck.symm
    refine ⟨_, exec_einBuild_of_le f.dest f.opcode f.payload s hmax, exec_einParse_of_ok ?_⟩
    rw [einParse_head s.cfg f.dest f.opcode f.payload _ (hmax.trans h255) (einCk_length s.cfg _),
      if_neg (not_not.2 rfl), hsum]
  · obtain ⟨hbody, hck, h255⟩ := einParse_ok s.cfg body f (einParse_of_exec hparse)
    rw [hbody, hck]
    exact exec_einBuild_of_le f.dest f.opcode f.payload s (by omega)

/-- Settles O16: the flipped byte changes the sum, and the checksum of the body is still the sum before. -/
theorem einSumRejectsBitFlips : Obligations.EinSumRejectsBitFlips := by
  intro dest opcode payload j k b body s halg hlen hp hmax hbuild hj hj2 hk hb
  obtain rfl : einHead dest opcode payload ++ einCk s.cfg (einHead dest opcode payload) = body :=
    Result.bytes.inj (next_pushRet_inj ((exec_einBuild_of_le dest opcode payload s hmax).symm.trans hbuild))
  have hcovered : j < (einHead dest opcode payload).length := by simp only [einHead, List.length_cons]; omega
  rw [List.getElem?_append_left hcovered] at hb
  rw [List.set_append_left _ _ hcovered]
  exact exec_einParse_of_error (einParse_set s.cfg halg hlen dest opcode payload hp hj2 hb (flipBit_ne b hk))

/-- Settles O13: the two sides of the bound on the payload. -/
theorem einBuildFrame : Obligations.EinBuildFrame := fun dest opcode payload s =>
  ⟨exec_einBuild_of_le dest opcode payload s, exec_einBuild_of_gt dest opcode payload s⟩

end Sys2Proof.Machine
end

section
/-! PROOFS. The MBus framer and fragmentation (spec 42_mbus_framer.md R174, R176, R180, R193). The idea: a built body is cut
into its fields by definition, so parsing it is the one verdict on a body cut into fields; and the fragments are numbered by
their places, whether the payload is cut or not. -/

namespace Sys2Proof.Machine

/-! ## What each operation replies, by the framer's outcome -/

theorem exec_mbusBuild_of_le (src dst mid idx cnt : Byte) (chunk : Bytes) (s : State) (h : chunk.length ≤ 255) :
    exec (.mbusBuild src dst mid idx cnt chunk) s
      = .next (s.pushRet [.bytes (mbusHead (messageOf src dst mid idx cnt chunk)
          ++ mbusCrc s.cfg (mbusHead (messageOf src dst mid idx cnt chunk)))]) := by
  change answer ((mbusBuild s.cfg (messageOf src dst mid idx cnt chunk)).map .bytes) s = _
  rw [mbusBuild_ok s.cfg (messageOf src dst mid idx cnt chunk) h]
  rfl

theorem exec_mbusBuild_of_gt (src dst mid idx cnt : Byte) (chunk : Bytes) (s : State) (h : 255 < chunk.length) :
    exec (.mbusBuild src dst mid idx cnt chunk) s = .refused .mbusChunkTooLong := by
  have hlen : 255 < (messageOf src dst mid idx cnt chunk).chunk.length := h
  change answer ((mbusBuild s.cfg (messageOf src dst mid idx cnt chunk)).map .bytes) s = _
  rw [mbusBuild, if_pos hlen]
  rfl

theorem exec_mbusParse_of_ok {body : Bytes} {s : State} {m : MBusMessage} (h : mbusParse s.cfg body = .ok m) :
    exec (.mbusParse body) s = .next (s.pushRet [.mbusMessage m]) := by
  change answerErr ((mbusParse s.cfg body).map .mbusMessage) s = _
  rw [h]
  rfl

theorem exec_mbusParse_of_error {body : Bytes} {s : State} {e : Err} (h : mbusParse s.cfg body = .error e) :
    exec (.mbusParse body) s = .next (s.pushRet [.err e]) := by
  change answerErr ((mbusParse s.cfg body).map .mbusMessage) s = _
  rw [h]
  rfl

theorem exec_mbusFragment_of_ok {src dst mid : Byte} {payload : Bytes} {s : State} {ms : List MBusMessage}
    (h : mbusFragment s.cfg src dst mid payload = .ok ms) :
    exec (.mbusFragment src dst mid payload) s = .next (s.pushRet [.fragments ms]) := by
  change answer ((mbusFragment s.cfg src dst mid payload).map .fragments) s = _
  rw [h]
  rfl

theorem exec_mbusFragment_of_error {src dst mid : Byte} {payload : Bytes} {s : State} {st : Stop}
    (h : mbusFragment s.cfg src dst mid payload = .error st) :
    exec (.mbusFragment src dst mid payload) s = stopWith st s := by
  change answer ((mbusFragment s.cfg src dst mid payload).map .fragments) s = _
  rw [h]
  rfl

theorem mbusFragment_of_exec {src dst mid : Byte} {payload : Bytes} {s : State} {ms : List MBusMessage}
    (h : exec (.mbusFragment src dst mid payload) s = .next (s.pushRet [.fragments ms])) :
    mbusFragment s.cfg src dst mid payload = .ok ms := by
  cases hf : mbusFragment s.cfg src dst mid payload with
  | ok l => rw [Result.fragments.inj (next_pushRet_inj ((exec_mbusFragment_of_ok hf).symm.trans h))]
  | error st =>
    have hstop := (exec_mbusFragment_of_error hf).symm.trans h
    cases st with
    | raised e => cases next_pushRet_inj hstop
    | outside r => cases hstop

/-! ## The outcomes of fragmenting, and how the fragments are numbered -/

/-- The fragments of a payload of `ceil(n / mc)` chunks, in index order (R180). -/
def fragmentsOf (src dst mid : Byte) (payload : Bytes) (mc : Nat) : List MBusMessage :=
  (List.range (fragmentCount payload.length mc)).map
    (fragmentAt src dst mid payload mc (fragmentCount payload.length mc))

@[simp] theorem fragmentsOf_length (src dst mid : Byte) (payload : Bytes) (mc : Nat) :
    (fragmentsOf src dst mid payload mc).length = fragmentCount payload.length mc := by
  rw [fragmentsOf, List.length_map, List.length_range]

section
variable (c : Cfg) (src dst mid : Byte) (payload : Bytes)

theorem mbusFragment_of_fits (h : payload.length ≤ c.mbusMaxChunk) :
    mbusFragment c src dst mid payload = .ok [messageOf src dst mid 0 1 payload] := by
  rw [mbusFragment, if_pos h]

theorem mbusFragment_of_broadcast (h : c.mbusMaxChunk < payload.length) (hdst : dst = c.mbusBcast) :
    mbusFragment c src dst mid payload = .error (.raised (.broadcastTooLarge payload.length c.mbusMaxChunk)) := by
  rw [mbusFragment, if_neg (Nat.not_le.2 h), if_pos hdst]

theorem mbusFragment_of_tooMany (h : c.mbusMaxChunk < payload.length) (hdst : dst ≠ c.mbusBcast)
    (hmany : c.mbusMaxFrags < fragmentCount payload.length c.mbusMaxChunk) :
    mbusFragment c src dst mid payload = .error (.outside .tooManyFragments) := by
  rw [mbusFragment, if_neg (Nat.not_le.2 h), if_neg hdst, if_pos hmany]

theorem mbusFragment_of_several (h : c.mbusMaxChunk < payload.length) (hdst : dst ≠ c.mbusBcast)
    (hfew : fragmentCount payload.length c.mbusMaxChunk ≤ c.mbusMaxFrags) :
    mbusFragment c src dst mid payload = .ok (fragmentsOf src dst mid payload c.mbusMaxChunk) := by
  rw [mbusFragment, if_neg (Nat.not_le.2 h), if_neg hdst, if_neg (Nat.not_lt.2 hfew), fragmentsOf]

end

/-- What the fragments of a payload have in common, cut or not (R180): one key, the count that of the list, each index its
place, and chunks that join to the payload. -/
structure NumberedParts (key : Key) (payload : Bytes) (ms : List MBusMessage) : Prop where
  nonempty : ms ≠ []
  key_eq : ∀ m ∈ ms, m.key = key
  count_eq : ∀ m ∈ ms, m.fragCount.toNat = ms.length
  indices : ms.map (fun m => m.fragIndex.toNat) = List.range ms.length
  joined : ms.flatMap (fun m => m.chunk) = payload

theorem numberedParts_single (src dst mid : Byte) (payload : Bytes) :
    NumberedParts ⟨src, dst, mid⟩ payload [messageOf src dst mid 0 1 payload] where
  nonempty := List.cons_ne_nil _ _
  key_eq := by simp [messageOf, MBusMessage.key]
  count_eq := by simp [messageOf]
  indices := rfl
  joined := List.append_nil payload

/-- The numbers of up to 255 fragments fit their bytes (R9 clause (d)). -/
theorem numberedParts_fragmentsOf (src dst mid : Byte) (payload : Bytes) (mc : Nat) (hmc : 1 ≤ mc)
    (hpayload : 1 ≤ payload.length) (hcount : fragmentCount payload.length mc ≤ 255) :
    NumberedParts ⟨src, dst, mid⟩ payload (fragmentsOf src dst mid payload mc) := by
  obtain ⟨-, hcover, hpos⟩ := fragmentCount_bounds payload.length mc hmc hpayload
  have hbyte : ∀ k ≤ fragmentCount payload.length mc, (BitVec.ofNat 8 k).toNat = k := fun k hk => by
    rw [toNat_ofNat8, Nat.mod_eq_of_lt (by omega)]
  refine ⟨List.ne_nil_of_length_pos (by rw [fragmentsOf_length]; exact hpos), ?_, ?_, ?_, ?_⟩
  · intro m hm
    obtain ⟨k, -, rfl⟩ := List.mem_map.1 hm
    rfl
  · intro m hm
    rw [fragmentsOf_length]
    obtain ⟨k, -, rfl⟩ := List.mem_map.1 hm
    exact hbyte _ (Nat.le_refl _)
  · rw [fragmentsOf_length, fragmentsOf, List.map_map]
    conv_rhs => rw [← List.map_id (List.range _)]
    exact List.map_congr_left (fun k hk => hbyte k (List.mem_range.1 hk).le)
  · rw [fragmentsOf, List.flatMap_map]
    exact (chunks_join payload mc _).trans (List.take_of_length_le hcover)

theorem NumberedParts.fragIndex_eq {key : Key} {payload : Bytes} {ms : List MBusMessage}
    (h : NumberedParts key payload ms) {k : Nat} {m : MBusMessage} (hk : ms[k]? = some m) : m.fragIndex.toNat = k := by
  have hlt : k < ms.length := (List.getElem?_eq_some_iff.1 hk).1
  have hat : (ms.map (fun m => m.fragIndex.toNat))[k]? = some k := by rw [h.indices, List.getElem?_range hlt]
  rw [List.getElem?_map, hk] at hat
  exact Option.some.inj hat

theorem mbusBounds_of_sizesOk {c : Cfg} (h : c.sizesOk = true) :
    1 ≤ c.mbusMaxChunk ∧ 1 ≤ c.mbusMaxFrags ∧ c.mbusMaxFrags ≤ 255 := by
  simp only [Cfg.sizesOk, Bool.and_eq_true, decide_eq_true_eq] at h
  omega

/-- Whatever MBUS_FRAGMENT returns is numbered in one way (R180). -/
theorem numberedParts_of_mbusFragment {c : Cfg} (hsizes : c.sizesOk = true) {src dst mid : Byte} {payload : Bytes}
    {ms : List MBusMessage} (h : mbusFragment c src dst mid payload = .ok ms) :
    NumberedParts ⟨src, dst, mid⟩ payload ms := by
  obtain ⟨hmc, -, hmax⟩ := mbusBounds_of_sizesOk hsizes
  by_cases hfits : payload.length ≤ c.mbusMaxChunk
  · cases (mbusFragment_of_fits c src dst mid payload hfits).symm.trans h
    exact numberedParts_single src dst mid payload
  rw [Nat.not_le] at hfits
  by_cases hdst : dst = c.mbusBcast
  · cases (mbusFragment_of_broadcast c src dst mid payload hfits hdst).symm.trans h
  by_cases hmany : c.mbusMaxFrags < fragmentCount payload.length c.mbusMaxChunk
  · cases (mbusFragment_of_tooMany c src dst mid payload hfits hdst hmany).symm.trans h
  cases (mbusFragment_of_several c src dst mid payload hfits hdst (Nat.not_lt.1 hmany)).symm.trans h
  exact numberedParts_fragmentsOf src dst mid payload c.mbusMaxChunk hmc (by omega) (by omega)

/-- Each fragment but the last is full, and the last is not empty (R180). -/
theorem fragmentsOf_chunk_length {src dst mid : Byte} {payload : Bytes} {mc : Nat} (hmc : 1 ≤ mc)
    (hlast : (fragmentCount payload.length mc - 1) * mc < payload.length) {k : Nat} {m : MBusMessage}
    (hk : (fragmentsOf src dst mid payload mc)[k]? = some m) :
    (k + 1 < fragmentCount payload.length mc → m.chunk.length = mc) ∧ 1 ≤ m.chunk.length ∧ m.chunk.length ≤ mc := by
  obtain ⟨hlt, rfl⟩ := fragments_getElem? _ _ _ _ _ _ _ _ hk
  have hlen : (fragmentAt src dst mid payload mc (fragmentCount payload.length mc) k).chunk.length
      = min mc (payload.length - k * mc) := by
    simp [fragmentAt, messageOf]
  have hstart : k * mc < payload.length := Nat.lt_of_le_of_lt (Nat.mul_le_mul_right mc (by omega)) hlast
  rw [hlen]
  refine ⟨fun hnext => ?_, by omega, by omega⟩
  have hend : (k + 1) * mc < payload.length := Nat.lt_of_le_of_lt (Nat.mul_le_mul_right mc (by omega)) hlast
  rw [Nat.succ_mul] at hend
  omega

/-! ## The obligations -/

/-- Settles O18: the checks in their order on a body that is too short, and on one cut into its fields. -/
theorem mbusParseVerdict : Obligations.MbusParseVerdict := by
  refine fun body s => ⟨fun hshort => exec_mbusParse_of_error (mbusParse_short s.cfg body hshort), ?_⟩
  rintro src dst mid idx cnt len chunk crc hcrc rfl
  have hverdict := mbusParse_split s.cfg src dst mid idx cnt len chunk crc hcrc
  refine ⟨fun hlen => ?_, fun hlen hsum => ?_, fun hlen hsum => ?_⟩
  · exact exec_mbusParse_of_error (hverdict.trans (if_pos hlen))
  · exact exec_mbusParse_of_error (hverdict.trans ((if_neg (not_not.2 hlen)).trans (if_pos hsum)))
  · exact exec_mbusParse_of_ok (hverdict.trans ((if_neg (not_not.2 hlen)).trans (if_neg (not_not.2 hsum))))

/-- Settles O19: the outcomes of MBUS_FRAGMENT, and `ceil(n / mc)` is at most `f` exactly when `n` bytes fit `f` fragments. -/
theorem mbusFragmentShape : Obligations.MbusFragmentShape := by
  intro src dst mid payload s hsizes
  obtain ⟨hmc, hfrags, -⟩ := mbusBounds_of_sizesOk hsizes
  have hmany := lt_fragmentCount_iff payload.length s.cfg.mbusMaxChunk s.cfg.mbusMaxFrags hmc
  refine ⟨fun hfits => exec_mbusFragment_of_ok (mbusFragment_of_fits s.cfg src dst mid payload hfits),
    fun hlong hdst => exec_mbusFragment_of_error (mbusFragment_of_broadcast s.cfg src dst mid payload hlong hdst),
    fun hlong hdst hfew => ?_, fun hover hdst => ?_⟩
  · have hms := mbusFragment_of_several s.cfg src dst mid payload hlong hdst (by omega)
    have hparts := numberedParts_of_mbusFragment hsizes hms
    obtain ⟨hlast, hcover, -⟩ := fragmentCount_bounds payload.length s.cfg.mbusMaxChunk hmc (by omega)
    refine ⟨_, exec_mbusFragment_of_ok hms, by rwa [fragmentsOf_length], by rwa [fragmentsOf_length], hparts.joined, ?_⟩
    intro k m hk
    have hmem := List.mem_of_getElem? hk
    obtain ⟨hsrc, hdst', hmid⟩ := Key.mk.inj (hparts.key_eq m hmem)
    have hchunk := fragmentsOf_chunk_length hmc hlast hk
    rw [← fragmentsOf_length src dst mid] at hchunk
    exact ⟨hsrc, hdst', hmid, hparts.fragIndex_eq hk, hparts.count_eq m hmem, hchunk⟩
  · have hlong : s.cfg.mbusMaxChunk < payload.length := Nat.lt_of_le_of_lt (Nat.le_mul_of_pos_left _ hfrags) hover
    exact exec_mbusFragment_of_error (mbusFragment_of_tooMany s.cfg src dst mid payload hlong hdst (hmany.2 hover))

/-- Settles O21: a built body is cut into its fields, and both its checks pass. -/
theorem mbusWireRoundTrip : Obligations.MbusWireRoundTrip := by
  intro src dst mid idx cnt chunk s hlen
  have hbyte : (BitVec.ofNat 8 chunk.length).toNat = chunk.length := by
    rw [toNat_ofNat8, Nat.mod_eq_of_lt (by omega)]
  have hverdict := mbusParse_split s.cfg src dst mid idx cnt (BitVec.ofNat 8 chunk.length) chunk
    (mbusCrc s.cfg (mbusHead (messageOf src dst mid idx cnt chunk))) (mbusCrc_length s.cfg _)
  exact ⟨_, exec_mbusBuild_of_le src dst mid idx cnt chunk s hlen,
    exec_mbusParse_of_ok (hverdict.trans ((if_neg (not_not.2 hbyte)).trans (if_neg (not_not.2 rfl))))⟩

/-- Settles O17: the two sides of the bound on the chunk. -/
theorem mbusBuildMessage : Obligations.MbusBuildMessage := fun src dst mid idx cnt chunk s =>
  ⟨exec_mbusBuild_of_le src dst mid idx cnt chunk s, exec_mbusBuild_of_gt src dst mid idx cnt chunk s⟩

end Sys2Proof.Machine
end

section
/-! PROOFS. Reassembly (spec 42_mbus_framer.md R186, R187, R188, R193). The idea: the entry held for a key has as chunks, in
index order, the chunks of the messages that came, so it does not depend on the order they came in. -/

namespace Sys2Proof.Machine

/-! ## The table -/

theorem Table.lookup_eq_none_of_forall_ne {κ α : Type} (ord : κ → Nat) (k : κ) (l : List (κ × α))
    (h : ∀ e ∈ l, ord e.1 ≠ ord k) : Table.lookup ord k l = none := by
  cases hl : Table.lookup ord k l with
  | none => rfl
  | some v =>
    obtain ⟨k', hk, hmem⟩ := Table.mem_of_lookup ord k v l hl
    exact absurd hk (h _ hmem)

theorem Table.insert_perm {κ α : Type} (ord : κ → Nat) (k : κ) (v : α) (l : List (κ × α))
    (h : Table.lookup ord k l = none) : (Table.insert ord k v l).Perm ((k, v) :: l) := by
  induction l with
  | nil => exact List.Perm.refl _
  | cons e rest ih =>
    have hne : ord e.1 ≠ ord k := Table.not_mem_of_lookup_none ord k _ h e (by simp)
    have hrest : Table.lookup ord k rest = none := by simpa [Table.lookup, hne] using h
    rw [Table.insert]
    split
    · exact List.Perm.refl _
    · rw [if_neg (Ne.symm hne)]
      exact ((ih hrest).cons e).trans (List.Perm.swap _ _ _)

theorem Key.ord_eq_iff (j k : Key) : j.ord = k.ord ↔ j = k := ⟨Key.ord_inj j k, congrArg Key.ord⟩

/-! ## What MBUS_REASSEMBLE answers, by the entry the message gives -/

theorem badNumbering_eq_true_iff (c : Cfg) (m : MBusMessage) :
    badNumbering c m = true
      ↔ m.fragCount = 0 ∨ m.fragCount.toNat ≤ m.fragIndex.toNat ∨ (m.dst = c.mbusBcast ∧ m.fragCount ≠ 1) := by
  simp only [badNumbering, Bool.or_eq_true, Bool.and_eq_true, decide_eq_true_eq, or_assoc]

/-- A held entry ignores another count and an index it has (R187, R188). -/
theorem entryWith_held_eq_none (c : Cfg) (now : Nat) (m : MBusMessage) (e : ReasmEntry)
    (h : e.count ≠ m.fragCount.toNat ∨ (Table.lookup id m.fragIndex.toNat e.chunks).isSome = true) :
    entryWith c now m (some e) = none := by
  rw [entryWith]
  split
  · rfl
  · next hcount => rw [if_pos (h.resolve_left hcount)]

/-- The entry with the message's chunk added; its count and deadline do not move (R186). -/
def ReasmEntry.add (e : ReasmEntry) (m : MBusMessage) : ReasmEntry :=
  { e with chunks := Table.insert id m.fragIndex.toNat m.chunk e.chunks }

@[simp] theorem ReasmEntry.add_count (e : ReasmEntry) (m : MBusMessage) : (e.add m).count = e.count := rfl

@[simp] theorem ReasmEntry.add_deadline (e : ReasmEntry) (m : MBusMessage) : (e.add m).deadline = e.deadline := rfl

theorem ReasmEntry.length_add_chunks (e : ReasmEntry) (m : MBusMessage)
    (hfree : Table.lookup id m.fragIndex.toNat e.chunks = none) : (e.add m).chunks.length = e.chunks.length + 1 :=
  Table.length_insert id _ _ _ hfree

theorem ReasmEntry.lookup_add_chunks (e : ReasmEntry) (m : MBusMessage) (hwf : Table.wf id e.chunks) (j : Nat) :
    Table.lookup id j (e.add m).chunks
      = if j = m.fragIndex.toNat then some m.chunk else Table.lookup id j e.chunks :=
  Table.lookup_insert id _ _ _ _ hwf

/-- A held entry takes a chunk it does not have (R186). -/
theorem entryWith_held_eq_some (c : Cfg) (now : Nat) (m : MBusMessage) (e : ReasmEntry)
    (hcount : e.count = m.fragCount.toNat) (hfree : Table.lookup id m.fragIndex.toNat e.chunks = none) :
    entryWith c now m (some e) = some (e.add m) := by
  rw [entryWith, if_neg (not_not.2 hcount), hfree]
  rfl

section
variable {m : MBusMessage} {s : State}

theorem exec_reassemble_of_ignored
    (h : badNumbering s.cfg m = true ∨ entryWith s.cfg s.now m (Table.lookup Key.ord m.key s.reasm) = none) :
    exec (reassembleInstr m) s = .next (s.pushRet [.incomplete]) := by
  have hr : reassemble m s = (none, s) := by
    rcases reassemble_cases m s with ⟨-, hr⟩ | ⟨e, hgood, he, -⟩
    · exact hr
    · rcases h with h | h
      · cases hgood.symm.trans h
      · cases he.symm.trans h
  change reply (reasmResult (reassemble m s).1) (reassemble m s).2 = _
  rw [hr]
  rfl

variable {e : ReasmEntry} (hgood : badNumbering s.cfg m = false)
  (he : entryWith s.cfg s.now m (Table.lookup Key.ord m.key s.reasm) = some e)
include hgood he

theorem exec_reassemble_of_full (hfull : e.chunks.length = e.count) :
    exec (reassembleInstr m) s = .next ((s.setReasm (Table.erase Key.ord m.key s.reasm)).pushRet
      [.complete ⟨m.key.src, m.key.dst, m.key.msgId, joinChunks e⟩]) := by
  change reply (reasmResult (reassemble m s).1) (reassemble m s).2 = _
  rw [reassemble, if_neg (by rw [hgood]; exact Bool.false_ne_true), he]
  simp only [if_pos hfull]
  rfl

theorem exec_reassemble_of_open (hopen : e.chunks.length ≠ e.count) :
    exec (reassembleInstr m) s
      = .next ((s.setReasm (Table.insert Key.ord m.key e s.reasm)).pushRet [.incomplete]) := by
  change reply (reasmResult (reassemble m s).1) (reassemble m s).2 = _
  rw [reassemble, if_neg (by rw [hgood]; exact Bool.false_ne_true), he]
  simp only [if_neg hopen]
  rfl

end

/-- Settles O22: bad numbering is ignored whatever is held, and the held entry ignores the rest. -/
theorem reassembleIgnores : Obligations.ReassembleIgnores := by
  intro src dst mid idx cnt chunk s h
  refine exec_reassemble_of_ignored (m := messageOf src dst mid idx cnt chunk) ?_
  rcases h with hzero | hidx | hbcast | ⟨e, hheld, hignored⟩
  · exact .inl ((badNumbering_eq_true_iff _ _).2 (.inl hzero))
  · exact .inl ((badNumbering_eq_true_iff _ _).2 (.inr (.inl hidx)))
  · exact .inl ((badNumbering_eq_true_iff _ _).2 (.inr (.inr hbcast)))
  · have hkey : Table.lookup Key.ord (messageOf src dst mid idx cnt chunk).key s.reasm = some e := hheld
    rw [hkey]
    exact .inr (entryWith_held_eq_none _ _ _ e hignored)

/-! ## One fragment -/

/-- A key with an entry is no broadcast's, and its chunks are in canonical form (R33, R187). -/
theorem entryInv_of_lookup {s : State} (hs : ReasmInv s) {key : Key} {e : ReasmEntry}
    (h : Table.lookup Key.ord key s.reasm = some e) : EntryInv s.cfg (key, e) := by
  obtain ⟨k, hord, hmem⟩ := Table.mem_of_lookup _ _ _ _ h
  obtain rfl := Key.ord_inj k key hord
  exact hs.2 _ hmem

theorem joinChunks_eq_flatten (e : ReasmEntry) : joinChunks e = (e.chunks.map (fun x => x.2)).flatten := rfl

section
variable (m : MBusMessage) (s : State) (hidx : m.fragIndex.toNat < m.fragCount.toNat)
include hidx

/-- A message of one fragment whose key is free completes at once (R186). -/
theorem exec_reassemble_single (hfree : Table.lookup Key.ord m.key s.reasm = none) (hone : m.fragCount = 1) :
    exec (reassembleInstr m) s = .next (s.pushRet [.complete ⟨m.src, m.dst, m.msgId, m.chunk⟩]) := by
  have hgood := badNumbering_of s.cfg m hidx (fun _ => hone)
  have he : entryWith s.cfg s.now m (Table.lookup Key.ord m.key s.reasm)
      = some ⟨m.fragCount.toNat, [(m.fragIndex.toNat, m.chunk)], s.now + s.cfg.reasmTimeout⟩ := by rw [hfree]; rfl
  have hfull : 1 = m.fragCount.toNat := by rw [hone]; rfl
  rw [exec_reassemble_of_full hgood he hfull, Table.erase_of_lookup_none _ _ _ hfree, joinChunks_eq_flatten]
  simp only [List.map_cons, List.map_nil, List.flatten_cons, List.flatten_nil, List.append_nil]
  rfl

/-- The first of several fragments enters the table (R186). -/
theorem exec_reassemble_first (hfree : Table.lookup Key.ord m.key s.reasm = none) (hseveral : m.fragCount ≠ 1)
    (hdst : m.dst ≠ s.cfg.mbusBcast) :
    exec (reassembleInstr m) s = .next ((s.setReasm (Table.insert Key.ord m.key
      ⟨m.fragCount.toNat, [(m.fragIndex.toNat, m.chunk)], s.now + s.cfg.reasmTimeout⟩ s.reasm)).pushRet
        [.incomplete]) := by
  have hgood := badNumbering_of s.cfg m hidx (fun h => absurd h hdst)
  have hopen : 1 ≠ m.fragCount.toNat := fun h => hseveral (BitVec.eq_of_toNat_eq h.symm)
  exact exec_reassemble_of_open hgood (by rw [hfree]; rfl) hopen

variable (hs : ReasmInv s) {e : ReasmEntry} (hheld : Table.lookup Key.ord m.key s.reasm = some e)
  (hcount : e.count = m.fragCount.toNat) (hfree : Table.lookup id m.fragIndex.toNat e.chunks = none)
include hs hheld hcount hfree

/-- A further fragment that does not fill its entry (R186). -/
theorem exec_reassemble_further (hopen : e.chunks.length + 1 ≠ e.count) :
    exec (reassembleInstr m) s
      = .next ((s.setReasm (Table.insert Key.ord m.key (e.add m) s.reasm)).pushRet [.incomplete]) := by
  obtain ⟨-, -, -, -, -, -, hdst⟩ := entryInv_of_lookup hs hheld
  refine exec_reassemble_of_open (badNumbering_of s.cfg m hidx (fun h => absurd h hdst)) ?_ ?_
  · rw [hheld, entryWith_held_eq_some _ _ _ _ hcount hfree]
  · rwa [e.length_add_chunks m hfree]

/-- The fragment that fills its entry (R186). -/
theorem exec_reassemble_last (hfull : e.chunks.length + 1 = e.count) :
    exec (reassembleInstr m) s = .next ((s.setReasm (Table.erase Key.ord m.key s.reasm)).pushRet
      [.complete ⟨m.src, m.dst, m.msgId, joinChunks (e.add m)⟩]) := by
  obtain ⟨-, -, -, -, -, -, hdst⟩ := entryInv_of_lookup hs hheld
  refine exec_reassemble_of_full (badNumbering_of s.cfg m hidx (fun h => absurd h hdst)) ?_ ?_
  · rw [hheld, entryWith_held_eq_some _ _ _ _ hcount hfree]
  · rwa [e.length_add_chunks m hfree]

/-- The chunks of a filled entry are joined in index order (R75, R186). -/
theorem add_chunks_getElem? (hfull : e.chunks.length + 1 = e.count) {j : Nat} (hj : j < e.count) :
    ((e.add m).chunks.map (fun x => x.2))[j]?
      = if j = m.fragIndex.toNat then some m.chunk else Table.lookup id j e.chunks := by
  have hlen : (e.add m).chunks.length = e.count := (e.length_add_chunks m hfree).trans hfull
  obtain ⟨-, hwf, hbelow⟩ := entryWith_chunks s m (e.add m) hs hidx (by
    rw [hheld, entryWith_held_eq_some _ _ _ _ hcount hfree])
  obtain ⟨-, -, -, -, -, hwf0, -⟩ := entryInv_of_lookup hs hheld
  rw [full_getElem? _ hwf (fun y hy => by rw [hlen]; exact hbelow y hy) j (by rwa [hlen]),
    e.lookup_add_chunks m hwf0 j]

end

/-- Settles O23: the entry the message gives is full or open, and the table differs at the message's key alone. -/
theorem reassembleFragment : Obligations.ReassembleFragment := by
  intro src dst mid idx cnt chunk s hs hidx
  let m := messageOf src dst mid idx cnt chunk
  refine ⟨exec_reassemble_single m s hidx, fun hfree hseveral hdst =>
    ⟨_, exec_reassemble_first m s hidx hfree hseveral hdst, fun k => ?_⟩, fun e hheld hcount hfree => ?_⟩
  · rw [Table.lookup_insert _ _ _ _ _ hs.1]
    simp only [Key.ord_eq_iff]
    rfl
  obtain ⟨-, -, -, -, -, hwf, -⟩ := entryInv_of_lookup hs hheld
  by_cases hfull : e.chunks.length + 1 = e.count
  · refine ⟨_, _, exec_reassemble_last m s hidx hs hheld hcount hfree hfull, fun k hk => ?_, fun hopen => ?_,
      fun _ => ⟨?_, _, rfl, ?_, fun j hj => add_chunks_getElem? m s hidx hs hheld hcount hfree hfull hj⟩⟩
    · rw [Table.lookup_erase, if_neg (mt (Key.ord_inj k m.key) hk)]
    · omega
    · rw [Table.lookup_erase]; exact if_pos rfl
    · rw [List.length_map, e.length_add_chunks m hfree, hfull]
  · refine ⟨_, _, exec_reassemble_further m s hidx hs hheld hcount hfree hfull, fun k hk => ?_,
      fun _ => ⟨rfl, e.add m, ?_, e.add_count m, e.add_deadline m, e.lookup_add_chunks m hwf⟩, fun h => absurd h hfull⟩
    · rw [Table.lookup_insert _ _ _ _ _ hs.1, if_neg (mt (Key.ord_inj k m.key) hk)]
    · rw [Table.lookup_insert _ _ _ _ _ hs.1]; exact if_pos rfl

end Sys2Proof.Machine
end

section
/-! PROOFS. Reassembly in any order (spec 42_mbus_framer.md R193). The idea: after any of the fragments have come, the entry
held for their key has exactly their chunks, in index order; so once all have come it is the payload's list of chunks. -/

namespace Sys2Proof.Machine

/-! ## What the entry of a key holds -/

/-- The chunk of a message under its index, as an entry holds it (R33). -/
def MBusMessage.slot (m : MBusMessage) : Nat × Bytes := (m.fragIndex.toNat, m.chunk)

/-- The entry, if any, holds the chunks of exactly the messages `done` of `count`. -/
def HoldsChunks (count : Nat) (done : List MBusMessage) : Option ReasmEntry → Prop
  | none => done = []
  | some e => e.count = count ∧ Table.wf id e.chunks ∧ e.chunks.Perm (done.map MBusMessage.slot)

/-- A message whose index has not come yet joins what is held, first or not (R186). -/
theorem entryWith_holdsChunks (c : Cfg) (now count : Nat) (done : List MBusMessage) (held : Option ReasmEntry)
    (m : MBusMessage) (hheld : HoldsChunks count done held) (hcount : m.fragCount.toNat = count)
    (hnew : ∀ x ∈ done, x.fragIndex.toNat ≠ m.fragIndex.toNat) :
    ∃ e, entryWith c now m held = some e ∧ HoldsChunks count (done ++ [m]) (some e) := by
  cases held with
  | none =>
    cases hheld
    exact ⟨_, rfl, hcount, List.pairwise_singleton _ _, List.Perm.refl _⟩
  | some e =>
    obtain ⟨hcount0, hwf, hperm⟩ := hheld
    have hfree : Table.lookup id m.fragIndex.toNat e.chunks = none := by
      refine Table.lookup_eq_none_of_forall_ne id _ _ (fun x hx => ?_)
      obtain ⟨y, hy, rfl⟩ := List.mem_map.1 (hperm.mem_iff.1 hx)
      exact hnew y hy
    refine ⟨e.add m, entryWith_held_eq_some c now m e (hcount0.trans hcount.symm) hfree, hcount0,
      Table.insert_wf id _ _ _ hwf, ?_⟩
    rw [List.map_append]
    exact (Table.insert_perm id _ _ _ hfree).trans ((hperm.cons m.slot).trans (List.perm_append_singleton _ _).symm)

/-- An entry with the chunks of all the fragments gives their payload, whatever order they came in (R193). -/
theorem joinChunks_of_holdsAll {key : Key} {payload : Bytes} {ms done : List MBusMessage} {count : Nat} {e : ReasmEntry}
    (hparts : NumberedParts key payload ms) (hall : done.Perm ms) (he : HoldsChunks count done (some e)) :
    joinChunks e = payload := by
  obtain ⟨-, hwf, hperm⟩ := he
  have hsorted : Table.wf id (ms.map MBusMessage.slot) := by
    have hindices : (ms.map (fun m => m.fragIndex.toNat)).Pairwise (· < ·) := by
      rw [hparts.indices]; exact List.pairwise_lt_range
    rw [Table.wf, List.pairwise_map]
    exact List.pairwise_map.1 hindices
  have hchunks : e.chunks = ms.map MBusMessage.slot :=
    (hperm.trans (hall.map _)).eq_of_pairwise (fun a b _ _ hab hba => absurd hab (Nat.lt_asymm hba)) hwf hsorted
  rw [joinChunks, hchunks, List.flatMap_map]
  exact hparts.joined

/-- The fragment that comes next has an index that has not come yet. -/
theorem NumberedParts.index_new {key : Key} {payload : Bytes} {ms done rest : List MBusMessage} {m : MBusMessage}
    (hparts : NumberedParts key payload ms) (horder : (done ++ m :: rest).Perm ms) :
    ∀ x ∈ done, x.fragIndex.toNat ≠ m.fragIndex.toNat := by
  have hnodup : ((done ++ m :: rest).map (fun m => m.fragIndex.toNat)).Nodup := by
    rw [(horder.map _).nodup_iff, hparts.indices]
    exact List.nodup_range
  rw [List.map_append, List.nodup_append] at hnodup
  obtain ⟨-, -, hne⟩ := hnodup
  intro x hx
  exact hne _ (List.mem_map_of_mem hx) _ (by simp)

/-- The fragments of a unicast payload are well numbered (R187). -/
theorem NumberedParts.badNumbering_eq_false {key : Key} {payload : Bytes} {ms : List MBusMessage} {m : MBusMessage}
    (hparts : NumberedParts key payload ms) (c : Cfg) (hdst : key.dst ≠ c.mbusBcast) (hm : m ∈ ms) :
    badNumbering c m = false := by
  have hidx : m.fragIndex.toNat < m.fragCount.toNat := by
    have hmem := List.mem_map_of_mem (f := fun m : MBusMessage => m.fragIndex.toNat) hm
    rw [hparts.indices, List.mem_range] at hmem
    rwa [hparts.count_eq m hm]
  exact badNumbering_of c m hidx (fun h => absurd ((congrArg Key.dst (hparts.key_eq m hm)).symm.trans h) hdst)

/-! ## The run -/

/-- The table with what is held for the key, the entries of other keys those of `base`. -/
def tableWith (key : Key) (base : List (Key × ReasmEntry)) : Option ReasmEntry → List (Key × ReasmEntry)
  | none => base
  | some e => Table.insert Key.ord key e base

section
variable {key : Key} {base : List (Key × ReasmEntry)}

theorem lookup_tableWith (hwf : Table.wf Key.ord base) (hfree : Table.lookup Key.ord key base = none)
    (held : Option ReasmEntry) : Table.lookup Key.ord key (tableWith key base held) = held := by
  cases held with
  | none => exact hfree
  | some e => exact (Table.lookup_insert _ _ _ _ _ hwf).trans (if_pos rfl)

theorem erase_tableWith (hfree : Table.lookup Key.ord key base = none) (held : Option ReasmEntry) :
    Table.erase Key.ord key (tableWith key base held) = base := by
  cases held with
  | none => exact Table.erase_of_lookup_none _ _ _ hfree
  | some e => exact Table.erase_insert _ _ _ _ hfree

theorem insert_tableWith (held : Option ReasmEntry) (e : ReasmEntry) :
    Table.insert Key.ord key e (tableWith key base held) = tableWith key base (some e) := by
  cases held with
  | none => rfl
  | some e0 => exact Table.insert_insert _ _ _ _ _

end

theorem execAll_cons_of_next {i : Instr} {s t : State} (h : exec i s = .next t) (rest : List Instr) :
    execAll (i :: rest) s = execAll rest t := by
  rw [execAll, h]

theorem State.pushRet_nil (s : State) : s.pushRet [] = s :=
  congrArg (fun r => { s with ret := r }) (List.append_nil s.ret)

theorem State.pushRet_pushRet (s : State) (a b : List Result) : (s.pushRet a).pushRet b = s.pushRet (a ++ b) :=
  congrArg (fun r => { s with ret := r }) (List.append_assoc s.ret a b)

/-- While the fragments of one payload come, the state: what is held for their key, and the results so far. -/
def receiving (key : Key) (s : State) (held : Option ReasmEntry) (rs : List Result) : State :=
  (s.setReasm (tableWith key s.reasm held)).pushRet rs

theorem receiving_reasm (key : Key) (s : State) (held : Option ReasmEntry) (rs : List Result) :
    (receiving key s held rs).reasm = tableWith key s.reasm held := rfl

/-- Ending or going on: the table is written anew and the result joins those before it. -/
theorem receiving_setReasm_pushRet (key : Key) (s : State) (held : Option ReasmEntry) (rs : List Result)
    (table : List (Key × ReasmEntry)) (r : Result) :
    ((receiving key s held rs).setReasm table).pushRet [r] = (s.setReasm table).pushRet (rs ++ [r]) :=
  State.pushRet_pushRet (s.setReasm table) rs [r]

section
variable {key : Key} {payload : Bytes} {ms : List MBusMessage} {s : State}
  (hparts : NumberedParts key payload ms) (hdst : key.dst ≠ s.cfg.mbusBcast)
  (hwf : Table.wf Key.ord s.reasm) (hfree : Table.lookup Key.ord key s.reasm = none)
include hparts hdst hwf hfree

/-- One more fragment: it is held if others are still to come, and completes the payload if not (R186). -/
theorem exec_reassemble_receiving {done rest : List MBusMessage} {m : MBusMessage} {held : Option ReasmEntry}
    (rs : List Result) (horder : (done ++ m :: rest).Perm ms) (hheld : HoldsChunks ms.length done held) :
    (rest = [] → exec (reassembleInstr m) (receiving key s held rs)
        = .next (s.pushRet (rs ++ [.complete ⟨key.src, key.dst, key.msgId, payload⟩])))
      ∧ (rest ≠ [] → ∃ e, HoldsChunks ms.length (done ++ [m]) (some e)
          ∧ exec (reassembleInstr m) (receiving key s held rs)
            = .next (receiving key s (some e) (rs ++ [.incomplete]))) := by
  have hmem : m ∈ ms := horder.mem_iff.1 (by simp)
  have hgood := hparts.badNumbering_eq_false s.cfg hdst hmem
  obtain ⟨e, he, hchunks⟩ := entryWith_holdsChunks s.cfg s.now ms.length done held m hheld (hparts.count_eq m hmem)
    (hparts.index_new horder)
  have hkey := hparts.key_eq m hmem
  have hentry : entryWith s.cfg s.now m (Table.lookup Key.ord m.key (receiving key s held rs).reasm) = some e := by
    rw [hkey, receiving_reasm, lookup_tableWith hwf hfree, he]
  have ⟨hcount, _, hslots⟩ := hchunks
  have hheldLength : e.chunks.length = done.length + 1 := by
    rw [hslots.length_eq, List.length_map, List.length_append, List.length_singleton]
  have hlength : done.length + (rest.length + 1) = ms.length := by
    rw [← horder.length_eq, List.length_append, List.length_cons]
  refine ⟨fun hlast => ?_, fun hmore => ⟨e, hchunks, ?_⟩⟩
  · subst hlast
    have hfull : e.chunks.length = e.count := by rw [List.length_nil] at hlength; omega
    rw [exec_reassemble_of_full (s := receiving key s held rs) hgood hentry hfull,
      joinChunks_of_holdsAll hparts horder hchunks, hkey, receiving_reasm, erase_tableWith hfree,
      receiving_setReasm_pushRet]
    rfl
  · have hopen : e.chunks.length ≠ e.count := by
      have := List.length_pos_of_ne_nil hmore
      omega
    rw [exec_reassemble_of_open (s := receiving key s held rs) hgood hentry hopen, hkey, receiving_reasm,
      insert_tableWith, receiving_setReasm_pushRet]
    rfl

/-- The fragments still to come, in any order: Incomplete until the last, which gives the payload (R193). -/
theorem execAll_reassemble_receiving (rest : List MBusMessage) : ∀ (m : MBusMessage) (done : List MBusMessage)
    (held : Option ReasmEntry) (rs : List Result), (done ++ m :: rest).Perm ms → HoldsChunks ms.length done held →
      execAll ((m :: rest).map reassembleInstr) (receiving key s held rs)
        = .next (s.pushRet (rs ++ (List.replicate rest.length .incomplete
            ++ [.complete ⟨key.src, key.dst, key.msgId, payload⟩]))) := by
  induction rest with
  | nil =>
    intro m done held rs horder hheld
    obtain ⟨hlast, -⟩ := exec_reassemble_receiving hparts hdst hwf hfree rs horder hheld
    exact execAll_cons_of_next (hlast rfl) []
  | cons m' rest ih =>
    intro m done held rs horder hheld
    obtain ⟨-, hmore⟩ := exec_reassemble_receiving hparts hdst hwf hfree rs horder hheld
    obtain ⟨e, hchunks, hexec⟩ := hmore (List.cons_ne_nil _ _)
    rw [List.map_cons, execAll_cons_of_next hexec, ih m' (done ++ [m]) (some e) _ (by simpa using horder) hchunks,
      List.append_assoc]
    rfl

end

/-- Settles O20: whatever MBUS_FRAGMENT returns is numbered by its places, and nothing of it is held at first. -/
theorem reassembleAnyOrder : Obligations.ReassembleAnyOrder := by
  intro src dst mid payload ms order s hsizes hdst hs hfree hexec horder
  have hparts := numberedParts_of_mbusFragment hsizes (mbusFragment_of_exec hexec)
  rw [← horder.length_eq]
  cases order with
  | nil => exact absurd horder.nil_eq.symm hparts.nonempty
  | cons m rest =>
    have hrun := execAll_reassemble_receiving hparts hdst hs.1 hfree rest m [] none [] horder rfl
    rw [receiving, State.pushRet_nil, List.nil_append] at hrun
    exact hrun

end Sys2Proof.Machine
end

section
/-! PROOFS. Nothing is lost to the recorder (spec 43_transport_mux.md R221, R202, R206, R212). The idea: a byte of RX
enters the record in progress or is observed at once, completing a record moves its bytes to REC, and every write to TX
is observed as it is written; nothing else touches the parser's bytes, REC, TX or the bytes taken. -/

namespace Sys2Proof.Machine

theorem observedBytes_append (d : Dir) (l m : List Observation) :
    observedBytes d (l ++ m) = observedBytes d l ++ observedBytes d m := by
  simp [observedBytes]

/-- One more observation adds its bytes to its own direction. -/
theorem observedBytes_concat_same (l : List Observation) (d : Dir) (tag : Tag) (bs : Bytes) :
    observedBytes d (l ++ [⟨d, tag, bs⟩]) = observedBytes d l ++ bs := by
  simp [observedBytes]

theorem observedBytes_concat_other (l : List Observation) (d : Dir) (tag : Tag) (bs : Bytes) (d' : Dir) (h : d ≠ d') :
    observedBytes d' (l ++ [⟨d, tag, bs⟩]) = observedBytes d' l := by
  simp [observedBytes, h]

theorem observedBytes_tx_written (c : Channel) (bs : List Bytes) :
    observedBytes .tx (bs.map (fun b => ⟨.tx, .chan c, b⟩)) = bs.flatten := by
  induction bs with
  | nil => rfl
  | cons b bs ih => simpa [observedBytes] using ih

theorem observedBytes_rx_written (c : Channel) (bs : List Bytes) :
    observedBytes .rx (bs.map (fun b => ⟨.tx, .chan c, b⟩)) = [] := by
  simp [observedBytes]

/-- The recorder's law reads the bytes and the phase of the record in progress, REC, TX and the bytes taken alone. -/
theorem recorderInv_congr {s t : State} (hs : RecorderInv s) (hraw : t.rx.raw = s.rx.raw)
    (hphase : t.rx.phase = s.rx.phase) (hrec : t.recLog = s.recLog) (htx : t.tx = s.tx) (hdone : t.rxDone = s.rxDone) :
    RecorderInv t := by
  simpa only [RecorderInv, hraw, hphase, hrec, htx, hdone] using hs

/-- Records are observed as they are written (R202, R212). -/
theorem sent_keeps_recorder (c : Channel) (bs : List Bytes) (s : State) (hs : RecorderInv s) :
    RecorderInv (sent c bs s) := by
  obtain ⟨hrx, htx, hidle⟩ := hs
  refine ⟨?_, ?_, hidle⟩
  · simpa [sent, observedBytes_append, observedBytes_rx_written] using hrx
  · simp [sent, observedBytes_append, observedBytes_tx_written, htx]

/-- A byte that joins the record in progress (R206). -/
theorem recorderInv_byteJoined (b : Byte) (rx : RxParser) (s : State) (hs : RecorderInv s)
    (hraw : rx.raw = s.rx.raw ++ [b]) (hphase : rx.phase ≠ .idle) : RecorderInv ((s.pushRxDone [b]).setRx rx) := by
  obtain ⟨hrx, htx, -⟩ := hs
  refine ⟨?_, htx, fun hidle => absurd hidle hphase⟩
  simp [hraw, ← hrx]

/-- Completion moves the bytes of the record in progress to REC, whatever its tag (R208, R209). -/
theorem completeRecord_keeps_recorder (s : State) (hs : RecorderInv s) : RecorderInv (completeRecord s) := by
  obtain ⟨hrx, htx, -⟩ := hs
  rw [completeRecord_eq]
  refine ⟨?_, ?_, fun _ => rfl⟩
  · simpa [observedBytes_concat_same] using hrx
  · simpa [observedBytes_concat_other] using htx

/-- At a record boundary a preamble begins a record, and any other byte is observed at once (R206, R207). -/
theorem rxByte_idle_keeps_recorder (b : Byte) (s : State) (hp : s.rx.phase = .idle) (hs : RecorderInv s) :
    RecorderInv (rxByte b s) := by
  obtain ⟨hrx, htx, hidle⟩ := hs
  have hraw : s.rx.raw = [] := hidle hp
  rw [rxByte_idle b s hp]
  split
  · exact recorderInv_byteJoined b _ s ⟨hrx, htx, hidle⟩ (by rw [hraw]; rfl) nofun
  · refine ⟨?_, ?_, hidle⟩
    · simp [observedBytes_concat_same, ← hrx, hraw]
    · simpa [observedBytes_concat_other] using htx

theorem rxByte_keeps_recorder (b : Byte) (s : State) (hs : RecorderInv s) : RecorderInv (rxByte b s) := by
  cases hp : s.rx.phase with
  | idle => exact rxByte_idle_keeps_recorder b s hp hs
  | lenHi =>
    rw [rxByte_lenHi b s hp]
    exact recorderInv_byteJoined b _ s hs rfl nofun
  | lenLo =>
    by_cases hn : s.rx.len + b.toNat = 0
    · rw [rxByte_lenLo_last b s hp hn]
      exact completeRecord_keeps_recorder _ (recorderInv_byteJoined b _ s hs rfl nofun)
    · rw [rxByte_lenLo_more b s hp hn]
      exact recorderInv_byteJoined b _ s hs rfl nofun
  | body =>
    by_cases hn : s.rx.buf.length + 1 = s.rx.len
    · rw [rxByte_body_last b s hp hn]
      exact completeRecord_keeps_recorder _ (recorderInv_byteJoined b _ s hs rfl nofun)
    · rw [rxByte_body_more b s hp hn]
      exact recorderInv_byteJoined b _ s hs rfl nofun

/-- An accepted RESET may poison the record in progress but keeps its bytes (R234, R240). -/
theorem acceptReset_keeps_recorder (k : ResetKind) (s : State) (hs : RecorderInv s) :
    RecorderInv (acceptReset k s) := by
  have hoff : RecorderInv (railsOff (resetTargets s.cfg k) s) := by
    rw [railsOff_eq_setRail]
    exact recorderInv_congr hs rfl rfl rfl rfl rfl
  rw [acceptReset_eq]
  exact recorderInv_congr hoff rfl rfl rfl rfl rfl

theorem taken_keeps_recorder (s t : State) (h : Taken s t) (hs : RecorderInv s) : RecorderInv t := by
  obtain ⟨_, _, _, _, rfl⟩ := h
  exact recorderInv_congr hs rfl rfl rfl rfl rfl

theorem effect_keeps_recorder (s : State) (i : Instr) (t : State) (h : Effect s i t) (hs : RecorderInv s) :
    RecorderInv t := by
  cases h with
  | reassembled m =>
    obtain ⟨_, ht⟩ := reassemble_state m s
    rw [ht]
    exact recorderInv_congr hs rfl rfl rfl rfl rfl
  | wrote _ c bs => exact recorderInv_congr (sent_keeps_recorder c bs s hs) rfl rfl rfl rfl rfl
  | issued _ _ _ b => exact recorderInv_congr (sent_keeps_recorder .ein [b] s hs) rfl rfl rfl rfl rfl
  | resetBegun k => exact acceptReset_keeps_recorder k s hs
  | byteTaken b => exact rxByte_keeps_recorder b s hs
  | dispatched c body rest =>
    obtain ⟨_, _, _, _, -, ht⟩ := dispatchUnit_frame c body (s.setRxq rest)
    rw [ht]
    exact recorderInv_congr hs rfl rfl rfl rfl rfl
  | ticked =>
    obtain ⟨_, _, _, _, _, _, ht⟩ := tick_frame s
    rw [ht]
    exact recorderInv_congr hs rfl rfl rfl rfl rfl
  | _ => exact recorderInv_congr hs rfl rfl rfl rfl rfl

/-- Settles O56: taking a turn and every effect keep the recorder's law. -/
theorem stepKeepsRecorderLaw : Obligations.StepKeepsRecorderLaw :=
  step_keeps taken_keeps_recorder effect_keeps_recorder

end Sys2Proof.Machine
end

section
/-! PROOFS. The sends and MUX_RECEIVE (spec 43_transport_mux.md R202, R203, R214; 45_command_surface.md R261). The idea:
every send looks at the gate first, so with the governing rail OFF it ends in the error before anything else is read. -/

namespace Sys2Proof.Machine

/-! ## The gate -/

theorem exec_muxSend_of_off (c : Channel) (body : Bytes) (s : State) (h : railAt s (s.cfg.gov c) = .off) :
    exec (.muxSend c body) s = .next (s.pushRet [.err (.railNotEnergized c (s.cfg.gov c))]) := by
  change settle .ok (muxWrite c body s) s = _
  rw [muxWrite, if_pos ((decodable_eq_false s c).2 h)]
  rfl

theorem buildAndWrite_of_off (c : Channel) (build : Except Stop Bytes) (s : State)
    (h : railAt s (s.cfg.gov c) = .off) :
    buildAndWrite c build s = .error (.raised (.railNotEnergized c (s.cfg.gov c))) :=
  if_pos ((decodable_eq_false s c).2 h)

theorem exec_gocSend_of_off (bits : List Bit) (s : State) (h : railAt s s.cfg.govGoc = .off) :
    exec (.gocSend bits) s = .next (s.pushRet [.err (.railNotEnergized .goc s.cfg.govGoc)]) := by
  change settle .ok (buildAndWrite .goc (gocBody s.cfg bits) s) s = _
  rw [buildAndWrite_of_off .goc _ s h]
  rfl

theorem exec_einSend_of_off (addr opcode : Byte) (payload : Bytes) (s : State) (hw : s.wait = none)
    (h : railAt s s.cfg.govEin = .off) :
    exec (.einSend addr opcode payload) s = .next (s.pushRet [.err (.railNotEnergized .ein s.cfg.govEin)]) := by
  change execEinSend addr opcode payload s = _
  rw [execEinSend, hw, buildAndWrite_of_off .ein _ s h]
  rfl

theorem exec_mbusSend_of_off (src dst : Byte) (payload : Bytes) (s : State) (h : railAt s s.cfg.govMbus = .off) :
    exec (.mbusSend src dst payload) s = .next (s.pushRet [.err (.railNotEnergized .mbus s.cfg.govMbus)]) := by
  change execMbusSend src dst payload s = _
  rw [execMbusSend, if_pos ((decodable_eq_false s .mbus).2 h)]
  rfl

/-- Settles O25: the gate comes first in each of the four sends. -/
theorem powerGating : Obligations.PowerGating := fun s =>
  ⟨fun h => ⟨fun bits => exec_gocSend_of_off bits s h, fun body => exec_muxSend_of_off .goc body s h⟩,
    fun h => ⟨fun hw a o p => exec_einSend_of_off a o p s hw h, fun body => exec_muxSend_of_off .ein body s h⟩,
    fun h => ⟨fun src dst p => exec_mbusSend_of_off src dst p s h, fun body => exec_muxSend_of_off .mbus body s h⟩⟩

/-! ## MUX_SEND past the gate -/

theorem exec_muxSend_of_gt (c : Channel) (body : Bytes) (s : State) (h : railAt s (s.cfg.gov c) ≠ .off)
    (hlen : 65535 < body.length) : exec (.muxSend c body) s = .refused .bodyTooLong := by
  have hup : ¬ decodable s c = false := mt (decodable_eq_false s c).1 h
  change settle .ok (muxWrite c body s) s = _
  rw [muxWrite, if_neg hup, if_pos hlen]
  rfl

theorem exec_muxSend_of_le (c : Channel) (body : Bytes) (s : State) (h : railAt s (s.cfg.gov c) ≠ .off)
    (hlen : body.length ≤ 65535) :
    exec (.muxSend c body) s
      = .next (((s.pushTx (recordBytes (preamble s.cfg c) body)).pushRec
          [⟨.tx, .chan c, recordBytes (preamble s.cfg c) body⟩]).pushRet [.ok]) := by
  change settle .ok (muxWrite c body s) s = _
  rw [muxWrite_ok c body s ((decodable_eq_true s c).2 h) hlen]
  rfl

/-- Settles O24: the gate, the size, and the record as R100 spells it. -/
theorem muxSendWrites : Obligations.MuxSendWrites := fun c body s =>
  ⟨exec_muxSend_of_off c body s, exec_muxSend_of_gt c body s,
    fun h hlen => ⟨_, recordBytes_eq (preamble s.cfg c) body, exec_muxSend_of_le c body s h hlen⟩⟩

/-! ## MUX_RECEIVE -/

/-- Settles O26: the two cases of the queue. -/
theorem muxReceivePops : Obligations.MuxReceivePops := by
  refine fun s => ⟨fun hq => ?_, fun c body rest hq => ?_⟩
  · change execMuxReceive s = _
    rw [execMuxReceive, hq]
    rfl
  · change execMuxReceive s = _
    rw [execMuxReceive, hq]
    rfl

end Sys2Proof.Machine
end

section
/-! PROOFS. The receive parser (spec 43_transport_mux.md R206 to R210, R220). The idea: the last byte of a record, be it
the second length byte or a body byte, comes down to `complete()` on the whole record, and so do the bytes of a whole
record taken one by one from a record boundary. -/

namespace Sys2Proof.Machine

/-! ## Short of a record's end -/

theorem not_decodable (s : State) (c : Channel) : (!decodable s c) = decide (railAt s (s.cfg.gov c) = .off) := by
  simp [decodable]

/-- A preamble at a record boundary begins a record (R206, R210). -/
theorem rxByte_preamble (c : Channel) (s : State) (hp : s.rx.phase = .idle) (hd : s.cfg.preamblesDistinct = true) :
    rxByte (preamble s.cfg c) s = (s.pushRxDone [preamble s.cfg c]).setRx
      ⟨.lenHi, c, 0, [], [preamble s.cfg c], !decodable s c⟩ := by
  rw [rxByte_idle _ s hp, channelOfPreamble_preamble s.cfg hd c]

/-- Any other byte there is unrecognised (R207). -/
theorem rxByte_unrecognised (b : Byte) (s : State) (hp : s.rx.phase = .idle) (hb : ∀ c, b ≠ preamble s.cfg c) :
    rxByte b s = (s.pushRxDone [b]).pushRec [⟨.rx, .unrec, [b]⟩] := by
  rw [rxByte_idle b s hp, channelOfPreamble_none s.cfg b hb]

/-- Settles O27: phase by phase. -/
theorem rxByteAdvances : Obligations.RxByteAdvances := by
  refine fun b s => ⟨?_, fun hp hb => congrArg _ (rxByte_unrecognised b s hp hb),
    fun hp => congrArg _ (rxByte_lenHi b s hp), fun hp hn => congrArg _ (rxByte_lenLo_more b s hp hn),
    fun hp hn => congrArg _ (rxByte_body_more b s hp hn)⟩
  rintro hp hd c rfl
  rw [← not_decodable]
  exact congrArg _ (rxByte_preamble c s hp hd)

/-! ## The last byte of a record -/

/-- GOC_DESER answers NOT_GOC exactly on a body without GOC structure (R138). -/
theorem exec_gocDeser_notGoc_iff (body : Bytes) (s : State) :
    exec (.gocDeser body) s = .next (s.pushRet [.notGoc]) ↔ gocDeser body = none := by
  change execGocDeser body s = _ ↔ _
  rw [execGocDeser_eq_reply]
  cases gocDeser body with
  | none => exact iff_of_true rfl rfl
  | some es => exact iff_of_false (fun h => nomatch next_pushRet_inj h) nofun

/-- GOC_DESER answers the events that the body's structure spells (R138). -/
theorem exec_gocDeser_events_iff (body : Bytes) (s : State) (es : List PulseEvent) :
    exec (.gocDeser body) s = .next (s.pushRet [.events es]) ↔ gocDeser body = some es := by
  change execGocDeser body s = _ ↔ _
  rw [execGocDeser_eq_reply]
  cases gocDeser body with
  | none => exact iff_of_false (fun h => nomatch next_pushRet_inj h) nofun
  | some es' =>
    exact ⟨fun h => congrArg some (Result.events.inj (next_pushRet_inj h)), fun h => by cases h; rfl⟩

/-- A record is unrecognised exactly if it is GOC and GOC_DESER answers NOT_GOC on its body (R209). -/
theorem notGocRecord_iff (rx : RxParser) (s : State) :
    notGocRecord rx = true ↔ rx.chan = .goc ∧ exec (.gocDeser rx.buf) s = .next (s.pushRet [.notGoc]) := by
  rw [exec_gocDeser_notGoc_iff, notGocRecord, Bool.and_eq_true, decide_eq_true_eq, Option.isNone_iff_eq_none]

/-- `b` is the last byte of the record in progress, whose body is `body`: the last body byte, or the second length byte
of an empty body. -/
def LastByte (b : Byte) (body : Bytes) (s : State) : Prop :=
  s.rx.phase = .body ∧ s.rx.buf.length + 1 = s.rx.len ∧ body = s.rx.buf ++ [b]
    ∨ s.rx.phase = .lenLo ∧ s.rx.len + b.toNat = 0 ∧ body = s.rx.buf

/-- The record in progress with its last byte taken, its body being `body`, about to be completed. -/
def lastTaken (b : Byte) (body : Bytes) (s : State) : State :=
  (s.pushRxDone [b]).setRx ⟨.body, s.rx.chan, s.rx.len, body, s.rx.raw ++ [b], s.rx.poisoned⟩

/-- The last byte completes the record, either way (R206, R208). -/
theorem rxByte_last (b : Byte) (body : Bytes) (s : State) (h : LastByte b body s) :
    rxByte b s = completeRecord (lastTaken b body s) := by
  rcases h with ⟨hp, hlen, rfl⟩ | ⟨hp, hlen, rfl⟩
  · exact rxByte_body_last b s hp hlen
  · have hsame : s.rx.len + b.toNat = s.rx.len := by omega
    rw [rxByte_lenLo_last b s hp hlen, hsame]
    rfl

/-- The parser at the record boundary after a record (R206). -/
def RxParser.boundary (rx : RxParser) : RxParser := ⟨.idle, rx.chan, rx.len, [], [], false⟩

/-- A record that is not recognised is observed whole and not queued (R209). -/
theorem completeRecord_unrecognised (s : State) (h : notGocRecord s.rx = true) :
    completeRecord s = (s.pushRec [⟨.rx, .unrec, s.rx.raw⟩]).setRx s.rx.boundary := by
  rw [completeRecord, if_pos h]
  rfl

/-- A recognised record, not poisoned and decodable, is observed and queued (R208). -/
theorem completeRecord_queued (s : State) (h : notGocRecord s.rx = false) (hclean : s.rx.poisoned = false)
    (hup : railAt s (s.cfg.gov s.rx.chan) ≠ .off) :
    completeRecord s = ((s.pushRec [⟨.rx, .chan s.rx.chan, s.rx.raw⟩]).setRxq
      (s.rxq ++ [(s.rx.chan, s.rx.buf)])).setRx s.rx.boundary := by
  rw [completeRecord, if_neg (Bool.eq_false_iff.1 h), if_pos ⟨hclean, (decodable_eq_true _ _).2 hup⟩]
  rfl

/-- A recognised record that is poisoned or not decodable is observed and not queued (R210). -/
theorem completeRecord_dropped (s : State) (h : notGocRecord s.rx = false)
    (hgate : s.rx.poisoned = true ∨ railAt s (s.cfg.gov s.rx.chan) = .off) :
    completeRecord s = (s.pushRec [⟨.rx, .chan s.rx.chan, s.rx.raw⟩]).setRx s.rx.boundary := by
  have hshut : ¬ (s.rx.poisoned = false ∧ decodable s s.rx.chan = true) := fun ⟨hclean, hup⟩ =>
    hgate.elim (Bool.eq_false_iff.1 hclean) ((decodable_eq_true _ _).1 hup)
  rw [completeRecord, if_neg (Bool.eq_false_iff.1 h), if_neg hshut]
  rfl

/-- Settles O28: what `complete()` does, by whether the record is recognised and its channel's gate open. -/
theorem rxRecordCompletes : Obligations.RxRecordCompletes := by
  intro b body s hlast
  have hbad : notGocRecord (lastTaken b body s).rx = true
      ↔ s.rx.chan = .goc ∧ exec (.gocDeser body) s = .next (s.pushRet [.notGoc]) := notGocRecord_iff _ s
  refine ⟨completeRecord (lastTaken b body s), congrArg _ (rxByte_last b body s hlast), ?_,
    ⟨fun h => ?_, fun h => ?_⟩, ?_⟩
  · rw [completeRecord_eq]
    rfl
  · rw [completeRecord_unrecognised _ (hbad.2 h)]
    exact ⟨rfl, rfl⟩
  · have hrec : notGocRecord (lastTaken b body s).rx = false := Bool.eq_false_iff.2 (mt hbad.1 h)
    refine ⟨?_, fun hclean hup => ?_, fun hgate => ?_⟩
    · rw [completeRecord_eq, hrec]
      rfl
    · rw [completeRecord_queued _ hrec hclean hup]
      rfl
    · rw [completeRecord_dropped _ hrec hgate]
      rfl
  · rw [completeRecord_eq]
    rfl

/-! ## A whole record from a record boundary -/

/-- Bytes given to RX_BYTE one after the other. -/
def rxBytes (bs : Bytes) (s : State) : State := bs.foldl (fun s b => rxByte b s) s

theorem execAll_rxByte (bs : Bytes) (s : State) : execAll (bs.map Instr.rxByte) s = .next (rxBytes bs s) := by
  induction bs generalizing s with
  | nil => rfl
  | cons b bs ih => exact (execAll_cons_of_next rfl _).trans (ih (rxByte b s))

@[simp] theorem rxBytes_cons (b : Byte) (bs : Bytes) (s : State) : rxBytes (b :: bs) s = rxBytes bs (rxByte b s) := rfl

/-- Of two stretches of bytes taken, the second leaves the parser. -/
theorem State.pushRxDone_setRx_twice (s : State) (a b : Bytes) (x y : RxParser) :
    (((s.pushRxDone a).setRx x).pushRxDone b).setRx y = (s.pushRxDone (a ++ b)).setRx y := by
  simp only [State.pushRxDone, State.setRx, List.append_assoc]

/-- The body bytes still to come, whatever their values, complete the record. -/
theorem rxBytes_body (b : Byte) (bs : Bytes) (s : State) (hp : s.rx.phase = .body)
    (hlen : s.rx.buf.length + (b :: bs).length = s.rx.len) :
    rxBytes (b :: bs) s = completeRecord ((s.pushRxDone (b :: bs)).setRx
      ⟨.body, s.rx.chan, s.rx.len, s.rx.buf ++ b :: bs, s.rx.raw ++ b :: bs, s.rx.poisoned⟩) := by
  induction bs generalizing b s with
  | nil => exact rxByte_body_last b s hp hlen
  | cons b' bs ih =>
    have hmore : s.rx.buf.length + 1 ≠ s.rx.len := by
      rw [List.length_cons, List.length_cons] at hlen
      omega
    have hrest : (s.rx.buf ++ [b]).length + (b' :: bs).length = s.rx.len := by
      rw [← hlen, List.length_append, List.length_singleton, List.length_cons (a := b), Nat.add_assoc, Nat.add_comm 1]
    rw [rxBytes_cons, rxByte_body_more b s hp hmore, ih b' _ rfl hrest, State.pushRxDone_setRx_twice]
    simp only [State.setRx_rx, List.append_assoc, List.singleton_append]

/-- The preamble and the first length byte. -/
theorem rxBytes_header (c : Channel) (hi : Byte) (s : State) (hp : s.rx.phase = .idle)
    (hd : s.cfg.preamblesDistinct = true) :
    rxBytes [preamble s.cfg c, hi] s = (s.pushRxDone [preamble s.cfg c, hi]).setRx
      ⟨.lenLo, c, hi.toNat * 256, [], [preamble s.cfg c, hi], !decodable s c⟩ := by
  change rxByte hi (rxByte (preamble s.cfg c) s) = _
  rw [rxByte_preamble c s hp hd, rxByte_lenHi hi _ rfl, State.pushRxDone_setRx_twice]
  rfl

/-- The second length byte and the body complete the record, an empty body with no byte of its own (R206). -/
theorem rxBytes_lenLo (lo : Byte) (body : Bytes) (s : State) (hp : s.rx.phase = .lenLo) (hbuf : s.rx.buf = [])
    (hlen : s.rx.len + lo.toNat = body.length) :
    rxBytes (lo :: body) s = completeRecord ((s.pushRxDone (lo :: body)).setRx
      ⟨.body, s.rx.chan, body.length, body, s.rx.raw ++ lo :: body, s.rx.poisoned⟩) := by
  rw [rxBytes_cons]
  cases body with
  | nil =>
    have hlast := rxByte_lenLo_last lo s hp hlen
    rw [hlen, hbuf] at hlast
    exact hlast
  | cons b bs =>
    have hmore : s.rx.len + lo.toNat ≠ 0 := by
      rw [hlen]
      exact Nat.succ_ne_zero _
    have hrest : s.rx.buf.length + (b :: bs).length = s.rx.len + lo.toNat := by
      rw [hbuf, hlen]
      exact Nat.zero_add _
    rw [rxByte_lenLo_more lo s hp hmore, rxBytes_body b bs _ rfl hrest, State.pushRxDone_setRx_twice]
    simp only [State.setRx_rx, hlen, hbuf, List.append_assoc, List.singleton_append, List.nil_append]

/-- A whole record taken from a record boundary, about to be completed. -/
def recordTaken (c : Channel) (body : Bytes) (s : State) : State :=
  (s.pushRxDone (recordBytes (preamble s.cfg c) body)).setRx
    ⟨.body, c, body.length, body, recordBytes (preamble s.cfg c) body, !decodable s c⟩

/-- A whole record, taken from a record boundary, is completed with its channel and its body (R206, R220). -/
theorem rxBytes_record (c : Channel) (body : Bytes) (s : State) (hp : s.rx.phase = .idle)
    (hd : s.cfg.preamblesDistinct = true) (hlen : body.length < 65536) :
    rxBytes (recordBytes (preamble s.cfg c) body) s = completeRecord (recordTaken c body s) := by
  have hspelt : (byteAt body.length 1).toNat * 256 + (byteAt body.length 0).toNat = body.length := by
    rw [← ofBe_two]
    exact ofBe_be16 body.length hlen
  change rxBytes (byteAt body.length 0 :: body) (rxBytes [preamble s.cfg c, byteAt body.length 1] s) = _
  rw [rxBytes_header c _ s hp hd, rxBytes_lenLo _ body _ rfl rfl hspelt, State.pushRxDone_setRx_twice]
  rfl

/-- Settles O29: what MUX_SEND writes is one record, and a record of a decodable channel with a recognised body is
queued when it completes. -/
theorem framingRoundTrip : Obligations.FramingRoundTrip := by
  intro c body s r hcfg hd hlen hsend hrecv hidle hgoc
  have hrun : execAll ((recordBytes (preamble s.cfg c) body).map Instr.rxByte) r
      = .next (completeRecord (recordTaken c body r)) := by
    rw [execAll_rxByte, ← hcfg, rxBytes_record c body r hidle (hcfg ▸ hd) (by omega)]
  have hrecognised : notGocRecord (recordTaken c body r).rx = false := by
    refine Bool.eq_false_iff.2 (fun hbad => ?_)
    obtain ⟨hchan, hnot⟩ := (notGocRecord_iff _ r).1 hbad
    obtain ⟨es, hes⟩ := hgoc hchan
    exact nomatch next_pushRet_inj (hes.symm.trans hnot)
  have hclean : (recordTaken c body r).rx.poisoned = false := by
    simpa [recordTaken, decodable_eq_true] using hrecv
  refine ⟨_, _, exec_muxSend_of_le c body s hsend hlen, hrun, ?_⟩
  rw [completeRecord_queued _ hrecognised hclean hrecv, ← hcfg]
  exact ⟨rfl, rfl, rfl⟩

end Sys2Proof.Machine
end

section
/-! PROOFS. DISPATCH (spec 43_transport_mux.md R215 to R218). The idea: what a framer's own instruction answers in the
state before says what the framer gives on the unit, since taking the head of the queue changes nothing it reads. -/

namespace Sys2Proof.Machine

/-! ## What a parser's answer says of the parser -/

/-- An instruction that answers with a parser's value has that value from the parser. -/
theorem ok_of_answerErr {α : Type} {f : α → Result} (hf : Function.Injective f) (hne : ∀ a e, f a ≠ .err e)
    {x : Except Err α} {s : State} {a : α} (h : answerErr (x.map f) s = .next (s.pushRet [f a])) : x = .ok a := by
  cases x with
  | ok b => exact congrArg _ (hf (next_pushRet_inj h))
  | error e => exact absurd (next_pushRet_inj h).symm (hne a e)

/-- An instruction that answers with an error has it from the parser. -/
theorem error_of_answerErr {α : Type} {f : α → Result} (hne : ∀ a e, f a ≠ .err e) {x : Except Err α} {s : State}
    {e : Err} (h : answerErr (x.map f) s = .next (s.pushRet [.err e])) : x = .error e := by
  cases x with
  | ok b => exact absurd (next_pushRet_inj h) (hne b e)
  | error e' => exact congrArg _ (Result.err.inj (next_pushRet_inj h))

theorem gocDecode_of_exec_bits {es : List PulseEvent} {s : State} {bits : List Bit}
    (h : exec (.gocDecode es) s = .next (s.pushRet [.bits bits])) : gocDecode s.cfg es = .ok bits :=
  ok_of_answerErr (fun _ _ => Result.bits.inj) nofun h

theorem gocDecode_of_exec_err {es : List PulseEvent} {s : State} {e : Err}
    (h : exec (.gocDecode es) s = .next (s.pushRet [.err e])) : gocDecode s.cfg es = .error e :=
  error_of_answerErr (f := .bits) nofun h

theorem einParse_of_exec_err {body : Bytes} {s : State} {e : Err}
    (h : exec (.einParse body) s = .next (s.pushRet [.err e])) : einParse s.cfg body = .error e :=
  error_of_answerErr (f := .einFrame) nofun h

theorem mbusParse_of_exec {body : Bytes} {s : State} {m : MBusMessage}
    (h : exec (.mbusParse body) s = .next (s.pushRet [.mbusMessage m])) : mbusParse s.cfg body = .ok m :=
  ok_of_answerErr (fun _ _ => Result.mbusMessage.inj) nofun h

theorem mbusParse_of_exec_err {body : Bytes} {s : State} {e : Err}
    (h : exec (.mbusParse body) s = .next (s.pushRet [.err e])) : mbusParse s.cfg body = .error e :=
  error_of_answerErr (f := .mbusMessage) nofun h

/-! ## The head of the queue -/

theorem exec_dispatch_of_nil {s : State} (hq : s.rxq = []) : exec .dispatch s = .next s := by
  change execDispatch s = _
  rw [execDispatch, hq]

theorem exec_dispatch_of_cons {s : State} {c : Channel} {body : Bytes} {rest : List (Channel × Bytes)}
    (hq : s.rxq = (c, body) :: rest) : exec .dispatch s = .next (dispatchUnit c body (s.setRxq rest)) := by
  change execDispatch s = _
  rw [execDispatch, hq]

/-! ## GOC -/

theorem dispatchGoc_of_bits {body : Bytes} {es : List PulseEvent} {bits : List Bit} {s : State}
    (hes : gocDeser body = some es) (hbits : gocDecode s.cfg es = .ok bits) :
    dispatchGoc body s = s.pushEvt [.gocBits bits] := by
  rw [dispatchGoc, hes]
  simp only [hbits]

theorem dispatchGoc_of_error {body : Bytes} {es : List PulseEvent} {e : Err} {s : State}
    (hes : gocDeser body = some es) (he : gocDecode s.cfg es = .error e) :
    dispatchGoc body s = s.pushEvt [.error e] := by
  rw [dispatchGoc, hes]
  simp only [he]

/-- Settles O30: DISPATCH of any unit from its frame, of a GOC unit from what GOC_DESER and GOC_DECODE answer. -/
theorem dispatchGocUnit : Obligations.DispatchGocUnit := by
  refine ⟨fun s hq => exec_dispatch_of_nil hq, fun c body rest s hq => ?_, fun body rest es s hq hdeser => ?_⟩
  · obtain ⟨tbl, w, res, evt, -, hframe⟩ := dispatchUnit_frame c body (s.setRxq rest)
    refine ⟨_, exec_dispatch_of_cons hq, ?_⟩
    rw [hframe]
    rfl
  · have hes : gocDeser body = some es := (exec_gocDeser_events_iff body s es).1 hdeser
    rw [exec_dispatch_of_cons hq]
    refine ⟨fun bits hexec => ?_, fun e hexec => ?_⟩
    · have hbits : gocDecode s.cfg es = .ok bits := gocDecode_of_exec_bits hexec
      exact congrArg _ (dispatchGoc_of_bits hes hbits)
    · have he : gocDecode s.cfg es = .error e := gocDecode_of_exec_err hexec
      exact congrArg _ (dispatchGoc_of_error hes he)

/-! ## EIN -/

section
variable {body : Bytes} {s : State}

theorem dispatchEin_error_of_waiting {e : Err} {w : Wait} (he : einParse s.cfg body = .error e)
    (hw : s.wait = some w) : dispatchEin body s = endWait s (.err e) := by
  rw [dispatchEin, he, hw]

theorem dispatchEin_error_of_not_waiting {e : Err} (he : einParse s.cfg body = .error e) (hw : s.wait = none) :
    dispatchEin body s = s.pushEvt [.error e] := by
  rw [dispatchEin, he, hw]

theorem dispatchEin_awaited {f : EinFrame} {w : Wait} (hf : einParse s.cfg body = .ok f) (hw : s.wait = some w)
    (haddr : f.dest = w.addr) : dispatchEin body s = endWait s (.frame f) := by
  rw [dispatchEin, hf, hw]
  exact if_pos haddr

/-- A frame that no wait is for is unsolicited (R217). -/
theorem dispatchEin_unsolicited {f : EinFrame} (hf : einParse s.cfg body = .ok f)
    (haddr : ∀ w, s.wait = some w → f.dest ≠ w.addr) : dispatchEin body s = s.pushEvt [.einFrame f] := by
  rw [dispatchEin, hf]
  cases hw : s.wait with
  | none => rfl
  | some w => exact if_neg (haddr w hw)

end

/-- Settles O31: the four outcomes of the pseudocode, by what EIN_PARSE answers and by the wait. -/
theorem dispatchEinUnit : Obligations.DispatchEinUnit := by
  intro body rest s hq
  rw [exec_dispatch_of_cons hq]
  refine ⟨fun e hexec => ?_, fun f hexec => ?_⟩
  · have he := einParse_of_exec_err hexec
    exact ⟨fun hw => congrArg _ (dispatchEin_error_of_not_waiting he hw),
      fun w hw => congrArg _ (dispatchEin_error_of_waiting he hw)⟩
  · have hf := einParse_of_exec hexec
    exact ⟨fun haddr => congrArg _ (dispatchEin_unsolicited hf haddr),
      fun w hw haddr => congrArg _ (dispatchEin_awaited hf hw haddr)⟩

/-! ## MBus -/

/-- Reassembly neither reads nor writes the queue. -/
theorem reassemble_setRxq (m : MBusMessage) (s : State) (q : List (Channel × Bytes)) :
    reassemble m (s.setRxq q) = ((reassemble m s).1, (reassemble m s).2.setRxq q) := by
  cases hb : badNumbering s.cfg m with
  | true => simp [reassemble, hb]
  | false =>
    cases he : entryWith s.cfg s.now m (Table.lookup Key.ord m.key s.reasm) with
    | none => simp [reassemble, hb, he]
    | some e =>
      by_cases hfull : e.chunks.length = e.count
      · simp [reassemble, hb, he, hfull, State.setReasm, State.setRxq]
      · simp [reassemble, hb, he, hfull, State.setReasm, State.setRxq]

theorem exec_reassembleInstr (m : MBusMessage) (s : State) :
    exec (reassembleInstr m) s = .next ((reassemble m s).2.pushRet [reasmResult (reassemble m s).1]) := rfl

theorem reasmResult_injective : Function.Injective reasmResult := by
  intro a b h
  cases a with
  | none =>
    cases b with
    | none => rfl
    | some y => cases h
  | some x =>
    cases b with
    | none => cases h
    | some y => exact congrArg some (Result.complete.inj h)

/-- What MBUS_REASSEMBLE answers and does to the table is what reassembly gives (R186). -/
theorem reassemble_of_exec {m : MBusMessage} {s : State} {table : List (Key × ReasmEntry)} {x : Option MBusLogical}
    (h : exec (reassembleInstr m) s = .next ((s.setReasm table).pushRet [reasmResult x])) :
    reassemble m s = (x, s.setReasm table) := by
  obtain ⟨t, ht⟩ := reassemble_state m s
  rw [exec_reassembleInstr, ht] at h
  injection h with hs
  obtain rfl : t = table := congrArg State.reasm hs
  exact Prod.ext (reasmResult_injective (List.singleton_inj.1 (State.pushRet_injective _ hs))) ht

section
variable {body : Bytes} {s : State}

theorem dispatchMbus_of_error {e : Err} (he : mbusParse s.cfg body = .error e) :
    dispatchMbus body s = s.pushEvt [.error e] := by
  rw [dispatchMbus, he]

theorem dispatchMbus_of_complete {m : MBusMessage} {x : MBusLogical} {t : State} (hm : mbusParse s.cfg body = .ok m)
    (hr : reassemble m s = (some x, t)) : dispatchMbus body s = t.pushEvt [.mbusMessage x] := by
  rw [dispatchMbus, hm]
  simp only [hr]

theorem dispatchMbus_of_incomplete {m : MBusMessage} {t : State} (hm : mbusParse s.cfg body = .ok m)
    (hr : reassemble m s = (none, t)) : dispatchMbus body s = t := by
  rw [dispatchMbus, hm]
  simp only [hr]

end

/-- Settles O32: by what MBUS_PARSE answers, and then by what MBUS_REASSEMBLE answers. -/
theorem dispatchMbusUnit : Obligations.DispatchMbusUnit := by
  intro body rest s hq
  rw [exec_dispatch_of_cons hq]
  refine ⟨fun e hexec => ?_, fun m table hexec => ?_⟩
  · have he : mbusParse s.cfg body = .error e := mbusParse_of_exec_err hexec
    exact congrArg _ (dispatchMbus_of_error he)
  · have hm : mbusParse s.cfg body = .ok m := mbusParse_of_exec hexec
    have hreasm : ∀ x, exec (reassembleInstr m) s = .next ((s.setReasm table).pushRet [reasmResult x]) →
        reassemble m (s.setRxq rest) = (x, (s.setRxq rest).setReasm table) := fun x hx => by
      rw [reassemble_setRxq, reassemble_of_exec hx]
      rfl
    exact ⟨fun x hx => congrArg _ (dispatchMbus_of_complete hm (hreasm (some x) hx)),
      fun hx => congrArg _ (dispatchMbus_of_incomplete hm (hreasm none hx))⟩

end Sys2Proof.Machine
end

section
/-! PROOFS. The rails and the reset sequence (spec 44_power_rail.md R234, R236, R237, R240, R243, R244). The idea: SET_RAIL
and RESET are a write of rails and then one power-down, so each says only which channels go down; and while nothing but
ticks comes, the clock's only hold on the rails is reset completion, which waits for the deadline and then writes back
what RESET noted. -/

namespace Sys2Proof.Machine

/-! ## What a power-down does, by the channels that go down -/

section
variable {downs : List Nat} {s : State} {down : Channel → Bool} (h : ∀ c, downs.contains (s.cfg.gov c) = down c)
include h

theorem powerDownTo_rx : (powerDownTo downs s).rx
    = { s.rx with poisoned := s.rx.poisoned || (decide (s.rx.phase ≠ .idle) && down s.rx.chan) } := by
  simp only [powerDownTo, h]

theorem powerDownTo_rxq : (powerDownTo downs s).rxq = s.rxq.filter (fun x => !down x.1) := by
  simp only [powerDownTo, h]

theorem powerDownTo_wait : (powerDownTo downs s).wait = if down .ein then none else s.wait := by
  simp only [powerDownTo, h]

theorem powerDownTo_res : (powerDownTo downs s).res
    = s.res ++ (if down .ein = true ∧ s.wait.isSome = true then
        [.einSend (.err (.railNotEnergized .ein s.cfg.govEin))] else []) := by
  simp only [powerDownTo, h]

theorem powerDownTo_reasm : (powerDownTo downs s).reasm = if down .mbus then [] else s.reasm := by
  simp only [powerDownTo, h]

theorem powerDownTo_evt : (powerDownTo downs s).evt
    = s.evt ++ (if down .mbus then s.reasm.map timeoutEvent else []) := by
  simp only [powerDownTo, h]

end

/-- What a power-down has not flushed is all that a flush after it reports: together each entry once (R191, R234). -/
theorem powerDownTo_flush (downs : List Nat) (s : State) :
    (powerDownTo downs s).evt ++ (powerDownTo downs s).reasm.map timeoutEvent
      = s.evt ++ s.reasm.map timeoutEvent := by
  by_cases hd : s.cfg.gov .mbus ∈ downs
  · simp [powerDownTo, hd]
  · simp [powerDownTo, hd]

/-! ## SET_RAIL -/

section
variable {rail : Nat} {s : State}

theorem exec_setRail_of_ge (st : RailState) (h : s.cfg.nrails ≤ rail) :
    exec (.setRail rail st) s = .refused (.railOutOfRange rail) :=
  if_pos h

theorem exec_setRail_of_busy (st : RailState) (h : rail < s.cfg.nrails) (hb : s.rst.busy = true) :
    exec (.setRail rail st) s = .next (s.pushRet [.err .resetInProgress]) := by
  change execSetRail rail st s = _
  rw [execSetRail, if_neg h.not_ge, if_pos hb]
  rfl

/-- Past the two checks: the write, then the power-down if an energized rail went OFF (R236). -/
theorem exec_setRail_of_idle (st : RailState) (h : rail < s.cfg.nrails) (hb : s.rst.busy = false) :
    exec (.setRail rail st) s
      = .next ((if railAt s rail ≠ .off ∧ st = .off then powerDownTo [rail] (writeRail s rail st)
          else writeRail s rail st).pushRet [.ok]) := by
  change execSetRail rail st s = _
  rw [execSetRail, if_neg h.not_ge, if_neg (ne_true_of_eq_false hb), ← powerDown_eq]
  rfl

theorem exec_setRail_of_up (st : RailState) (h : rail < s.cfg.nrails) (hb : s.rst.busy = false)
    (hup : railAt s rail = .off ∨ st ≠ .off) :
    exec (.setRail rail st) s = .next ((s.setRail (s.rail.set rail st)).pushRet [.ok]) := by
  have hkeep : ¬ (railAt s rail ≠ .off ∧ st = .off) := fun hd => hup.elim hd.1 (fun hst => hst hd.2)
  rw [exec_setRail_of_idle st h hb, if_neg hkeep]
  rfl

theorem exec_setRail_of_down (h : rail < s.cfg.nrails) (hb : s.rst.busy = false) (hd : railAt s rail ≠ .off) :
    exec (.setRail rail .off) s = .next ((powerDownTo [rail] (writeRail s rail .off)).pushRet [.ok]) := by
  rw [exec_setRail_of_idle .off h hb, if_pos ⟨hd, rfl⟩]

end

/-- Settles O33: the four outcomes of the pseudocode; in the last one the channels of the one rail are powered down. -/
theorem setRailWrites : Obligations.SetRailWrites := by
  refine fun rail st s => ⟨exec_setRail_of_ge st, exec_setRail_of_busy st, exec_setRail_of_up st, fun h hb hd hst => ?_⟩
  subst hst
  have hdown : ∀ c : Channel, [rail].contains ((writeRail s rail .off).cfg.gov c) = decide (s.cfg.gov c = rail) := by
    simp [writeRail]
  refine ⟨_, exec_setRail_of_down h hb hd, rfl, powerDownTo_rx hdown, ?rxq, ?wait, ?res, ?reasm, ?evt, rfl, rfl⟩
  case rxq =>
    refine (powerDownTo_rxq hdown).trans (List.filter_congr fun x _ => ?_)
    exact (decide_not ..).symm
  case wait => exact (powerDownTo_wait hdown).trans (if_congr (decide_eq_true_iff ..) rfl rfl)
  case res =>
    refine (powerDownTo_res hdown).trans (congrArg _ ?_)
    by_cases hgov : s.cfg.govEin = rail
    · simp [writeRail, Cfg.gov, hgov]
    · simp [Cfg.gov, hgov]
  case reasm => exact (powerDownTo_reasm hdown).trans (if_congr (decide_eq_true_iff ..) rfl rfl)
  case evt =>
    refine (powerDownTo_evt hdown).trans (congrArg _ ?_)
    exact if_congr (decide_eq_true_iff ..) rfl rfl

/-! ## RESET -/

section
variable {s : State}

theorem exec_reset_of_busy (k : ResetKind) (hb : s.rst.busy = true) :
    exec (.reset k) s = .next (s.pushRet [.err .resetInProgress]) :=
  if_pos hb

theorem exec_reset_of_idle (k : ResetKind) (hb : s.rst.busy = false) :
    exec (.reset k) s = .next (acceptReset k s) :=
  if_neg (ne_true_of_eq_false hb)

end

/-- The targets of an accepted RESET are OFF, and the other rails as before (R240). -/
theorem railAt_acceptReset (k : ResetKind) (s : State) (r : Nat) :
    railAt (acceptReset k s) r = if r ∈ resetTargets s.cfg k then .off else railAt s r := by
  rw [railAt_congr (acceptReset_rail k s), railAt_railsOff]

/-- The rails a RESET takes down are the targets that were on (R240). -/
theorem contains_reset_downs (k : ResetKind) (s : State) (r : Nat) :
    ((resetTargets s.cfg k).filter (fun r => decide (railAt s r ≠ .off))).contains r
      = decide (r ∈ resetTargets s.cfg k ∧ railAt s r ≠ .off) := by
  rw [Bool.eq_iff_iff]
  simp

/-- Settles O34: an accepted RESET part by part; the power-down and the flush together report each entry once. -/
theorem resetAccepted : Obligations.ResetAccepted := by
  refine fun k s => ⟨exec_reset_of_busy k, fun hb => ?_⟩
  have hframe := acceptReset_eq k s
  dsimp only at hframe
  rw [railsOff_eq_setRail] at hframe
  have hdown := fun c => contains_reset_downs k s (s.cfg.gov c)
  refine ⟨acceptReset k s, resetTargets s.cfg k, exec_reset_of_idle k hb, ?targets, ?length, railAt_acceptReset k s,
    acceptReset_rst k s, congrArg State.reasm hframe, ?evt, ⟨?rx, ?rxq, ?wait, ?res⟩, ?frame⟩
  case targets => cases k <;> rfl
  case length => rw [acceptReset_rail, railsOff_rail_length]
  all_goals rw [hframe]
  case evt => exact powerDownTo_flush _ _
  case rx => exact powerDownTo_rx hdown
  case rxq => exact powerDownTo_rxq hdown
  case wait => exact powerDownTo_wait hdown
  case res => exact powerDownTo_res hdown
  case frame => rfl

/-! ## Only SET_RAIL, RESET and reset completion -/

/-- Of the rails, the sequencer and the counter TICK writes only what reset completion writes, at the next time (R345). -/
theorem tick_eq_completeReset (s : State) :
    ∃ res w reasm evt, tick s = { completeReset (s.setNow (s.now + 1)) with
      res := res, wait := w, reasm := reasm, evt := evt } := by
  rw [tick, expireReasm_eq]
  rcases expireWait_cases (completeReset (s.setNow (s.now + 1))) with ⟨-, h⟩ | ⟨w, -, -, h⟩ <;> rw [h]
  · exact ⟨_, _, _, _, rfl⟩
  · exact ⟨_, _, _, _, rfl⟩

theorem completeReset_of_not_due {s : State} (h : ¬ (s.rst.busy = true ∧ s.rst.deadline ≤ s.now)) :
    completeReset s = s :=
  if_neg h

/-- A tick at which no reset is due leaves the rails and the sequencer. -/
theorem tick_of_not_due {s : State} (h : ¬ (s.rst.busy = true ∧ s.rst.deadline ≤ s.now + 1)) :
    (tick s).rail = s.rail ∧ (tick s).rst = s.rst := by
  obtain ⟨_, _, _, _, ht⟩ := tick_eq_completeReset s
  rw [ht, completeReset_of_not_due h]
  exact ⟨rfl, rfl⟩

/-- A tick at which the reset is due writes back what the sequencer holds, and ends the settling (R243). -/
theorem tick_of_due {s : State} (hb : s.rst.busy = true) (hd : s.rst.deadline ≤ s.now + 1) :
    (tick s).rail = (restoreRails (restorePairs s.rst) (s.setNow (s.now + 1))).rail ∧ (tick s).rst.busy = false := by
  obtain ⟨_, _, _, _, ht⟩ := tick_eq_completeReset s
  rcases completeReset_cases (s.setNow (s.now + 1)) with ⟨hnot, -⟩ | ⟨-, -, h⟩
  · exact absurd ⟨hb, hd⟩ hnot
  · rw [ht, h]
    exact ⟨rfl, rfl⟩

theorem tick_now (s : State) : (tick s).now = s.now + 1 := by
  obtain ⟨_, _, _, _, _, _, h⟩ := tick_frame s
  rw [h]

/-- Settles O36: of the effects that are none of the three, each leaves the rails. -/
theorem onlyPowerChangesRails : Obligations.OnlyPowerChangesRails := by
  intro i s t h hne
  cases exec_effect i s t h with
  | railWritten r st _ hb => exact .inl ⟨r, st, rfl, hb⟩
  | railDown r _ hb => exact .inl ⟨r, .off, rfl, hb⟩
  | resetBegun k hb => exact .inr (.inl ⟨k, rfl, hb⟩)
  | ticked =>
    refine .inr (.inr ⟨rfl, ?_⟩)
    by_contra hdue
    exact hne (tick_of_not_due hdue).1
  | reassembled m =>
    obtain ⟨_, ht⟩ := reassemble_state m s
    exact absurd (by rw [ht]; rfl) hne
  | byteTaken b =>
    obtain ⟨_, _, _, ht⟩ := rxByte_frame b s
    exact absurd (by rw [ht]) hne
  | dispatched c body rest =>
    obtain ⟨_, _, _, _, -, ht⟩ := dispatchUnit_frame c body (s.setRxq rest)
    exact absurd (by rw [ht]; rfl) hne
  | _ => exact absurd rfl hne

/-! ## The run of ticks after a RESET -/

theorem execAll_ticks (n : Nat) (s : State) : execAll (List.replicate n .tick) s = .next (tick^[n] s) := by
  induction n generalizing s with
  | zero => rfl
  | succ n ih => exact (execAll_cons_of_next rfl _).trans (ih (tick s))

theorem ticks_now (n : Nat) (s : State) : (tick^[n] s).now = s.now + n := by
  induction n with
  | zero => rfl
  | succ n ih => rw [Function.iterate_succ_apply', tick_now, ih, Nat.add_assoc]

/-- Ticks alone neither begin nor lose a reset (R240, R243). -/
theorem ticks_resetCalls (n : Nat) (s : State) : resetCalls (tick^[n] s) = resetCalls s := by
  induction n with
  | zero => rfl
  | succ n ih =>
    obtain ⟨-, hreset⟩ := tick_keepsCalls (tick^[n] s)
    rw [Function.iterate_succ_apply', hreset, ih]

/-- Before the deadline ticks leave the rails and the sequencer; without a tick they are left whatever the deadline
(R243). -/
theorem ticks_settling {n : Nat} {s : State} (h : n < max 1 (s.rst.deadline - s.now)) :
    (tick^[n] s).rail = s.rail ∧ (tick^[n] s).rst = s.rst := by
  induction n with
  | zero => exact ⟨rfl, rfl⟩
  | succ n ih =>
    obtain ⟨hrail, hrst⟩ := ih (by omega)
    have hnot : ¬ ((tick^[n] s).rst.busy = true ∧ (tick^[n] s).rst.deadline ≤ (tick^[n] s).now + 1) := by
      rw [hrst, ticks_now]
      omega
    obtain ⟨hrail', hrst'⟩ := tick_of_not_due hnot
    rw [Function.iterate_succ_apply']
    exact ⟨hrail'.trans hrail, hrst'.trans hrst⟩

/-- The first tick at or past the deadline completes: it writes back to the rails as they were (R243). -/
theorem ticks_complete {s : State} (hb : s.rst.busy = true) :
    ∃ u : State, u.rail = s.rail
      ∧ (tick^[max 1 (s.rst.deadline - s.now)] s).rail = (restoreRails (restorePairs s.rst) u).rail
      ∧ (tick^[max 1 (s.rst.deadline - s.now)] s).rst.busy = false := by
  obtain ⟨m, hm⟩ : ∃ m, max 1 (s.rst.deadline - s.now) = m + 1 := ⟨max 1 (s.rst.deadline - s.now) - 1, by omega⟩
  obtain ⟨hrail, hrst⟩ := ticks_settling (n := m) (s := s) (by omega)
  have hdue : (tick^[m] s).rst.deadline ≤ (tick^[m] s).now + 1 := by
    rw [hrst, ticks_now]
    omega
  obtain ⟨hback, hidle⟩ := tick_of_due (by rw [hrst, hb]) hdue
  rw [hm, Function.iterate_succ_apply']
  rw [hrst] at hback
  refine ⟨_, ?_, hback, hidle⟩
  exact hrail

/-! ## What completion writes back -/

theorem find?_map_pair {α : Type} (f : Nat → α) (l : List Nat) (q : Nat) :
    (l.map (fun r => (r, f r))).find? (fun x => x.1 == q) = if q ∈ l then some (q, f q) else none := by
  induction l with
  | nil => rfl
  | cons r l ih =>
    rw [List.map_cons, List.find?_cons, ih]
    by_cases hr : r = q
    · simp [hr]
    · have hne : (r == q) = false := by simpa using hr
      simp [hne, Ne.symm hr]

/-- After an accepted RESET completion writes to each target the state it had (R240, R243). -/
theorem restorePairs_acceptReset (k : ResetKind) (s : State) :
    restorePairs (acceptReset k s).rst = (resetTargets s.cfg k).map (fun r => (r, railAt s r)) := by
  rw [acceptReset_rst]
  calc (resetTargets s.cfg k).filterMap
        (fun t => ((resetTargets s.cfg k).map (fun r => (r, railAt s r))).find? (fun x => x.1 == t))
      = (resetTargets s.cfg k).filterMap (fun r => some (r, railAt s r)) :=
        List.filterMap_congr fun r hr => by rw [find?_map_pair, if_pos hr]
    _ = (resetTargets s.cfg k).map (fun r => (r, railAt s r)) := congrFun List.filterMap_eq_map' _

theorem rail_eq_of_railAt {s t : State} (hlen : t.rail.length = s.rail.length) (h : ∀ r, railAt t r = railAt s r) :
    t.rail = s.rail := by
  refine List.ext_getElem hlen fun r ht hs => ?_
  simpa [railAt, ht, hs] using h r

/-- From the rails as RESET left them completion makes the rails as they were before it (R243, R244). -/
theorem restoreRails_acceptReset {k : ResetKind} {s u : State} (hu : u.rail = (acceptReset k s).rail) :
    (restoreRails (restorePairs (acceptReset k s).rst) u).rail = s.rail := by
  have hlen : u.rail.length = s.rail.length := by rw [hu, acceptReset_rail, railsOff_rail_length]
  refine rail_eq_of_railAt ((restoreRails_eq _ u).2.trans hlen) fun r => ?_
  have hnodup : (((resetTargets s.cfg k).map (fun r => (r, railAt s r))).map Prod.fst).Nodup := by
    simpa [Function.comp_def] using resetTargets_nodup s.cfg k
  rw [restorePairs_acceptReset, railAt_restoreRails _ _ _ hnodup, find?_map_pair, railAt_congr hu, railAt_acceptReset,
    hlen]
  by_cases hr : r ∈ resetTargets s.cfg k
  · by_cases hlt : r < s.rail.length
    · simp [hr, hlt]
    · simp [hr, hlt, railAt_past s r (Nat.le_of_not_lt hlt)]
  · simp [hr]

/-- The number of results of RESET when none settles. -/
theorem resetResults_of_idle {s : State} (hb : s.rst.busy = false) : resetResults s = resetCalls s := by
  simp [resetCalls, pendingResets, hb]

/-- Settles O35: the ticks before the last leave the targets OFF, and the last one completes. -/
theorem resetCycle : Obligations.ResetCycle := by
  intro k s hb
  have hrst := acceptReset_rst k s
  have hsettle : (acceptReset k s).rst.deadline - (acceptReset k s).now = s.cfg.settleTicks := by
    obtain ⟨_, _, _, _, _, _, ha⟩ := acceptReset_frame k s
    rw [ha]
    exact Nat.add_sub_cancel_left ..
  refine ⟨acceptReset k s, exec_reset_of_idle k hb, fun n hn => ⟨_, execAll_ticks n _, ?_⟩, _, execAll_ticks _ _, ?_⟩
  · obtain ⟨hrail, hseq⟩ := ticks_settling (hsettle ▸ hn)
    refine ⟨by rw [hseq, hrst], fun r hr => ?_⟩
    rw [railAt_congr hrail, railAt_acceptReset, if_pos hr]
  · obtain ⟨u, hu, hback, hidle⟩ := ticks_complete (s := acceptReset k s) (by rw [hrst])
    rw [hsettle] at hback hidle
    refine ⟨hidle, hback.trans (restoreRails_acceptReset hu), ?_⟩
    rw [resetResults_of_idle hidle, resetResults_of_idle hb, ticks_resetCalls, (acceptReset_calls k s hb).2]

end Sys2Proof.Machine
end

section
/-! PROOFS. The command surface (spec 45_command_surface.md R262, R265 to R268, R270). The idea: past the gate a send is its
framer's own operation and then MUX_SEND's one write, so each proof names the body the framer answers and bounds its
length; and a wait that is still there after a tick is the same wait, with its deadline ahead. -/

namespace Sys2Proof.Machine

/-! ## CANCEL -/

theorem exec_cancel_of_idle {s : State} (hw : s.wait = none) : exec .cancel s = .next (s.pushRet [.ok]) := by
  change reply .ok (if s.wait = none then s else endWait s .cancelled) = _
  rw [if_pos hw]
  rfl

theorem exec_cancel_of_waiting {s : State} (hw : s.wait.isSome = true) :
    exec .cancel s = .next (((s.pushRes [.einSend .cancelled]).setWait none).pushRet [.ok]) := by
  change reply .ok (if s.wait = none then s else endWait s .cancelled) = _
  rw [if_neg (Option.isSome_iff_ne_none.1 hw)]
  rfl

/-- Settles O42: with a wait pending and without one. -/
theorem cancelEndsWait : Obligations.CancelEndsWait := fun _ => ⟨exec_cancel_of_idle, exec_cancel_of_waiting⟩

/-! ## Build, then write -/

/-- Past the gate, a body that is built and fits a record is written and observed once (R202, R262, R265). -/
theorem buildAndWrite_of_ok {c : Channel} {build : Except Stop Bytes} {body : Bytes} {s : State}
    (h : railAt s (s.cfg.gov c) ≠ .off) (hbuild : build = .ok body) (hlen : body.length ≤ 65535) :
    buildAndWrite c build s = .ok ((s.pushTx (recordBytes (preamble s.cfg c) body)).pushRec
      [⟨.tx, .chan c, recordBytes (preamble s.cfg c) body⟩]) := by
  have hup : ¬ decodable s c = false := mt (decodable_eq_false s c).1 h
  subst hbuild
  exact (if_neg hup).trans (muxWrite_ok c body s ((decodable_eq_true s c).2 h) hlen)

/-! ## GOC_SEND -/

/-- The pulse words of events, back to back (R137). -/
def pulseWords (events : List PulseEvent) : Bytes := events.flatMap (fun e => pulseWordBytes e.edge e.dur)

@[simp] theorem pulseWords_length (events : List PulseEvent) : (pulseWords events).length = 4 * events.length := by
  induction events with
  | nil => rfl
  | cons e rest ih =>
    have hcons : pulseWords (e :: rest) = pulseWordBytes e.edge e.dur ++ pulseWords rest := rfl
    have hword : (pulseWordBytes e.edge e.dur).length = 4 := rfl
    rw [hcons, List.length_append, hword, ih, List.length_cons]
    omega

/-- GOC_ENCODE then GOC_SER: the words of the encoded train (30_encoding.md R123). -/
theorem gocBody_ok {c : Cfg} {bits : List Bit} (hd : c.durationsOk = true) (h : bits.length ≤ c.gocMaxBits) :
    gocBody c bits = .ok (pulseWords (trainOf c bits)) := by
  rw [gocBody, gocEncode, if_neg (Nat.not_lt.2 h)]
  exact gocSer_ok _ (dur_lt_of_mem_trainOf c hd bits)

theorem gocMaxBits_le_of_sizesOk {c : Cfg} (h : c.sizesOk = true) : c.gocMaxBits ≤ 8190 := by
  simp only [Cfg.sizesOk, Bool.and_eq_true, decide_eq_true_eq] at h
  exact h.2

/-- Settles O37: the words of a train of at most 8190 bits fit a record. -/
theorem gocSendWrites : Obligations.GocSendWrites := by
  intro bits s hdurs hsizes hbits hup
  have hbody : (pulseWords (trainOf s.cfg bits)).length = 4 * (2 * bits.length + 3) := by
    rw [pulseWords_length, trainOf_length]
  have hmax := gocMaxBits_le_of_sizesOk hsizes
  refine ⟨_, _, _, exec_gocEncode_of_le bits s hbits, exec_gocSer_of_lt _ s (dur_lt_of_mem_trainOf s.cfg hdurs bits),
    hbody, recordBytes_eq s.cfg.preGoc (pulseWords (trainOf s.cfg bits)), ?_⟩
  change settle .ok (buildAndWrite .goc (gocBody s.cfg bits) s) s = _
  rw [buildAndWrite_of_ok hup (gocBody_ok hdurs hbits) (by omega)]
  rfl

/-! ## EIN_SEND -/

/-- Settles O38: the frame of EIN_BUILD is written, and the wait begins. -/
theorem einSendIssues : Obligations.EinSendIssues := by
  intro addr opcode payload s hw hup hpayload hrecord
  have hlen : (einHead addr opcode payload ++ einCk s.cfg (einHead addr opcode payload)).length ≤ 65535 := by
    simp only [einHead, List.length_append, List.length_cons, einCk_length]
    omega
  have hbuild : einBuild s.cfg addr opcode payload
      = .ok (einHead addr opcode payload ++ einCk s.cfg (einHead addr opcode payload)) := by
    rw [einBuild, if_neg (Nat.not_lt.2 hpayload)]
  refine ⟨_, _, exec_einBuild_of_le addr opcode payload s hpayload, recordBytes_eq s.cfg.preEin _, ?_⟩
  change execEinSend addr opcode payload s = _
  rw [execEinSend, hw, buildAndWrite_of_ok hup hbuild hlen]
  rfl

/-! ## The end of a wait -/

/-- Reset completion leaves the counter and the wait (R243). -/
theorem completeReset_now_wait (s : State) :
    (completeReset s).now = s.now ∧ (completeReset s).wait = s.wait := by
  rcases completeReset_cases s with ⟨-, h⟩ | ⟨-, -, h⟩ <;> rw [h] <;> exact ⟨rfl, rfl⟩

/-- A wait pending after a tick was pending before it, and its deadline is still ahead (R267). -/
theorem wait_of_tick_wait {s : State} {w : Wait} (h : (tick s).wait = some w) :
    s.wait = some w ∧ (tick s).now < w.deadline := by
  obtain ⟨hnow, hwait⟩ := completeReset_now_wait (s.setNow (s.now + 1))
  rcases expireWait_cases (completeReset (s.setNow (s.now + 1))) with ⟨hahead, hkeep⟩ | ⟨_, -, -, hended⟩
  · rw [tick, expireReasm_eq, hkeep] at h
    refine ⟨hwait.symm.trans h, ?_⟩
    rw [tick_now]
    exact hnow.symm.trans_lt (hahead w h)
  · rw [tick, expireReasm_eq, hended] at h
    cases h

/-- The same over a run of ticks: the wait has been there all along (R267). -/
theorem wait_of_ticks_wait {s : State} {w : Wait} (n : Nat) (h : (tick^[n + 1] s).wait = some w) :
    s.wait = some w ∧ s.now + (n + 1) < w.deadline := by
  induction n with
  | zero =>
    have hstep := wait_of_tick_wait h
    rwa [tick_now] at hstep
  | succ n ih =>
    rw [Function.iterate_succ_apply'] at h
    obtain ⟨hbefore, hahead⟩ := wait_of_tick_wait h
    rw [tick_now, ticks_now] at hahead
    exact ⟨(ih hbefore).1, hahead⟩

/-- Settles O40: a deadline lies at most resp_timeout ahead, so no wait is left after that many ticks. -/
theorem waitEndsInTime : Obligations.WaitEndsInTime := by
  intro s n hinv hn
  refine ⟨_, execAll_ticks n s, ?_⟩
  obtain ⟨m, rfl⟩ : ∃ m, n = m + 1 := ⟨n - 1, by omega⟩
  rw [Option.eq_none_iff_forall_ne_some]
  intro w hw
  obtain ⟨-, hdeadlines, -⟩ := hinv
  obtain ⟨hpending, hahead⟩ := wait_of_ticks_wait m hw
  obtain ⟨hbound, -⟩ := hdeadlines w hpending
  omega

/-! ## MBUS_SEND -/

/-- The record of one message: its built body on the MBus channel (R100, R104). -/
def mbusRecord (c : Cfg) (m : MBusMessage) : Bytes := recordBytes c.preMbus (mbusHead m ++ mbusCrc c (mbusHead m))

/-- `sendFragments_ok`, by the records it writes. -/
theorem sendFragments_records {ms : List MBusMessage} {s : State} (hup : railAt s (s.cfg.gov .mbus) ≠ .off)
    (hchunk : ∀ m ∈ ms, m.chunk.length ≤ 255) (hcrc : s.cfg.mbusCrcLen ≤ 65000) :
    sendFragments ms s = .ok (sent .mbus (ms.map (mbusRecord s.cfg)) s) := by
  rw [sendFragments_ok s.cfg ms s rfl ((decodable_eq_true s .mbus).2 hup) hchunk hcrc, sent, List.map_map]
  rfl

/-- A payload that may be sent is cut into fragments, none longer than the chunk size (R180). -/
theorem mbusFragment_of_allowed {c : Cfg} (hmc : 1 ≤ c.mbusMaxChunk) (src mid : Byte) {dst : Byte} {payload : Bytes}
    (hallowed : payload.length ≤ c.mbusMaxChunk ∨ dst ≠ c.mbusBcast)
    (hroom : payload.length ≤ c.mbusMaxFrags * c.mbusMaxChunk) :
    ∃ ms, mbusFragment c src dst mid payload = .ok ms ∧ ∀ m ∈ ms, m.chunk.length ≤ c.mbusMaxChunk := by
  by_cases hfits : payload.length ≤ c.mbusMaxChunk
  · refine ⟨_, mbusFragment_of_fits c src dst mid payload hfits, fun m hm => ?_⟩
    cases List.mem_singleton.1 hm
    exact hfits
  · have hlong := Nat.not_le.1 hfits
    have hfew : fragmentCount payload.length c.mbusMaxChunk ≤ c.mbusMaxFrags :=
      Nat.not_lt.1 (mt (lt_fragmentCount_iff _ _ _ hmc).1 (Nat.not_lt.2 hroom))
    refine ⟨_, mbusFragment_of_several c src dst mid payload hlong (hallowed.resolve_left hfits) hfew, fun m hm => ?_⟩
    obtain ⟨k, hk⟩ := List.mem_iff_getElem?.1 hm
    obtain ⟨hlast, -, -⟩ := fragmentCount_bounds payload.length c.mbusMaxChunk hmc (by omega)
    obtain ⟨-, -, hle⟩ := fragmentsOf_chunk_length hmc hlast hk
    exact hle

theorem mbusMaxChunk_le_of_sizesOk {c : Cfg} (h : c.sizesOk = true) : c.mbusMaxChunk ≤ 255 := by
  simp only [Cfg.sizesOk, Bool.and_eq_true, decide_eq_true_eq] at h
  omega

section
variable {src dst : Byte} {payload : Bytes} {s : State} (hup : railAt s (s.cfg.gov .mbus) ≠ .off)
include hup

/-- Past the gate, MBUS_SEND of a payload that has fragments writes their records in order and takes the identity
(R270). -/
theorem exec_mbusSend_of_fragments {ms : List MBusMessage}
    (hms : mbusFragment s.cfg src dst s.mbusNextId payload = .ok ms) (hchunk : ∀ m ∈ ms, m.chunk.length ≤ 255)
    (hcrc : s.cfg.mbusCrcLen ≤ 65000) :
    exec (.mbusSend src dst payload) s
      = .next (((sent .mbus (ms.map (mbusRecord s.cfg)) s).setNextId (s.mbusNextId + 1)).pushRet
          [.sent s.mbusNextId ms.length]) := by
  have hgate : ¬ decodable s .mbus = false := mt (decodable_eq_false s .mbus).1 hup
  change execMbusSend src dst payload s = _
  rw [execMbusSend, if_neg hgate, hms]
  simp only [sendFragments_records hup hchunk hcrc]
  rfl

/-- Past the gate, what fragmenting raises or refuses ends MBUS_SEND before anything is written (R270). -/
theorem exec_mbusSend_of_stop {st : Stop}
    (hst : mbusFragment s.cfg src dst s.mbusNextId payload = .error st) :
    exec (.mbusSend src dst payload) s = stopWith st s := by
  have hgate : ¬ decodable s .mbus = false := mt (decodable_eq_false s .mbus).1 hup
  change execMbusSend src dst payload s = _
  rw [execMbusSend, if_neg hgate, hst]

end

/-- Settles O41: the fragments' records in their order, each its built body; a broadcast too large stops at fragmenting. -/
theorem mbusSendWrites : Obligations.MbusSendWrites := by
  intro src dst payload s hsizes hcrc hup
  refine ⟨fun hallowed hroom => ?_, fun hlong hdst => ?_⟩
  · obtain ⟨hmc, -, -⟩ := mbusBounds_of_sizesOk hsizes
    obtain ⟨ms, hms, hle⟩ := mbusFragment_of_allowed hmc src s.mbusNextId hallowed hroom
    have hchunk : ∀ m ∈ ms, m.chunk.length ≤ 255 := fun m hm => (hle m hm).trans (mbusMaxChunk_le_of_sizesOk hsizes)
    refine ⟨ms, ms.map (mbusRecord s.cfg), exec_mbusFragment_of_ok hms, ?_, exec_mbusSend_of_fragments hup hms hchunk hcrc⟩
    rw [List.forall₂_map_right_iff, List.forall₂_same]
    exact fun m hm => ⟨_, exec_mbusBuild_of_le m.src m.dst m.msgId m.fragIndex m.fragCount m.chunk s (hchunk m hm),
      recordBytes_eq s.cfg.preMbus _⟩
  · exact exec_mbusSend_of_stop hup (mbusFragment_of_broadcast s.cfg src dst s.mbusNextId payload hlong hdst)

end Sys2Proof.Machine
end

section
/-! PROOFS. The error codes, TICK and the deadlines (spec 60_exceptions.md R320, R321, R334, R342, R345). The idea: TICK is
three checks one after the other, and no check touches what a later one reads, so each part of the state after a tick is
one check's doing, at the time s.now + 1. -/

namespace Sys2Proof.Machine

/-- Settles O53: the codes as the table of R320 has them. -/
theorem errorCodes : Obligations.ErrorCodes :=
  ⟨rfl, fun _ _ => rfl, fun _ => rfl, fun _ _ _ => rfl, fun _ _ _ => rfl, fun _ _ => rfl, fun _ _ => rfl, rfl,
    fun _ => rfl, fun _ => rfl, rfl, rfl⟩

/-! ## What each check of TICK leaves -/

/-- Expiry looks at the table as it was before the tick, at the new time (R190, R345). -/
theorem tick_expiry (s : State) :
    (tick s).reasm = s.reasm.filter (fun x => !entryDue (s.now + 1) x)
      ∧ (tick s).evt = s.evt ++ (s.reasm.filter (entryDue (s.now + 1))).map timeoutEvent := by
  rcases expireWait_cases (completeReset (s.setNow (s.now + 1))) with ⟨-, h⟩ | ⟨w, -, -, h⟩ <;>
    rcases completeReset_cases (s.setNow (s.now + 1)) with ⟨-, h'⟩ | ⟨-, -, h'⟩ <;>
      rw [tick, h, expireReasm_eq, h'] <;> exact ⟨rfl, rfl⟩

/-- A completed reset leaves the sequencer with `busy` cleared and nothing else written (R243). -/
theorem tick_rst_of_due {s : State} (hb : s.rst.busy = true) (hd : s.rst.deadline ≤ s.now + 1) :
    (tick s).rst = { s.rst with busy := false } := by
  obtain ⟨_, _, _, _, ht⟩ := tick_eq_completeReset s
  rcases completeReset_cases (s.setNow (s.now + 1)) with ⟨hnot, -⟩ | ⟨-, -, h⟩
  · exact absurd ⟨hb, hd⟩ hnot
  · rw [ht, h]
    rfl

/-- What reset completion puts on RES (R243). -/
theorem completeReset_res (s : State) :
    ∃ a, (completeReset s).res = s.res ++ a
      ∧ (s.rst.busy = true ∧ s.rst.deadline ≤ s.now → a = [.reset])
      ∧ (¬ (s.rst.busy = true ∧ s.rst.deadline ≤ s.now) → a = []) := by
  rcases completeReset_cases s with ⟨hnot, h⟩ | ⟨hb, hd, h⟩ <;> rw [h]
  · exact ⟨[], (List.append_nil _).symm, fun hdue => absurd hdue hnot, fun _ => rfl⟩
  · exact ⟨[.reset], rfl, fun _ => rfl, fun hnot => absurd ⟨hb, hd⟩ hnot⟩

/-- What the response timeout puts on RES, and the wait it leaves (R267). -/
theorem expireWait_res_wait (s : State) :
    ∃ b, (expireWait s).res = s.res ++ b
      ∧ (s.wait = none → b = [] ∧ (expireWait s).wait = none)
      ∧ ∀ w, s.wait = some w →
          (w.deadline ≤ s.now → b = [.einSend (.err (.responseTimeout w.addr))] ∧ (expireWait s).wait = none)
            ∧ (s.now < w.deadline → b = [] ∧ (expireWait s).wait = some w) := by
  rcases expireWait_cases s with ⟨hahead, h⟩ | ⟨v, hv, hdue, h⟩ <;> rw [h]
  · refine ⟨[], (List.append_nil _).symm, fun hw => ⟨rfl, hw⟩, fun w hw => ⟨fun hpast => ?_, fun _ => ⟨rfl, hw⟩⟩⟩
    exact absurd (hahead w hw) (Nat.not_lt.2 hpast)
  · refine ⟨_, rfl, fun hw => ?_, fun w hw => ?_⟩
    · rw [hw] at hv
      cases hv
    · rw [hw] at hv
      cases hv
      exact ⟨fun _ => ⟨rfl, rfl⟩, fun hahead => absurd hdue (Nat.not_le.2 hahead)⟩

/-! ## What reset completion writes back -/

/-- In a map whose keys are distinct an entry is what its key finds. -/
theorem find?_fst_of_mem {α : Type} {l : List (Nat × α)} (hd : (l.map Prod.fst).Nodup) {x : Nat × α} (hx : x ∈ l) :
    l.find? (fun y => y.1 == x.1) = some x := by
  induction l with
  | nil => cases hx
  | cons y l ih =>
    rw [List.map_cons, List.nodup_cons] at hd
    rcases List.mem_cons.1 hx with rfl | hx
    · simp
    · have hne : y.1 ≠ x.1 := fun h => hd.1 (h ▸ List.mem_map_of_mem hx)
      rw [List.find?_cons_of_neg (by simpa using hne), ih hd.2 hx]

/-- When `restore` holds exactly the targets, all of it is written back (R240, R243). -/
theorem restorePairs_of_targets {r : ResetSeq} (ht : r.restore.map Prod.fst = r.targets) (hd : r.targets.Nodup) :
    restorePairs r = r.restore := by
  rw [← ht] at hd
  calc restorePairs r
      = r.restore.filterMap (fun x => r.restore.find? (fun y => y.1 == x.1)) := by
        rw [restorePairs, ← ht, List.filterMap_map]
        rfl
    _ = r.restore.filterMap some := List.filterMap_congr fun x hx => find?_fst_of_mem hd hx
    _ = r.restore := List.filterMap_some

/-- A tick that completes a reset gives every target its kept state and leaves the other rails (R243). -/
theorem railAt_tick_of_due {s : State} (hb : s.rst.busy = true) (hdue : s.rst.deadline ≤ s.now + 1) (hs : RailsInv s) :
    (∀ x ∈ s.rst.restore, x.1 < s.rail.length → railAt (tick s) x.1 = x.2)
      ∧ ∀ r, r ∉ s.rst.targets → railAt (tick s) r = railAt s r := by
  obtain ⟨-, hsettling⟩ := hs
  obtain ⟨-, htargets, hnodup⟩ := hsettling hb
  have hrail : (tick s).rail = (restoreRails s.rst.restore (s.setNow (s.now + 1))).rail := by
    rw [(tick_of_due hb hdue).1, restorePairs_of_targets htargets hnodup]
  rw [← htargets] at hnodup ⊢
  refine ⟨fun x hx hlen => ?_, fun r hr => ?_⟩
  · rw [railAt_congr hrail, railAt_restoreRails _ _ _ hnodup, find?_fst_of_mem hnodup hx]
    exact if_pos hlen
  · rw [railAt_congr hrail]
    exact railAt_restoreRails_of_not_mem _ _ r (fun x hx h => hr (h ▸ List.mem_map_of_mem hx))

/-- Settles O46: the three checks, each at the new time; the wait and RES are what the second makes of the first's. -/
theorem tickEffects : Obligations.TickEffects := by
  intro s
  obtain ⟨hreasm, hevt⟩ := tick_expiry s
  refine ⟨tick s, rfl, tick_now s, ⟨fun hnot => (tick_of_not_due hnot).symm, fun hdue => tick_rst_of_due hdue.1 hdue.2,
    fun hdue hs => railAt_tick_of_due hdue.1 hdue.2 hs, ?results⟩, ?reasm, ?evt, ?frame⟩
  case results =>
    obtain ⟨a, hres, hdone, hnot⟩ := completeReset_res (s.setNow (s.now + 1))
    obtain ⟨b, hres', hidle, hpending⟩ := expireWait_res_wait (completeReset (s.setNow (s.now + 1)))
    obtain ⟨hnow, hwait⟩ := completeReset_now_wait (s.setNow (s.now + 1))
    rw [hwait] at hidle hpending
    rw [hnow] at hpending
    rw [hres] at hres'
    exact ⟨a, b, hres', hdone, hnot, hidle, hpending⟩
  case reasm =>
    rw [hreasm]
    exact List.filter_congr fun x _ => (decide_not ..).symm.trans (decide_eq_decide.2 Nat.not_le)
  case evt => exact hevt
  case frame =>
    obtain ⟨_, _, _, _, _, _, h⟩ := tick_frame s
    rw [h]

/-! ## The deadlines -/

/-- A deadline that is not passed over and lies no further ahead than its timer (R342). -/
def Timed (now timer deadline : Nat) : Prop := deadline ≤ now + timer ∧ (now < deadline ∨ timer = 0)

/-- The deadline of a timer that is started now. -/
theorem timed_start (now timer : Nat) : Timed now timer (now + timer) :=
  ⟨Nat.le_refl _, by omega⟩

/-- A tick that does not reach the deadline keeps it. -/
theorem Timed.tick {now timer deadline : Nat} (h : Timed now timer deadline) (hahead : now + 1 < deadline) :
    Timed (now + 1) timer deadline :=
  ⟨h.1.trans (by omega), .inl hahead⟩

theorem deadlinesInv_iff (s : State) : DeadlinesInv s ↔
    (s.rst.busy = true → Timed s.now s.cfg.settleTicks s.rst.deadline)
      ∧ (∀ w, s.wait = some w → Timed s.now s.cfg.respTimeout w.deadline)
      ∧ ∀ x ∈ s.reasm, Timed s.now s.cfg.reasmTimeout x.2.deadline :=
  Iff.rfl

/-- While the time stands the deadlines stay as they should be, when each is an old one or that of a timer just started. A
part that is not given says that the field is the same. -/
structure KeepsDeadlines (s t : State) : Prop where
  cfg : t.cfg = s.cfg := by rfl
  now : t.now = s.now := by rfl
  rst : t.rst = s.rst ∨ t.rst.deadline = s.now + s.cfg.settleTicks := by exact .inl rfl
  wait : ∀ w, t.wait = some w → s.wait = some w ∨ w.deadline = s.now + s.cfg.respTimeout := by exact fun _ h => .inl h
  reasm : ∀ x ∈ t.reasm, (∃ y ∈ s.reasm, y.2.deadline = x.2.deadline) ∨ x.2.deadline = s.now + s.cfg.reasmTimeout := by
    exact fun x h => .inl ⟨x, h, rfl⟩

theorem KeepsDeadlines.keeps {s t : State} (h : KeepsDeadlines s t) (hs : DeadlinesInv s) : DeadlinesInv t := by
  rw [deadlinesInv_iff] at hs ⊢
  obtain ⟨hrst, hwait, hreasm⟩ := hs
  rw [h.cfg, h.now]
  refine ⟨fun hb => ?_, fun w hw => ?_, fun x hx => ?_⟩
  · rcases h.rst with hold | hnew
    · rw [hold] at hb ⊢
      exact hrst hb
    · exact hnew ▸ timed_start _ _
  · rcases h.wait w hw with hold | hnew
    · exact hwait w hold
    · exact hnew ▸ timed_start _ _
  · rcases h.reasm x hx with ⟨y, hy, hold⟩ | hnew
    · exact hold ▸ hreasm y hy
    · exact hnew ▸ timed_start _ _

/-- MBUS_REASSEMBLE starts the timer of a new entry and leaves that of a held one (R186, R188). -/
theorem reassemble_keepsDeadlines (m : MBusMessage) (s : State) : KeepsDeadlines s (reassemble m s).2 := by
  rcases reassemble_cases m s with ⟨-, h⟩ | ⟨e, -, he, ⟨-, h⟩ | ⟨-, h⟩⟩ <;> rw [h]
  · exact {}
  · exact { reasm := fun x hx => .inl ⟨x, List.mem_of_mem_filter hx, rfl⟩ }
  · refine { reasm := fun x hx => ?_ }
    rcases Table.mem_insert _ _ _ _ _ hx with rfl | hx
    · obtain ⟨-, ⟨-, -, hnew⟩ | ⟨e0, hheld, -, -, -, hold⟩⟩ := entryWith_some _ _ _ _ _ he
      · exact .inr hnew
      · obtain ⟨k, -, hmem⟩ := Table.mem_of_lookup _ _ _ _ hheld
        exact .inl ⟨(k, e0), hmem, hold.symm⟩
    · exact .inl ⟨x, hx, rfl⟩

/-- DISPATCH ends a wait or does what reassembly does (R216 to R218). -/
theorem dispatchUnit_keepsDeadlines (c : Channel) (body : Bytes) (s : State) :
    KeepsDeadlines s (dispatchUnit c body s) := by
  rcases dispatchUnit_cases c body s _ rfl with h | ⟨e, -, h⟩ | ⟨r, -, -, h⟩ | ⟨m, l, -, h⟩ <;> rw [h]
  · exact {}
  · exact {}
  · exact { wait := fun _ hw => by cases hw }
  · exact { reassemble_keepsDeadlines m s with }

/-- The power-down only ends deadlines (R234). -/
theorem powerDownTo_keepsDeadlines (downs : List Nat) (s : State) : KeepsDeadlines s (powerDownTo downs s) where
  wait w hw := .inl (by
    rw [powerDownTo_wait (fun _ => rfl)] at hw
    split at hw
    · cases hw
    · exact hw)
  reasm x hx := .inl ⟨x, by
    rw [powerDownTo_reasm (fun _ => rfl)] at hx
    split at hx
    · cases hx
    · exact hx, rfl⟩

/-- An accepted RESET starts its timer; its power-down and its flush only end deadlines (R240). -/
theorem acceptReset_keepsDeadlines (k : ResetKind) (s : State) : KeepsDeadlines s (acceptReset k s) := by
  have h := acceptReset_eq k s
  dsimp only at h
  rw [railsOff_eq_setRail] at h
  rw [h]
  exact {
    rst := .inr rfl
    wait := (powerDownTo_keepsDeadlines _ _).wait
    reasm := fun x hx => by cases hx }

theorem taken_keepsDeadlines (s t : State) (h : Taken s t) : KeepsDeadlines s t := by
  obtain ⟨_, _, _, _, rfl⟩ := h
  exact {}

/-- After a tick the deadlines left are those it did not reach (R342, R345). -/
theorem tick_keeps_deadlines (s : State) (hs : DeadlinesInv s) : DeadlinesInv (tick s) := by
  rw [deadlinesInv_iff] at hs ⊢
  obtain ⟨hrst, hwait, hreasm⟩ := hs
  have hcfg : (tick s).cfg = s.cfg := by
    obtain ⟨_, _, _, _, _, _, h⟩ := tick_frame s
    rw [h]
  rw [hcfg, tick_now]
  refine ⟨fun hb => ?_, fun w hw => ?_, fun x hx => ?_⟩
  · by_cases hdue : s.rst.busy = true ∧ s.rst.deadline ≤ s.now + 1
    · rw [tick_rst_of_due hdue.1 hdue.2] at hb
      cases hb
    · rw [(tick_of_not_due hdue).2] at hb ⊢
      exact (hrst hb).tick (Nat.not_le.1 fun hd => hdue ⟨hb, hd⟩)
  · obtain ⟨hpending, hahead⟩ := wait_of_tick_wait hw
    rw [tick_now] at hahead
    exact (hwait w hpending).tick hahead
  · rw [(tick_expiry s).1, List.mem_filter] at hx
    obtain ⟨hheld, hahead⟩ := hx
    exact (hreasm x hheld).tick (by simpa [entryDue] using hahead)

theorem effect_keeps_deadlines (s : State) (i : Instr) (t : State) (h : Effect s i t) (hs : DeadlinesInv s) :
    DeadlinesInv t := by
  cases h with
  | ticked => exact tick_keeps_deadlines s hs
  | reassembled m => exact KeepsDeadlines.keeps { reassemble_keepsDeadlines m s with } hs
  | railDown r =>
    exact KeepsDeadlines.keeps { powerDownTo_keepsDeadlines [r] (writeRail s r .off) with } hs
  | resetBegun k => exact (acceptReset_keepsDeadlines k s).keeps hs
  | issued a o p b => exact KeepsDeadlines.keeps { wait := fun w hw => by cases hw; exact .inr rfl } hs
  | cancelled => exact KeepsDeadlines.keeps { wait := fun _ hw => by cases hw } hs
  | byteTaken b =>
    obtain ⟨_, _, _, h⟩ := rxByte_frame b s
    rw [h]
    exact KeepsDeadlines.keeps {} hs
  | dispatched c body rest => exact (dispatchUnit_keepsDeadlines c body (s.setRxq rest)).keeps hs
  | _ => exact KeepsDeadlines.keeps {} hs

/-! ## The errors that leave the block -/

/-- Going from `s` to `t` lets out only errors that a caller may see (R320). A log that is not given is the same. -/
structure ReportsOnly (s t : State) : Prop where
  ret : ∀ e, Result.err e ∈ t.ret → Result.err e ∈ s.ret ∨ e.reportable = true := by exact fun _ h => .inl h
  evt : ∀ e, Event.error e ∈ t.evt → Event.error e ∈ s.evt ∨ e.reportable = true := by exact fun _ h => .inl h
  res : ∀ e, LateResult.einSend (.err e) ∈ t.res → LateResult.einSend (.err e) ∈ s.res ∨ e.reportable = true := by
    exact fun _ h => .inl h

theorem ReportsOnly.keeps {s t : State} (h : ReportsOnly s t) (hs : ErrorsInv s) : ErrorsInv t := by
  obtain ⟨hret, hevt, hres⟩ := hs
  exact ⟨fun e he => (h.ret e he).elim (hret e) id, fun e he => (h.evt e he).elim (hevt e) id,
    fun e he => (h.res e he).elim (hres e) id⟩

/-- A log grows by entries each of which, if it is an error, may be seen. -/
theorem mem_append_reportable {α : Type} {f : Err → α} {l m : List α} (h : ∀ e, f e ∈ m → e.reportable = true) (e : Err)
    (he : f e ∈ l ++ m) : f e ∈ l ∨ e.reportable = true :=
  (List.mem_append.1 he).imp_right (h e)

/-- What expiry and flush report may be seen (R190, R191). -/
theorem reportable_of_mem_timeoutEvents {l : List (Key × ReasmEntry)} {e : Err}
    (he : Event.error e ∈ l.map timeoutEvent) : e.reportable = true := by
  obtain ⟨x, -, hx⟩ := List.mem_map.1 he
  cases hx
  rfl

theorem powerDownTo_reportsOnly (downs : List Nat) (s : State) : ReportsOnly s (powerDownTo downs s) where
  evt := mem_append_reportable fun e he => by
    split at he
    · exact reportable_of_mem_timeoutEvents he
    · cases he
  res := mem_append_reportable fun e he => by
    split at he
    · cases List.mem_singleton.1 he
      rfl
    · cases he

theorem acceptReset_reportsOnly (k : ResetKind) (s : State) : ReportsOnly s (acceptReset k s) := by
  have h := acceptReset_eq k s
  dsimp only at h
  rw [railsOff_eq_setRail] at h
  rw [h]
  refine { evt := ?_, res := (powerDownTo_reportsOnly _ _).res }
  dsimp only
  rw [powerDownTo_flush]
  exact mem_append_reportable fun e he => reportable_of_mem_timeoutEvents he

theorem dispatchUnit_reportsOnly (c : Channel) (body : Bytes) (s : State) : ReportsOnly s (dispatchUnit c body s) := by
  rcases dispatchUnit_cases c body s _ rfl with h | ⟨v, hv, h⟩ | ⟨r, -, hr, h⟩ | ⟨m, l, hl, h⟩ <;> rw [h]
  · exact {}
  · exact { evt := mem_append_reportable fun e he => hv e (List.mem_singleton.1 he).symm }
  · refine { res := mem_append_reportable fun e he => hr e ?_ }
    cases List.mem_singleton.1 he
    rfl
  · obtain ⟨_, ht⟩ := reassemble_state m s
    rw [ht]
    exact { evt := mem_append_reportable fun e he => absurd he (hl e) }

theorem tick_reportsOnly (s : State) : ReportsOnly s (tick s) where
  ret e he := .inl (tick_ret s ▸ he)
  evt := by
    rw [(tick_expiry s).2]
    exact mem_append_reportable fun e he => reportable_of_mem_timeoutEvents he
  res := by
    have hreset : ReportsOnly s (completeReset (s.setNow (s.now + 1))) := by
      rcases completeReset_cases (s.setNow (s.now + 1)) with ⟨-, h⟩ | ⟨-, -, h⟩ <;> rw [h]
      · exact {}
      · exact { res := mem_append_reportable fun e he => by cases List.mem_singleton.1 he }
    change ∀ e, _ ∈ (expireWait (completeReset (s.setNow (s.now + 1)))).res → _
    rcases expireWait_cases (completeReset (s.setNow (s.now + 1))) with ⟨-, h⟩ | ⟨w, -, -, h⟩ <;> rw [h]
    · exact hreset.res
    · intro e he
      rcases List.mem_append.1 he with he | he
      · exact hreset.res e he
      · cases List.mem_singleton.1 he
        exact .inr rfl

/-- Reassembly's results are no errors (R186). -/
theorem reasmResult_ne_err (x : Option MBusLogical) (e : Err) : Result.err e ∉ [reasmResult x] := by
  cases x <;> exact fun h => by cases List.mem_singleton.1 h

theorem taken_reportsOnly (s t : State) (h : Taken s t) : ReportsOnly s t := by
  obtain ⟨_, _, _, _, rfl⟩ := h
  exact {}

/-- A result that is no error adds nothing to what is reported. -/
theorem ReportsOnly.pushRet {s t : State} (h : ReportsOnly s t) {r : Result} (hr : ∀ e, r ≠ .err e) :
    ReportsOnly s (t.pushRet [r]) :=
  { h with
    ret := fun e he => (List.mem_append.1 he).elim (h.ret e) fun hin => absurd (List.mem_singleton.1 hin).symm (hr e) }

theorem effect_reportsOnly (s : State) (i : Instr) (t : State) (h : Effect s i t) : ReportsOnly s t := by
  cases h with
  | result _ r hr => exact { ret := mem_append_reportable fun e he => hr e (List.mem_singleton.1 he).symm }
  | reassembled m =>
    obtain ⟨_, ht⟩ := reassemble_state m s
    rw [ht]
    exact { ret := mem_append_reportable fun e he => absurd he (reasmResult_ne_err _ e) }
  | wrote _ c bs nid r hr => exact ReportsOnly.pushRet {} hr
  | received => exact ReportsOnly.pushRet {} nofun
  | railWritten => exact ReportsOnly.pushRet {} nofun
  | railDown r =>
    refine ReportsOnly.pushRet ?_ nofun
    exact { powerDownTo_reportsOnly [r] (writeRail s r .off) with }
  | resetBegun k => exact acceptReset_reportsOnly k s
  | cancelled =>
    refine ReportsOnly.pushRet ?_ nofun
    exact { res := mem_append_reportable fun e he => by cases List.mem_singleton.1 he }
  | forwarded => exact ReportsOnly.pushRet {} nofun
  | byteTaken b =>
    obtain ⟨_, _, _, h⟩ := rxByte_frame b s
    rw [h]
    exact {}
  | dispatched c body rest => exact { dispatchUnit_reportsOnly c body (s.setRxq rest) with }
  | ticked => exact tick_reportsOnly s
  | _ => exact {}

/-- Settles O60: taking a turn and every effect keep the deadlines, and let out only errors that a caller may see. -/
theorem stepKeepsDeadlinesAndErrors : Obligations.StepKeepsDeadlinesAndErrors := by
  intro s t hd he h
  exact ⟨step_keeps (fun u v hv hu => (taken_keepsDeadlines u v hv).keeps hu) effect_keeps_deadlines s t hd h,
    step_keeps (fun u v hv hu => (taken_reportsOnly u v hv).keeps hu)
      (fun u i v hv hu => (effect_reportsOnly u i v hv).keeps hu) s t he h⟩

end Sys2Proof.Machine
end

section
/-! PROOFS. What no instruction reads (spec 10_state.md R37; 60_exceptions.md R322, R328): the recorder's flag, and what has
been reported, as a result, on EVT and on RES. The idea: putting other values there is a map of states that commutes with
every update the meanings are made of, so it commutes with every instruction. -/

namespace Sys2Proof.Machine

/-- A past that a state may have had: another value of the recorder's flag, and reports made before those that stand in the
logs. -/
structure Past where
  flag : Bool → Bool
  ret : List Result
  evt : List Event
  res : List LateResult

/-- The state with that past. -/
def Past.on (p : Past) (s : State) : State :=
  { s with recFail := p.flag s.recFail, ret := p.ret ++ s.ret, evt := p.evt ++ s.evt, res := p.res ++ s.res }

/-- The outcome with that past. -/
def Past.out (p : Past) : Out → Out
  | .next t => .next (p.on t)
  | .fault r => .fault r
  | .refused r => .refused r

/-! ## The fields the meanings read, and the updates they are made of -/

section
variable (p : Past) (s : State)

@[simp] theorem Past.on_cfg : (p.on s).cfg = s.cfg := rfl
@[simp] theorem Past.on_rail : (p.on s).rail = s.rail := rfl
@[simp] theorem Past.on_rst : (p.on s).rst = s.rst := rfl
@[simp] theorem Past.on_now : (p.on s).now = s.now := rfl
@[simp] theorem Past.on_rx : (p.on s).rx = s.rx := rfl
@[simp] theorem Past.on_rxq : (p.on s).rxq = s.rxq := rfl
@[simp] theorem Past.on_reasm : (p.on s).reasm = s.reasm := rfl
@[simp] theorem Past.on_mbusNextId : (p.on s).mbusNextId = s.mbusNextId := rfl
@[simp] theorem Past.on_wait : (p.on s).wait = s.wait := rfl
@[simp] theorem Past.on_rxIn : (p.on s).rxIn = s.rxIn := rfl
@[simp] theorem Past.on_held : (p.on s).held = s.held := rfl
@[simp] theorem Past.on_freeCount : (p.on s).freeCount = s.freeCount := rfl
@[simp] theorem Past.railAt_on (r : Nat) : railAt (p.on s) r = railAt s r := rfl
@[simp] theorem Past.decodable_on (c : Channel) : decodable (p.on s) c = decodable s c := rfl
@[simp] theorem Past.notEnergized_on (c : Channel) : notEnergized (p.on s) c = notEnergized s c := rfl

@[simp] theorem Past.setRail_on (v : List RailState) : (p.on s).setRail v = p.on (s.setRail v) := rfl
@[simp] theorem Past.setRst_on (v : ResetSeq) : (p.on s).setRst v = p.on (s.setRst v) := rfl
@[simp] theorem Past.setNow_on (v : Nat) : (p.on s).setNow v = p.on (s.setNow v) := rfl
@[simp] theorem Past.setRx_on (v : RxParser) : (p.on s).setRx v = p.on (s.setRx v) := rfl
@[simp] theorem Past.setRxq_on (v : List (Channel × Bytes)) : (p.on s).setRxq v = p.on (s.setRxq v) := rfl
@[simp] theorem Past.setReasm_on (v : List (Key × ReasmEntry)) : (p.on s).setReasm v = p.on (s.setReasm v) := rfl
@[simp] theorem Past.setNextId_on (v : Byte) : (p.on s).setNextId v = p.on (s.setNextId v) := rfl
@[simp] theorem Past.setWait_on (v : Option Wait) : (p.on s).setWait v = p.on (s.setWait v) := rfl
@[simp] theorem Past.setRxIn_on (v : Bytes) : (p.on s).setRxIn v = p.on (s.setRxIn v) := rfl
@[simp] theorem Past.setHeld_on (v : List HeldCall) : (p.on s).setHeld v = p.on (s.setHeld v) := rfl
@[simp] theorem Past.setFreeCount_on (v : Nat) : (p.on s).setFreeCount v = p.on (s.setFreeCount v) := rfl
@[simp] theorem Past.pushTx_on (v : Bytes) : (p.on s).pushTx v = p.on (s.pushTx v) := rfl
@[simp] theorem Past.pushRec_on (v : List Observation) : (p.on s).pushRec v = p.on (s.pushRec v) := rfl
@[simp] theorem Past.pushSnoop_on (v : List SnoopRequest) : (p.on s).pushSnoop v = p.on (s.pushSnoop v) := rfl
@[simp] theorem Past.pushRxDone_on (v : Bytes) : (p.on s).pushRxDone v = p.on (s.pushRxDone v) := rfl

@[simp] theorem Past.pushRet_on (v : List Result) : (p.on s).pushRet v = p.on (s.pushRet v) := by
  simp only [Past.on, State.pushRet, List.append_assoc]

@[simp] theorem Past.pushEvt_on (v : List Event) : (p.on s).pushEvt v = p.on (s.pushEvt v) := by
  simp only [Past.on, State.pushEvt, List.append_assoc]

@[simp] theorem Past.pushRes_on (v : List LateResult) : (p.on s).pushRes v = p.on (s.pushRes v) := by
  simp only [Past.on, State.pushRes, List.append_assoc]

/-! ## The shared operations -/

@[simp] theorem Past.reply_on (r : Result) : reply r (p.on s) = p.out (reply r s) := by
  simp only [reply, Past.pushRet_on, Past.out]

@[simp] theorem Past.raise_on (e : Err) : raise e (p.on s) = p.out (raise e s) := p.reply_on s _

@[simp] theorem Past.stopWith_on (st : Stop) : stopWith st (p.on s) = p.out (stopWith st s) := by
  cases st with
  | raised e => exact p.raise_on s e
  | outside r => rfl

theorem Past.settle_on (r : Result) (x : Except Stop State) :
    settle r (x.map p.on) (p.on s) = p.out (settle r x s) := by
  cases x with
  | ok t => exact p.reply_on t r
  | error st => exact p.stopWith_on s st

@[simp] theorem Past.endWait_on (r : EinOutcome) : endWait (p.on s) r = p.on (endWait s r) := by
  simp only [endWait, Past.pushRes_on, Past.setWait_on]

theorem Past.forwardSnoop_on (q : SnoopRequest) : forwardSnoop q (p.on s) = p.out (forwardSnoop q s) := by
  simp only [forwardSnoop, on_freeCount, pushSnoop_on, setFreeCount_on, reply_on]

theorem Past.muxWrite_on (c : Channel) (body : Bytes) : muxWrite c body (p.on s) = (muxWrite c body s).map p.on := by
  cases hd : decodable s c with
  | false => simp [muxWrite, hd, Except.map]
  | true =>
    by_cases hlen : 65535 < body.length
    · simp [muxWrite, hd, hlen, Except.map]
    · simp [muxWrite, observe, hd, hlen, Except.map]

theorem Past.buildAndWrite_on (c : Channel) (build : Except Stop Bytes) :
    buildAndWrite c build (p.on s) = (buildAndWrite c build s).map p.on := by
  cases hd : decodable s c with
  | false => simp [buildAndWrite, hd, Except.map]
  | true =>
    cases build with
    | error st => simp [buildAndWrite, hd, Except.map]
    | ok body => simp [buildAndWrite, hd, muxWrite_on]

theorem Past.sendFragments_on (ms : List MBusMessage) :
    sendFragments ms (p.on s) = (sendFragments ms s).map p.on := by
  induction ms generalizing s with
  | nil => rfl
  | cons m ms ih =>
    simp only [sendFragments, on_cfg, muxWrite_on]
    cases mbusBuild s.cfg m with
    | error st => rfl
    | ok body =>
      cases h : muxWrite .mbus body s with
      | error st => simp only [h, Except.map]
      | ok t => simpa only [h, Except.map] using ih t

/-- MBUS_REASSEMBLE (R186). -/
theorem Past.reassemble_on (m : MBusMessage) :
    reassemble m (p.on s) = ((reassemble m s).1, p.on (reassemble m s).2) := by
  cases hb : badNumbering s.cfg m with
  | true => simp [reassemble, hb]
  | false =>
    cases he : entryWith s.cfg s.now m (Table.lookup Key.ord m.key s.reasm) with
    | none => simp [reassemble, hb, he]
    | some e =>
      by_cases hfull : e.chunks.length = e.count
      · simp [reassemble, hb, he, hfull]
      · simp [reassemble, hb, he, hfull]

/-! ## The rails -/

@[simp] theorem Past.writeRail_on (r : Nat) (st : RailState) : writeRail (p.on s) r st = p.on (writeRail s r st) := rfl

theorem Past.restoreRails_on (pairs : List (Nat × RailState)) :
    restoreRails pairs (p.on s) = p.on (restoreRails pairs s) := by
  induction pairs generalizing s with
  | nil => rfl
  | cons x pairs ih => exact ih (writeRail s x.1 x.2)

@[simp] theorem Past.railsOff_on (rails : List Nat) : railsOff rails (p.on s) = p.on (railsOff rails s) := by
  rw [railsOff_eq, railsOff_eq, restoreRails_on]

@[simp] theorem Past.flushReasm_on : flushReasm (p.on s) = p.on (flushReasm s) := by
  simp only [flushReasm, on_reasm, pushEvt_on, setReasm_on]

@[simp] theorem Past.powerDown_on (downs : List Nat) : powerDown downs (p.on s) = p.on (powerDown downs s) := by
  simp only [powerDown_eq, powerDownTo, Past.on, List.append_assoc]

theorem Past.acceptReset_on (k : ResetKind) : acceptReset k (p.on s) = p.on (acceptReset k s) := by
  simp only [acceptReset, startReset, on_cfg, on_now, railAt_on, railsOff_on, powerDown_on, flushReasm_on, setRst_on]
  rfl

/-! ## The clock -/

theorem Past.completeReset_on : completeReset (p.on s) = p.on (completeReset s) := by
  simp only [completeReset, clearBusy, on_rst, on_now, restoreRails_on, setRst_on, pushRes_on]
  split
  · rfl
  · rfl

theorem Past.expireWait_on : expireWait (p.on s) = p.on (expireWait s) := by
  simp only [expireWait, on_wait, on_now, endWait_on]
  split
  · rfl
  · split
    · rfl
    · rfl

theorem Past.tick_on : tick (p.on s) = p.on (tick s) := by
  simp only [tick, expireReasm, on_now, setNow_on, completeReset_on, expireWait_on, on_reasm, pushEvt_on, setReasm_on]

/-! ## The receiver -/

theorem Past.completeRecord_on : completeRecord (p.on s) = p.on (completeRecord s) := by
  simp only [completeRecord_eq, on_rx, on_rxq, decodable_on]
  rfl

/-- RX_BYTE, in each phase of the parser (R206). -/
theorem Past.rxByte_on (b : Byte) : rxByte b (p.on s) = p.on (rxByte b s) := by
  simp only [rxByte, observe, pushRxDone_on, on_rx, on_cfg, decodable_on, setRx_on, pushRec_on, completeRecord_on]
  split
  · split
    · rfl
    · rfl
  · rfl
  · split
    · rfl
    · rfl
  · split
    · rfl
    · rfl

/-- DISPATCH, for each channel (R216 to R218). -/
theorem Past.dispatchUnit_on (c : Channel) (body : Bytes) :
    dispatchUnit c body (p.on s) = p.on (dispatchUnit c body s) := by
  cases c with
  | goc =>
    simp only [dispatchUnit, dispatchGoc, on_cfg, pushEvt_on]
    split
    · rfl
    · split
      · rfl
      · rfl
  | ein =>
    simp only [dispatchUnit, dispatchEin, on_cfg, on_wait, pushEvt_on, endWait_on]
    split
    · rfl
    · rfl
    · split
      · rfl
      · rfl
    · rfl
  | mbus =>
    simp only [dispatchUnit, dispatchMbus, on_cfg, reassemble_on, pushEvt_on]
    split
    · rfl
    · rename_i m _
      rcases reassemble m s with ⟨_ | x, t⟩
      · rfl
      · exact p.pushEvt_on t _

end

/-! ## Every instruction -/

/-- An operation that answers by the configuration reads no past. -/
theorem Past.out_of_answersByCfg (p : Past) {c : Cfg} {f : State → Out} (h : AnswersByCfg c f) {s : State}
    (hs : s.cfg = c) : f (p.on s) = p.out (f s) := by
  rcases h with ⟨r, hr⟩ | ⟨r, hr⟩
  · rw [hr s hs, hr (p.on s) hs, pushRet_on, Past.out]
  · rw [hr s hs, hr (p.on s) hs, Past.out]

theorem Past.exec_on_of_pure (p : Past) (i : Instr) (s : State) (h : isPureInstr i = true) :
    exec i (p.on s) = p.out (exec i s) :=
  p.out_of_answersByCfg (exec_answersByCfg_of_pure s.cfg i h) rfl

/-- No instruction but REC_FAIL, which writes the flag, does otherwise under another past. -/
theorem Past.exec_on (p : Past) (i : Instr) (s : State) (hflag : i = .recFail → p.flag = id) :
    exec i (p.on s) = p.out (exec i s) := by
  cases i with
  | gocEncode | gocDecode | gocSer | gocDeser | einBuild | einParse | mbusBuild | mbusParse | mbusFragment =>
    exact p.exec_on_of_pure _ s rfl
  | mbusReassemble src dst mid idx cnt chunk =>
    simp only [exec, execMbusReassemble, reassemble_on, reply_on]
  | muxSend c body => simp only [exec, execMuxSend, muxWrite_on, settle_on]
  | muxReceive =>
    simp only [exec, execMuxReceive, on_rxq, setRxq_on, reply_on]
    split
    · rfl
    · rfl
  | setRail r st =>
    simp only [exec, execSetRail, on_cfg, on_rst, railAt_on, writeRail_on, powerDown_on, raise_on]
    split
    · rfl
    · split
      · rfl
      · split
        · exact p.reply_on _ _
        · exact p.reply_on _ _
  | reset k =>
    simp only [exec, execReset, on_rst, acceptReset_on, raise_on]
    split
    · rfl
    · rfl
  | gocSend bits => simp only [exec, execGocSend, on_cfg, buildAndWrite_on, settle_on]
  | einSend addr opcode payload =>
    simp only [exec, execEinSend, on_wait, on_held, on_cfg, setHeld_on, buildAndWrite_on]
    split
    · rfl
    · cases buildAndWrite .ein (einBuild s.cfg addr opcode payload) s with
      | error st => exact p.stopWith_on s st
      | ok t => rfl
  | mbusSend src dst payload =>
    simp only [exec, execMbusSend, decodable_on, notEnergized_on, on_cfg, on_mbusNextId, sendFragments_on, raise_on,
      stopWith_on]
    split
    · rfl
    · split
      · rfl
      · rename_i ms _
        cases sendFragments ms s with
        | error st => rfl
        | ok t => exact p.reply_on (t.setNextId _) _
  | cancel =>
    simp only [exec, execCancel, on_wait, endWait_on]
    split
    · exact p.reply_on s _
    · exact p.reply_on _ _
  | snoopStart | snoopStop | snoopExport => exact p.forwardSnoop_on s _
  | rxByte b => exact congrArg Host.Outcome.next (p.rxByte_on s b)
  | dispatch =>
    simp only [exec, execDispatch, on_rxq, setRxq_on, dispatchUnit_on]
    split
    · rfl
    · rfl
  | tick => exact congrArg Host.Outcome.next (p.tick_on s)
  | recFail =>
    change Host.Outcome.next ((p.on s).setRecFail true) = .next (p.on (s.setRecFail true))
    simp only [State.setRecFail, Past.on, hflag rfl, id]
  | record pre body =>
    simp only [exec, execRecord, peerSend, on_rxIn, setRxIn_on]
    split
    · rfl
    · rfl
  | pulseWord edge dur =>
    simp only [exec, execPulseWord, peerSend, on_rxIn, setRxIn_on]
    split
    · rfl
    · rfl
  | einBody dest opcode payload checksum =>
    simp only [exec, execEinBody, peerSend, on_rxIn, setRxIn_on]
    split
    · rfl
    · rfl
  | mbusBody src dst mid idx cnt chunk crc =>
    simp only [exec, execMbusBody, peerSend, on_rxIn, setRxIn_on]
    split
    · rfl
    · rfl

theorem Past.exec_on_next {p : Past} {i : Instr} {s t : State} (hflag : i = .recFail → p.flag = id)
    (h : exec i s = .next t) : exec i (p.on s) = .next (p.on t) := by
  rw [p.exec_on i s hflag, h, Past.out]

theorem Past.exec_on_refused {p : Past} {i : Instr} {s : State} {r : Refusal} (hflag : i = .recFail → p.flag = id)
    (h : exec i s = .refused r) : exec i (p.on s) = .refused r := by
  rw [p.exec_on i s hflag, h, Past.out]

/-! ## The recorder's flag -/

/-- The past that differs in the recorder's flag alone. -/
def Past.ofFlag (b : Bool) : Past := ⟨fun _ => b, [], [], []⟩

theorem Past.ofFlag_on (b : Bool) (s : State) : (Past.ofFlag b).on s = s.setRecFail b := rfl

theorem exec_setRecFail_of_next {i : Instr} {s t : State} (hi : i ≠ .recFail) (h : exec i s = .next t) (b : Bool) :
    exec i (s.setRecFail b) = .next (t.setRecFail b) := by
  rw [← Past.ofFlag_on, ← Past.ofFlag_on]
  exact Past.exec_on_next (fun hrec => absurd hrec hi) h

theorem exec_setRecFail_of_refused {i : Instr} {s : State} {r : Refusal} (hi : i ≠ .recFail)
    (h : exec i s = .refused r) (b : Bool) : exec i (s.setRecFail b) = .refused r := by
  rw [← Past.ofFlag_on]
  exact Past.exec_on_refused (fun hrec => absurd hrec hi) h

/-- An instruction other than REC_FAIL leaves the flag: it does the same when the flag is put at the value it has. -/
theorem recFail_of_next {i : Instr} {s t : State} (hi : i ≠ .recFail) (h : exec i s = .next t) :
    t.recFail = s.recFail := by
  have hself : exec i s = .next (t.setRecFail s.recFail) := exec_setRecFail_of_next hi h s.recFail
  have ht : t = t.setRecFail s.recFail := Host.Outcome.next.inj (h.symm.trans hself)
  simpa using congrArg State.recFail ht

/-- Settles O47: putting the flag at another value commutes with every instruction that does not write it. -/
theorem recorderFailureIsInvisible : Obligations.RecorderFailureIsInvisible :=
  ⟨fun _ => rfl, fun _ b _ hi => ⟨fun _ h => ⟨exec_setRecFail_of_next hi h b, recFail_of_next hi h⟩,
    fun _ h => exec_setRecFail_of_refused hi h b⟩⟩

/-! ## The reports -/

/-- The past that differs in the reports alone. -/
def Past.ofLogs (ret : List Result) (evt : List Event) (res : List LateResult) : Past := ⟨id, ret, evt, res⟩

/-- The state with nothing reported. -/
def State.unreported (s : State) : State := { s with ret := [], evt := [], res := [] }

/-- Reports put before none are the state's reports. -/
theorem Past.ofLogs_on_unreported (ret : List Result) (evt : List Event) (res : List LateResult) (s : State) :
    (Past.ofLogs ret evt res).on s.unreported = { s with ret := ret, evt := evt, res := res } := by
  simp only [Past.on, Past.ofLogs, State.unreported, List.append_nil, id]

/-- Whatever has been reported, an instruction has one and the same outcome, the one it has with nothing reported. -/
theorem exec_with_logs (i : Instr) (s : State) (ret : List Result) (evt : List Event) (res : List LateResult) :
    exec i { s with ret := ret, evt := evt, res := res } = (Past.ofLogs ret evt res).out (exec i s.unreported) := by
  rw [← Past.ofLogs_on_unreported]
  exact Past.exec_on _ i s.unreported (fun _ => rfl)

/-- A next state appends the same reports, whatever was reported before. -/
theorem exec_next_with_logs {i : Instr} {s t : State} (h : exec i s = .next t) (ret : List Result) (evt : List Event)
    (res : List LateResult) :
    ∃ a b c, t.ret = s.ret ++ a ∧ t.evt = s.evt ++ b ∧ t.res = s.res ++ c
      ∧ exec i { s with ret := ret, evt := evt, res := res }
          = .next { t with ret := ret ++ a, evt := evt ++ b, res := res ++ c } := by
  have hs : exec i s = (Past.ofLogs s.ret s.evt s.res).out (exec i s.unreported) := exec_with_logs i s s.ret s.evt s.res
  rw [exec_with_logs]
  cases hu : exec i s.unreported with
  | next u =>
    rw [h, hu] at hs
    cases hs
    exact ⟨u.ret, u.evt, u.res, rfl, rfl, rfl, rfl⟩
  | fault r => cases r
  | refused r =>
    rw [h, hu] at hs
    cases hs

theorem exec_refused_with_logs {i : Instr} {s : State} {r : Refusal} (h : exec i s = .refused r) (ret : List Result)
    (evt : List Event) (res : List LateResult) :
    exec i { s with ret := ret, evt := evt, res := res } = .refused r := by
  have hs : exec i s = (Past.ofLogs s.ret s.evt s.res).out (exec i s.unreported) := exec_with_logs i s s.ret s.evt s.res
  rw [exec_with_logs]
  cases hu : exec i s.unreported with
  | next u =>
    rw [h, hu] at hs
    cases hs
  | fault r => cases r
  | refused r' =>
    rw [h, hu] at hs
    cases hs
    rfl

end Sys2Proof.Machine
end

section
/-! PROOFS. Failing and completing (spec 60_exceptions.md R322, R330; 93_implementation_defined.md U1 to U5). The idea: an
error is returned by the effect that writes nothing else, and what an instruction is refused for is decided by its operands,
the rails and the configuration before anything is written. -/

namespace Sys2Proof.Machine

/-! ## A failed operation -/

/-- An effect whose last result is an error has written that result alone (R330). -/
theorem effect_of_err {s t : State} {i : Instr} {e : Err} (h : Effect s i t) (he : t.ret = s.ret ++ [.err e]) :
    t = s.pushRet [.err e] := by
  have unchanged (hret : t.ret = s.ret) : t = s.pushRet [.err e] :=
    absurd (hret.symm.trans he) (by simp)
  have other {r : Result} (hret : t.ret = s.ret ++ [r]) (hr : r ≠ .err e) : t = s.pushRet [.err e] :=
    absurd (List.singleton_inj.1 (List.append_cancel_left (hret.symm.trans he))) hr
  cases h with
  | result _ r =>
    have hr : [r] = [.err e] := List.append_cancel_left he
    rw [hr]
  | reassembled m =>
    obtain ⟨_, ht⟩ := reassemble_state m s
    refine other (by rw [ht]; rfl) fun hr => reasmResult_ne_err _ e (List.mem_singleton.2 hr.symm)
  | wrote _ c bs nid r hr => exact other rfl (hr e)
  | received => exact other rfl nofun
  | railWritten => exact other rfl nofun
  | railDown => exact other rfl nofun
  | resetBegun k =>
    obtain ⟨_, _, _, _, _, _, ht⟩ := acceptReset_frame k s
    exact unchanged (by rw [ht])
  | cancelled => exact other rfl nofun
  | forwarded => exact other rfl nofun
  | byteTaken b =>
    obtain ⟨_, _, _, ht⟩ := rxByte_frame b s
    exact unchanged (by rw [ht])
  | dispatched c body rest => exact unchanged (dispatchUnit_ret c body (s.setRxq rest))
  | ticked => exact unchanged (tick_ret s)
  | _ => exact unchanged rfl

/-- Settles O44: the inversion of `exec`, and what an effect with an error is. -/
theorem failedOperationChangesNothing : Obligations.FailedOperationChangesNothing :=
  fun i s t _ h he => effect_of_err (exec_effect i s t h) he

/-! ## Instructions that always have a next state -/

theorem answerErr_completes (x : Except Err Result) (s : State) : ∃ t, answerErr x s = .next t := by
  cases x with
  | ok v => exact ⟨_, rfl⟩
  | error e => exact ⟨_, rfl⟩

theorem exec_muxReceive_completes (s : State) : ∃ t, exec .muxReceive s = .next t := by
  simp only [exec, execMuxReceive]
  split
  · exact ⟨_, rfl⟩
  · exact ⟨_, rfl⟩

theorem exec_reset_completes (k : ResetKind) (s : State) : ∃ t, exec (.reset k) s = .next t := by
  cases hb : s.rst.busy with
  | true => exact ⟨_, exec_reset_of_busy k hb⟩
  | false => exact ⟨_, exec_reset_of_idle k hb⟩

theorem exec_setRail_completes {r : Nat} (st : RailState) {s : State} (h : r < s.cfg.nrails) :
    ∃ t, exec (.setRail r st) s = .next t := by
  cases hb : s.rst.busy with
  | true => exact ⟨_, exec_setRail_of_busy st h hb⟩
  | false => exact ⟨_, exec_setRail_of_idle st h hb⟩

theorem exec_dispatch_completes (s : State) : ∃ t, exec .dispatch s = .next t := by
  cases hq : s.rxq with
  | nil => exact ⟨_, exec_dispatch_of_nil hq⟩
  | cons x rest => exact ⟨_, exec_dispatch_of_cons hq⟩

/-! ## The sends -/

/-- Past the gate a body that is refused, or is too long for a record, is refused (R202, R262, R265). -/
theorem buildAndWrite_refused {c : Channel} {build : Except Stop Bytes} {s : State} (hup : railAt s (s.cfg.gov c) ≠ .off)
    (hbad : (∃ r, build = .error (.outside r)) ∨ ∃ body, build = .ok body ∧ 65535 < body.length) :
    ∃ r, buildAndWrite c build s = .error (.outside r) := by
  have hgate : ¬ decodable s c = false := mt (decodable_eq_false s c).1 hup
  rcases hbad with ⟨r, rfl⟩ | ⟨body, rfl, hlen⟩
  · exact ⟨r, if_neg hgate⟩
  · refine ⟨.bodyTooLong, (if_neg hgate).trans ?_⟩
    change muxWrite c body s = _
    rw [muxWrite, if_neg hgate, if_pos hlen]

theorem exec_gocSend_refused {bits : List Bit} {s : State} (hup : railAt s (s.cfg.gov .goc) ≠ .off)
    (hlen : s.cfg.gocMaxBits < bits.length) : ∃ r, exec (.gocSend bits) s = .refused r := by
  have hbody : gocBody s.cfg bits = .error (.outside .gocTooManyBits) := by
    rw [gocBody, gocEncode, if_pos hlen]
  obtain ⟨r, hr⟩ := buildAndWrite_refused hup (.inl ⟨_, hbody⟩)
  refine ⟨r, ?_⟩
  change settle .ok (buildAndWrite .goc (gocBody s.cfg bits) s) s = _
  rw [hr]
  rfl

/-- EIN_SEND of a payload that EIN_BUILD refuses, or whose frame no record can hold (R152, R202, R265). -/
theorem exec_einSend_refused {addr opcode : Byte} {payload : Bytes} {s : State} (hw : s.wait = none)
    (hup : railAt s (s.cfg.gov .ein) ≠ .off)
    (hlen : s.cfg.einMaxPayload < payload.length ∨ 65535 < 3 + payload.length + s.cfg.einCkLen) :
    ∃ r, exec (.einSend addr opcode payload) s = .refused r := by
  have hbad : (∃ r, einBuild s.cfg addr opcode payload = .error (.outside r))
      ∨ ∃ body, einBuild s.cfg addr opcode payload = .ok body ∧ 65535 < body.length := by
    by_cases hmax : s.cfg.einMaxPayload < payload.length
    · exact .inl ⟨_, by rw [einBuild, if_pos hmax]⟩
    · refine .inr ⟨_, by rw [einBuild, if_neg hmax], ?_⟩
      have hrecord := hlen.resolve_left hmax
      simp only [einHead, List.length_append, List.length_cons, einCk_length]
      omega
  obtain ⟨r, hr⟩ := buildAndWrite_refused hup hbad
  refine ⟨r, ?_⟩
  change execEinSend addr opcode payload s = _
  rw [execEinSend, hw, hr]
  rfl

/-- What fragmenting gives inside its domain: fragments whose chunks fit their length byte, or an error (R180). -/
theorem mbusFragment_of_fragmentsFit {c : Cfg} (hsizes : c.sizesOk = true) (src mid : Byte) {dst : Byte} {payload : Bytes}
    (h : fragmentsFit c dst payload) :
    (∃ ms, mbusFragment c src dst mid payload = .ok ms ∧ ∀ m ∈ ms, m.chunk.length ≤ 255)
      ∨ ∃ e, mbusFragment c src dst mid payload = .error (.raised e) := by
  obtain ⟨hmc, hfrags, -⟩ := mbusBounds_of_sizesOk hsizes
  by_cases hlong : c.mbusMaxChunk < payload.length ∧ dst = c.mbusBcast
  · exact .inr ⟨_, mbusFragment_of_broadcast c src dst mid payload hlong.1 hlong.2⟩
  · have hallowed : payload.length ≤ c.mbusMaxChunk ∨ dst ≠ c.mbusBcast := by
      by_cases hdst : dst = c.mbusBcast
      · exact .inl (Nat.not_lt.1 fun hl => hlong ⟨hl, hdst⟩)
      · exact .inr hdst
    have hroom : payload.length ≤ c.mbusMaxFrags * c.mbusMaxChunk := by
      rcases h with hdst | hroom
      · exact (hallowed.resolve_right (not_not.2 hdst)).trans (Nat.le_mul_of_pos_left _ hfrags)
      · exact hroom
    obtain ⟨ms, hms, hle⟩ := mbusFragment_of_allowed hmc src mid hallowed hroom
    exact .inl ⟨ms, hms, fun m hm => (hle m hm).trans (mbusMaxChunk_le_of_sizesOk hsizes)⟩

/-- Outside its domain fragmenting refuses (R180). -/
theorem mbusFragment_of_not_fragmentsFit {c : Cfg} (hsizes : c.sizesOk = true) (src mid : Byte) {dst : Byte}
    {payload : Bytes} (h : ¬ fragmentsFit c dst payload) :
    mbusFragment c src dst mid payload = .error (.outside .tooManyFragments) := by
  obtain ⟨hmc, hfrags, -⟩ := mbusBounds_of_sizesOk hsizes
  obtain ⟨hdst, hroom⟩ := not_or.1 h
  have hmany : c.mbusMaxFrags * c.mbusMaxChunk < payload.length := Nat.not_le.1 hroom
  exact mbusFragment_of_tooMany c src dst mid payload ((Nat.le_mul_of_pos_left _ hfrags).trans_lt hmany) hdst
    ((lt_fragmentCount_iff _ _ _ hmc).2 hmany)

/-! ## The domain -/

/-- Inside its domain an instruction has a next state (R322). -/
theorem exec_next_of_inDomain (i : Instr) (s : State) (hdurs : s.cfg.durationsOk = true) (hsizes : s.cfg.sizesOk = true)
    (hcrc : s.cfg.mbusCrcLen ≤ 65000) (h : inDomain s i) : ∃ t, exec i s = .next t := by
  cases i with
  | gocEncode bits => exact ⟨_, exec_gocEncode_of_le bits s h⟩
  | gocDecode events => exact answerErr_completes _ s
  | gocSer events => exact ⟨_, exec_gocSer_of_lt events s h⟩
  | gocDeser body => exact ⟨_, exec_gocDeser body s⟩
  | einBuild dest opcode payload => exact ⟨_, exec_einBuild_of_le dest opcode payload s h⟩
  | einParse body => exact answerErr_completes _ s
  | mbusBuild src dst mid idx cnt chunk => exact ⟨_, exec_mbusBuild_of_le src dst mid idx cnt chunk s h⟩
  | mbusParse body => exact answerErr_completes _ s
  | mbusFragment src dst mid payload =>
    rcases mbusFragment_of_fragmentsFit hsizes src mid h with ⟨ms, hms, -⟩ | ⟨e, he⟩
    · exact ⟨_, exec_mbusFragment_of_ok hms⟩
    · exact ⟨_, exec_mbusFragment_of_error he⟩
  | mbusReassemble => exact ⟨_, rfl⟩
  | muxSend c body =>
    by_cases hoff : railAt s (s.cfg.gov c) = .off
    · exact ⟨_, exec_muxSend_of_off c body s hoff⟩
    · exact ⟨_, exec_muxSend_of_le c body s hoff (Or.resolve_left h hoff)⟩
  | muxReceive => exact exec_muxReceive_completes s
  | setRail r st => exact exec_setRail_completes st h
  | reset k => exact exec_reset_completes k s
  | gocSend bits =>
    by_cases hoff : railAt s (s.cfg.gov .goc) = .off
    · exact ⟨_, exec_gocSend_of_off bits s hoff⟩
    · obtain ⟨_, _, _, -, -, -, -, hnext⟩ := gocSendWrites bits s hdurs hsizes (Or.resolve_left h hoff) hoff
      exact ⟨_, hnext⟩
  | einSend addr opcode payload =>
    cases hw : s.wait with
    | some w => exact ⟨_, if_pos (by rw [hw]; rfl)⟩
    | none =>
      by_cases hoff : railAt s (s.cfg.gov .ein) = .off
      · exact ⟨_, exec_einSend_of_off addr opcode payload s hw hoff⟩
      · have hfits := (Or.resolve_left h (by simp [hw])).resolve_left hoff
        obtain ⟨_, _, -, -, hnext⟩ := einSendIssues addr opcode payload s hw hoff hfits.1 hfits.2
        exact ⟨_, hnext⟩
  | mbusSend src dst payload =>
    by_cases hoff : railAt s (s.cfg.gov .mbus) = .off
    · exact ⟨_, exec_mbusSend_of_off src dst payload s hoff⟩
    · rcases mbusFragment_of_fragmentsFit hsizes src s.mbusNextId (Or.resolve_left h hoff) with ⟨ms, hms, hle⟩ | ⟨e, he⟩
      · exact ⟨_, exec_mbusSend_of_fragments hoff hms hle hcrc⟩
      · exact ⟨_, exec_mbusSend_of_stop hoff he⟩
  | cancel | snoopStart | snoopStop | snoopExport | rxByte | tick | recFail => exact ⟨_, rfl⟩
  | dispatch => exact exec_dispatch_completes s
  | record pre body => exact ⟨_, if_neg (Nat.not_lt.2 h)⟩
  | pulseWord edge dur => exact ⟨_, if_neg (Nat.not_le.2 h)⟩
  | einBody dest opcode payload checksum => exact ⟨_, if_neg (Nat.not_lt.2 h)⟩
  | mbusBody src dst mid idx cnt chunk crc => exact ⟨_, if_neg (Nat.not_lt.2 h)⟩

/-- Outside its domain an instruction is refused (93_implementation_defined.md U1 to U5). -/
theorem exec_refused_of_not_inDomain (i : Instr) (s : State) (hsizes : s.cfg.sizesOk = true) (h : ¬ inDomain s i) :
    ∃ r, exec i s = .refused r := by
  cases i with
  | gocEncode bits => exact ⟨_, exec_gocEncode_of_gt bits s (Nat.not_le.1 h)⟩
  | gocSer events =>
    refine ⟨_, exec_gocSer_of_le events s ?_⟩
    by_contra hall
    exact h fun e he => Nat.not_le.1 fun hd => hall ⟨e, he, hd⟩
  | einBuild dest opcode payload => exact ⟨_, exec_einBuild_of_gt dest opcode payload s (Nat.not_le.1 h)⟩
  | mbusBuild src dst mid idx cnt chunk =>
    exact ⟨_, exec_mbusBuild_of_gt src dst mid idx cnt chunk s (Nat.not_le.1 h)⟩
  | mbusFragment src dst mid payload =>
    exact ⟨_, exec_mbusFragment_of_error (mbusFragment_of_not_fragmentsFit hsizes src mid h)⟩
  | muxSend c body =>
    obtain ⟨hup, hlen⟩ := not_or.1 h
    exact ⟨_, exec_muxSend_of_gt c body s hup (Nat.not_le.1 hlen)⟩
  | setRail r st => exact ⟨_, exec_setRail_of_ge st (Nat.not_lt.1 h)⟩
  | gocSend bits =>
    obtain ⟨hup, hlen⟩ := not_or.1 h
    exact exec_gocSend_refused hup (Nat.not_le.1 hlen)
  | einSend addr opcode payload =>
    obtain ⟨hw, hsend⟩ := not_or.1 h
    obtain ⟨hup, hfits⟩ := not_or.1 hsend
    refine exec_einSend_refused (Option.not_isSome_iff_eq_none.1 hw) hup ?_
    rcases not_and_or.1 hfits with hmax | hrecord
    · exact .inl (Nat.not_le.1 hmax)
    · exact .inr (Nat.not_le.1 hrecord)
  | mbusSend src dst payload =>
    obtain ⟨hup, hfits⟩ := not_or.1 h
    exact ⟨_, exec_mbusSend_of_stop hup (mbusFragment_of_not_fragmentsFit hsizes src s.mbusNextId hfits)⟩
  | record pre body => exact ⟨_, if_pos (Nat.not_le.1 h)⟩
  | pulseWord edge dur => exact ⟨_, if_pos (Nat.not_lt.1 h)⟩
  | einBody dest opcode payload checksum => exact ⟨_, if_pos (Nat.not_le.1 h)⟩
  | mbusBody src dst mid idx cnt chunk crc => exact ⟨_, if_pos (Nat.not_le.1 h)⟩
  | _ => exact absurd trivial h

/-! ## What an error leaves available -/

/-- After an error, which is one report more, every instruction does what it would have done. -/
theorem exec_after_err (j : Instr) (s : State) (e : Err) :
    (∀ u, exec j s = .next u →
        ∃ a, u.ret = s.ret ++ a ∧ exec j (s.pushRet [.err e]) = .next { u with ret := (s.pushRet [.err e]).ret ++ a })
      ∧ (∀ r, exec j s = .refused r → exec j (s.pushRet [.err e]) = .refused r) := by
  refine ⟨fun u hu => ?_, fun r hr => exec_refused_with_logs hr (s.pushRet [.err e]).ret s.evt s.res⟩
  obtain ⟨a, b, c, hret, hevt, hres, h⟩ := exec_next_with_logs hu (s.pushRet [.err e]).ret s.evt s.res
  rw [← hevt, ← hres] at h
  exact ⟨a, hret, h⟩

/-- Settles O45: the domain, the independence from the reports, and that a failed operation only reports. -/
theorem nothingStopsTheBlock : Obligations.NothingStopsTheBlock := by
  refine ⟨fun i s hdurs hsizes hcrc =>
      ⟨exec_next_of_inDomain i s hdurs hsizes hcrc, exec_refused_of_not_inDomain i s hsizes⟩,
    fun i s ret evt res => ⟨fun t h => exec_next_with_logs h ret evt res, fun r h => exec_refused_with_logs h ret evt res⟩,
    fun i j s t e h he => ?_⟩
  rw [failedOperationChangesNothing i s t e h he]
  exact exec_after_err j s e

end Sys2Proof.Machine
end

section
/-! PROOFS. Block reset (spec 70_reset_and_hazards.md R361, R362). Every statement about a block just constructed reads the
fields of `State.construct`: no register is up, nothing settles, is awaited, held or logged. -/

namespace Sys2Proof.Machine

/-- Every rail is OFF after block reset, and so is every rail that does not exist (R361). -/
theorem railAt_construct (c : Cfg) (r : Nat) : railAt (State.construct c) r = .off := by
  change (List.replicate c.nrails RailState.off).getD r .off = .off
  rcases Nat.lt_or_ge r c.nrails with h | h
  · exact List.getD_replicate _ h
  · exact List.getD_eq_default _ _ (by rwa [List.length_replicate])

theorem rail_length_construct (c : Cfg) : (State.construct c).rail.length = c.nrails := List.length_replicate

/-- Settles O54: the rails by their two lemmas, every other component as it is written at construction. -/
theorem resetState : Obligations.ResetState := fun c =>
  ⟨railAt_construct c, rail_length_construct c, rfl, rfl, rfl, rfl, rfl, rfl, rfl, rfl, rfl, rfl, rfl, rfl, rfl, rfl, rfl,
    rfl⟩

/-! ## The invariants' base case -/

/-- Nothing has been received, sent or observed. -/
theorem recorderInv_construct (c : Cfg) : RecorderInv (State.construct c) := ⟨rfl, rfl, fun _ => rfl⟩

/-- No reset settles. -/
theorem railsInv_construct (c : Cfg) : RailsInv (State.construct c) :=
  railsInv_of_not_busy (rail_length_construct c) rfl

/-- The parser is idle and empty, the queue is empty, and no wait is pending. -/
theorem receiverInv_construct (c : Cfg) : ReceiverInv (State.construct c) := by
  have hparser : ParserInv (State.construct c) := ⟨rfl, rfl, rfl⟩
  have hqueue : (State.construct c).rxq = [] := rfl
  have hwait : (State.construct c).wait = none := rfl
  exact ⟨hparser, by simp [hqueue], by simp [hwait]⟩

/-- The table has no entry. -/
theorem reasmInv_construct (c : Cfg) : ReasmInv (State.construct c) := by
  have htable : (State.construct c).reasm = [] := rfl
  simp [ReasmInv, htable, Table.wf]

/-- No timer runs. -/
theorem deadlinesInv_construct (c : Cfg) : DeadlinesInv (State.construct c) := by
  have hbusy : (State.construct c).rst.busy = false := rfl
  have hwait : (State.construct c).wait = none := rfl
  have htable : (State.construct c).reasm = [] := rfl
  simp [DeadlinesInv, hbusy, hwait, htable]

/-- Nothing has been reported. -/
theorem errorsInv_construct (c : Cfg) : ErrorsInv (State.construct c) := by
  have hret : (State.construct c).ret = [] := rfl
  have hevt : (State.construct c).evt = [] := rfl
  have hres : (State.construct c).res = [] := rfl
  simp [ErrorsInv, hret, hevt, hres]

/-- The six invariants hold of a block just constructed. -/
theorem invariants_construct (c : Cfg) :
    RecorderInv (State.construct c) ∧ RailsInv (State.construct c) ∧ ReceiverInv (State.construct c)
      ∧ ReasmInv (State.construct c) ∧ DeadlinesInv (State.construct c) ∧ ErrorsInv (State.construct c) :=
  ⟨recorderInv_construct c, railsInv_construct c, receiverInv_construct c, reasmInv_construct c, deadlinesInv_construct c,
    errorsInv_construct c⟩

/-- Settles O55: `State.reset` is the block constructed for `CFG_REF`. -/
theorem invariantsAtReset : Obligations.InvariantsAtReset := fun c => ⟨invariants_construct c, invariants_construct cfgRef⟩

end Sys2Proof.Machine
end

section
/-! PROOFS. Which step is next (spec 00_scope.md R14; 45_command_surface.md R266; log entries 3, 4, 5). The idea: a turn
whose bytes decode runs what they decode to, and what an encoding decodes to is known from `decodeEncodeAgree`. -/

namespace Sys2Proof.Machine

/-! ## A turn whose input decodes -/

/-- Taking a turn off the schedule leaves every agent's input. -/
@[simp] theorem State.setTurns_source (s : State) (ts : List Turn) (t : Turn) : (s.setTurns ts).source t = s.source t := by
  cases t <;> rfl

/-- An agent that takes bytes decodes nothing from no bytes. -/
theorem decode_nil_of_takesBytes (c : Cfg) {t : Turn} (ht : takesBytes t = true) :
    decode c t [] = .error .truncated := by
  cases t with
  | client | reader => rfl
  | peer f => cases f <;> rfl
  | resume | dispatcher | clock | recorder => cases ht

/-- The turn of any agent but the held calls decodes that agent's input. -/
theorem fetch_of_scheduled {s : State} {t : Turn} {ts : List Turn} (ht : t ≠ .resume) (hs : s.turns = t :: ts) :
    fetch s = fetchTurn t (s.setTurns ts) := by
  rw [fetch, hs]
  cases t with
  | resume => exact absurd rfl ht
  | client | peer f | reader | dispatcher | clock | recorder => rfl

/-- A turn whose input decodes runs the instruction decoded. -/
theorem fetchTurn_of_decode_ok {t : Turn} {s : State} {i : Instr} {rest : Bytes}
    (hdec : decode s.cfg t (s.source t) = .ok (i, rest)) : fetchTurn t s = .run i (s.consume t rest) := by
  have henabled : ¬ (takesBytes t = true ∧ s.source t = []) := by
    rintro ⟨ht, hnil⟩
    rw [hnil, decode_nil_of_takesBytes s.cfg ht] at hdec
    cases hdec
  rw [fetchTurn, if_neg henabled, hdec]

/-- A step whose agent's input decodes is `exec` of the instruction decoded. -/
theorem step_of_decode_ok {s : State} {t : Turn} {ts : List Turn} {i : Instr} {rest : Bytes} (hs : s.turns = t :: ts)
    (hdec : decode s.cfg t (s.source t) = .ok (i, rest)) : step s = exec i ((s.setTurns ts).consume t rest) := by
  have ht : t ≠ .resume := by rintro rfl; cases hdec
  have hrun : fetchTurn t (s.setTurns ts) = .run i ((s.setTurns ts).consume t rest) :=
    fetchTurn_of_decode_ok (by rwa [State.setTurns_cfg, State.setTurns_source])
  rw [step, fetch_of_scheduled ht hs, hrun]

/-- Settles O4: the input begins with the encoding, which decodes to the instruction (O1). -/
theorem stepRunsDecoded : Obligations.StepRunsDecoded := by
  intro s ts i rest hwf hs hsrc
  refine step_of_decode_ok hs ?_
  rw [hsrc]
  exact decodeEncodeAgree s.cfg i rest hwf

/-! ## The other turns -/

/-- With nothing scheduled only time passes (R345). -/
theorem step_of_unscheduled {s : State} (hs : s.turns = []) : step s = exec .tick s := by
  rw [step, fetch, hs]

/-- The turn of an agent without the bytes its step takes passes (R63; log entry 4). -/
theorem step_of_no_input {s : State} {t : Turn} {ts : List Turn} (ht : takesBytes t = true) (hs : s.turns = t :: ts)
    (hsrc : s.source t = []) : step s = .next (s.setTurns ts) := by
  have hidle : fetchTurn t (s.setTurns ts) = .idle (s.setTurns ts) := if_pos ⟨ht, (s.setTurns_source ts t).trans hsrc⟩
  rw [step, fetch_of_takesBytes s t ts ht hs, hidle]

/-- The turn of the held calls looks at the queue of them and at the wait (R266). -/
theorem fetch_of_resume {s : State} {ts : List Turn} (hs : s.turns = .resume :: ts) :
    fetch s = fetchHeld (s.setTurns ts) := by
  rw [fetch, hs]

/-- With no wait pending the oldest held call leaves the queue and runs (R266). -/
theorem fetchHeld_of_free {s : State} {h : HeldCall} {hs : List HeldCall} (hheld : s.held = h :: hs)
    (hw : s.wait = none) : fetchHeld s = .run (.einSend h.addr h.opcode h.payload) (s.setHeld hs) := by
  rw [fetchHeld, hheld]
  exact if_pos hw

/-- With no call held, or a wait pending, no held call runs (R266). -/
theorem fetchHeld_of_blocked {s : State} (h : s.held = [] ∨ s.wait.isSome = true) : fetchHeld s = .idle s := by
  rw [fetchHeld]
  split
  next => rfl
  next hheld =>
    have hw : s.wait.isSome = true := h.resolve_left (by rw [hheld]; exact List.cons_ne_nil _ _)
    exact if_neg (Option.isSome_iff_ne_none.1 hw)

/-- Settles O5: nothing scheduled, a turn without input, and the turn of the held calls, free and blocked. -/
theorem stepOtherTurns : Obligations.StepOtherTurns := by
  refine ⟨fun s hs => step_of_unscheduled hs, fun s t ts ht hs hsrc => ?_, fun s ts h hs hturns hheld hw => ?_,
    fun s ts hturns hblocked => ?_⟩
  · refine step_of_no_input ?_ hs hsrc
    rcases ht with rfl | rfl | ⟨f, rfl⟩ <;> rfl
  · have hrun : fetchHeld (s.setTurns ts) = .run (.einSend h.addr h.opcode h.payload) ((s.setTurns ts).setHeld hs) :=
      fetchHeld_of_free hheld hw
    rw [step, fetch_of_resume hturns, hrun]
  · have hidle : fetchHeld (s.setTurns ts) = .idle (s.setTurns ts) := fetchHeld_of_blocked hblocked
    rw [step, fetch_of_resume hturns, hidle]

/-! ## EIN_SEND while a wait is pending -/

/-- Settles O39: the first check of EIN_SEND is that for a pending wait (R266). -/
theorem einSendHeld : Obligations.EinSendHeld := fun addr opcode payload s hw => by
  change execEinSend addr opcode payload s = _
  rw [execEinSend, if_pos hw]

end Sys2Proof.Machine
end

section
/-! PROOFS. The snoop operations (spec 45_command_surface.md R275; log entry 9): each is one request forwarded to the
recorder. -/

namespace Sys2Proof.Machine

/-- A forwarded request is logged, draws the next free value, and answers with it (R275; log entry 9). -/
theorem forwardSnoop_eq (q : SnoopRequest) (s : State) :
    forwardSnoop q s = .next (((s.pushSnoop [q]).setFreeCount (s.freeCount + 1)).pushRet
      [.fromRecorder (Config.recorderAnswer s.freeCount)]) := rfl

/-- Settles O43: the three operations forward their three requests. -/
theorem snoopForwards : Obligations.SnoopForwards := fun s =>
  ⟨forwardSnoop_eq .start s, forwardSnoop_eq .stop s, forwardSnoop_eq .exportTrace s⟩

end Sys2Proof.Machine
end
